-- ==== Sys2Proof/Word.lean ====
section
/-! DEFINITION. The words the agile-dhcp TLV codec moves: bytes, 16-bit and 32-bit words.
Every value is unsigned (00_scope.md R8), so plain bit vectors serve and no signed view is given. -/

namespace Sys2Proof

/-- A byte, `u8` of 00_scope.md R8. -/
abbrev Byte := BitVec 8

/-- A `u16` of 00_scope.md R8. -/
abbrev Half := BitVec 16

/-- A `u32` of 00_scope.md R8: the width of every register and of a command word. -/
abbrev Word := BitVec 32

/-- The 13-bit lengths and offsets of `RXLEN`, `TXLEN` and `DINFO.DOFF` (10_state.md R26, R27, R36). -/
abbrev Len13 := BitVec 13

end Sys2Proof
end

