-- ==== Sys2Proof/Syntax.lean ====
section
/-! DEFINITION. The thirteen commands of 30_encoding.md R93, one constructor per row of the opcode table, with the
operand fields R90 gives them. -/

namespace Sys2Proof

/-- The BANK field (30_encoding.md R90): option bank 0 or 1. -/
inductive Bank where
  | bank0
  | bank1
deriving DecidableEq, Repr

/-- One command. `idx` is the IDX field, an entry index; `code` is the CODE field, an option code
(30_encoding.md R90, R91). -/
inductive Instr where
  | xidgen
  | b2u16
  | b2u32
  | u16tb
  | u32tb
  | optenc (bank : Bank) (idx : Nat)
  | optdec (bank : Bank) (idx : Nat) (code : Byte)
  | msgenc
  | msgdec
  | blddisc
  | bldreq
  | blddecl
  | bldrel
deriving DecidableEq, Repr

end Sys2Proof
end

