-- ==== Sys2Proof/WellFormed.lean ====
section
/-! DEFINITION. Which commands have a command word: the IDX field has eight bits (30_encoding.md R90). -/

namespace Sys2Proof

/-- The check of each command: an entry index fits the IDX field. -/
def Instr.wellFormed : Instr → Bool
  | .xidgen => true
  | .b2u16 => true
  | .b2u32 => true
  | .u16tb => true
  | .u32tb => true
  | .optenc _ idx => decide (idx < 256)
  | .optdec _ idx _ => decide (idx < 256)
  | .msgenc => true
  | .msgdec => true
  | .blddisc => true
  | .bldreq => true
  | .blddecl => true
  | .bldrel => true

end Sys2Proof
end

