-- ==== Sys2Proof/Decode.lean ====
section
/-! DEFINITION. The decoder and the encoder of the command word CMD32 (30_encoding.md R90 to R95, R131). -/

namespace Sys2Proof

/-- Why a word is illegal (30_encoding.md R94). The block reports all three as `ILLEGAL_CMD`. -/
inductive Illegal where
  /-- the RSV bits [31:25] are not zero -/
  | reservedBits
  /-- the OPC is not one of the thirteen -/
  | unknownOpcode
  /-- a field that the opcode does not use is not zero -/
  | unusedField
deriving DecidableEq, Repr

/-- The fields of a command word (30_encoding.md R90). -/
structure CmdFields where
  rsv  : BitVec 7
  bank : BitVec 1
  idx  : Byte
  code : Byte
  opc  : Byte
deriving DecidableEq, Repr

/-- 30_encoding.md R90: where each field stands in the word. -/
def cmdFields (w : Word) : CmdFields where
  rsv := w.extractLsb' 25 7
  bank := w.extractLsb' 24 1
  idx := w.extractLsb' 16 8
  code := w.extractLsb' 8 8
  opc := w.extractLsb' 0 8

/-- The word with given fields (30_encoding.md R131). -/
def cmdWord (f : CmdFields) : Word := f.rsv ++ f.bank ++ f.idx ++ f.code ++ f.opc

/-- The BANK bit as a bank. -/
def bankOfBit (b : BitVec 1) : Bank := if b = 0#1 then .bank0 else .bank1

/-- A bank as the BANK bit. -/
def bankBit : Bank → BitVec 1
  | .bank0 => 0#1
  | .bank1 => 1#1

/-- The commands whose only field is OPC (30_encoding.md R93). -/
def plainCommand (opc : Byte) : Option Instr :=
  if opc = 0x01#8 then some .xidgen
  else if opc = 0x02#8 then some .b2u16
  else if opc = 0x03#8 then some .b2u32
  else if opc = 0x04#8 then some .u16tb
  else if opc = 0x05#8 then some .u32tb
  else if opc = 0x20#8 then some .msgenc
  else if opc = 0x21#8 then some .msgdec
  else if opc = 0x30#8 then some .blddisc
  else if opc = 0x31#8 then some .bldreq
  else if opc = 0x32#8 then some .blddecl
  else if opc = 0x33#8 then some .bldrel
  else none

/-- Decoding by fields (30_encoding.md R92 to R95): total, rejecting by name. -/
def decodeFields (f : CmdFields) : Except Illegal Instr :=
  if f.rsv ≠ 0#7 then .error .reservedBits
  else if f.opc = 0x11#8 then .ok (.optdec (bankOfBit f.bank) f.idx.toNat f.code)
  else if f.opc = 0x10#8 then
    if f.code = 0#8 then .ok (.optenc (bankOfBit f.bank) f.idx.toNat) else .error .unusedField
  else
    match plainCommand f.opc with
    | none => .error .unknownOpcode
    | some i => if f.code = 0#8 ∧ f.idx = 0#8 ∧ f.bank = 0#1 then .ok i else .error .unusedField

/-- The command a word stands for, or why it is illegal (30_encoding.md R94, R95). -/
def decode (w : Word) : Except Illegal Instr := decodeFields (cmdFields w)

/-- The fields of a command (30_encoding.md R92, R93): every unused field is zero. -/
def fieldsOf : Instr → CmdFields
  | .xidgen => ⟨0, 0, 0, 0, 0x01⟩
  | .b2u16 => ⟨0, 0, 0, 0, 0x02⟩
  | .b2u32 => ⟨0, 0, 0, 0, 0x03⟩
  | .u16tb => ⟨0, 0, 0, 0, 0x04⟩
  | .u32tb => ⟨0, 0, 0, 0, 0x05⟩
  | .optenc b i => ⟨0, bankBit b, BitVec.ofNat 8 i, 0, 0x10⟩
  | .optdec b i c => ⟨0, bankBit b, BitVec.ofNat 8 i, c, 0x11⟩
  | .msgenc => ⟨0, 0, 0, 0, 0x20⟩
  | .msgdec => ⟨0, 0, 0, 0, 0x21⟩
  | .blddisc => ⟨0, 0, 0, 0, 0x30⟩
  | .bldreq => ⟨0, 0, 0, 0, 0x31⟩
  | .blddecl => ⟨0, 0, 0, 0, 0x32⟩
  | .bldrel => ⟨0, 0, 0, 0, 0x33⟩

/-- The command word of a command (30_encoding.md R131). -/
def encode (i : Instr) : Word := cmdWord (fieldsOf i)

/-- The `match` column of 30_encoding.md R93. -/
def rowMatch : Instr → Word
  | .xidgen => 0x00000001
  | .b2u16 => 0x00000002
  | .b2u32 => 0x00000003
  | .u16tb => 0x00000004
  | .u32tb => 0x00000005
  | .optenc _ _ => 0x00000010
  | .optdec _ _ _ => 0x00000011
  | .msgenc => 0x00000020
  | .msgdec => 0x00000021
  | .blddisc => 0x00000030
  | .bldreq => 0x00000031
  | .blddecl => 0x00000032
  | .bldrel => 0x00000033

/-- The `mask` column of 30_encoding.md R93. -/
def rowMask : Instr → Word
  | .xidgen => 0xFFFFFFFF
  | .b2u16 => 0xFFFFFFFF
  | .b2u32 => 0xFFFFFFFF
  | .u16tb => 0xFFFFFFFF
  | .u32tb => 0xFFFFFFFF
  | .optenc _ _ => 0xFE00FFFF
  | .optdec _ _ _ => 0xFE0000FF
  | .msgenc => 0xFFFFFFFF
  | .msgdec => 0xFFFFFFFF
  | .blddisc => 0xFFFFFFFF
  | .bldreq => 0xFFFFFFFF
  | .blddecl => 0xFFFFFFFF
  | .bldrel => 0xFFFFFFFF

/-- The instruction the decoder reads from an opcode-table word `w` of `nbits` bits, the bits above `nbits` zero. A
command is ONE 32-bit word (30_encoding.md R90), so the table's numbering of bits is the register's own. -/
def decodeTableWord (nbits w : Nat) : Option Instr :=
  match decode (BitVec.ofNat 32 (w % 2 ^ nbits)) with
  | .ok i => some i
  | .error _ => none

end Sys2Proof
end

