-- ==== Sys2Proof/Config.lean ====
section
/-! DEFINITION. What an instance fixes (00_scope.md R6) and the free values: the opaque constants from which
every value the spec leaves open is drawn. None of the opaque constants has a body, so no proof can see a value
of one. -/

namespace Sys2Proof

/-- `BUF_BYTES`, the capacity of RXBUF and of TXBUF, 4096 in every instance (00_scope.md R6). -/
abbrev Config.bufBytes : Nat := 4096

/-- The default of the parameter `MAX_OPTS` (00_scope.md R6). DESIGN CHOICE (log 2), unsafe: `State.reset` is the
reset state of the instance with this value; every other instance is a state whose field `maxOpts` differs. -/
abbrev Config.defaultMaxOpts : Nat := 64

/-- FREE VALUE (log 3, safe): the answers of the entropy source, by draw number (41_bytecodec.md R141: "a draw under
no law"). -/
opaque Config.entropy : Nat → Word

/-- FREE VALUE (log 4, safe): the byte at an address that was made UNSPEC by a draw: arguments the draw number and
the address (70_reset_and_hazards.md R300: "any value, independently per byte"). -/
opaque Config.unspecByte : Nat → Nat → Byte

/-- FREE VALUE (log 7, log 9, safe): a register value, or a value read while BUSY, that the spec does not fix, by
draw number (70_reset_and_hazards.md R312, R313). -/
opaque Config.unspecWord : Nat → Word

end Sys2Proof
end

