-- ==== Sys2Proof/Machine/State.lean ====
section
/-! DEFINITION. The state of the block (10_state.md R20 to R45), the model's bookkeeping beside it
(60_exceptions.md R285), the reasons a step could stop, and the state after reset (70_reset_and_hazards.md R300). -/

namespace Sys2Proof.Machine

/-- The completion codes of 60_exceptions.md R270. -/
inductive ErrCode where
  | none
  | illegalCmd
  | lenRange
  | cntRange
  | idxRange
  | decShortHeader
  | decTruncLen
  | decTruncPayload
  | decBadFixedLen
  | decBadChunk
  | decBadClientId
  | decOptOverflow
  | decBadCookie
  | decBadCode
  | encBadCode
  | encBadWidth
  | encOverflow
  | bldNoOffer
  | bldOverflow
deriving DecidableEq, Repr

/-- `DINFO.DSTAT` (10_state.md R36); the numbers 5 to 7 are never produced. -/
inductive DStat where
  | none
  | ended
  | unknown
  | eob
  | failed
deriving DecidableEq, Repr

/-- `MTYPE` (10_state.md R35): the cached message-type classification. -/
structure MType where
  val     : Byte
  present : Bool
deriving DecidableEq, Repr

/-- `DINFO` (10_state.md R36): the outcome of the last MSGDEC. -/
structure DInfo where
  dstat : DStat
  ucode : Byte
  doff  : Len13
deriving DecidableEq, Repr

/-- An option as a command sees it: the code and the payload `data[0..len)` (10_state.md R41, R42). The length byte
is the payload's length, so the invariant of R42 holds by construction. -/
structure Entry where
  code    : Byte
  payload : List Byte
deriving DecidableEq, Repr

/-- A range of addresses whose bytes were made UNSPEC by one draw (00_scope.md R11). -/
structure UnspecRange where
  base : Nat
  size : Nat
  draw : Nat
deriving DecidableEq, Repr

/-- Byte storage over the host's address space (20_memory.md R60, R61). `cells` lists the bytes that hold a written
value, addresses strictly rising; an address not listed holds an UNSPEC byte, the free value of the newest range of
`unspec` that covers it (log 4). -/
structure Memory where
  cells  : List Host.Cell
  unspec : List UnspecRange
deriving DecidableEq, Repr

/-- What can reach the block, and the turns the engine is given between host steps (00_scope.md R7,
70_reset_and_hazards.md R310; log 1). `read` and `write` are the bus primitives of 20_memory.md R64, with the access
width in bytes. -/
inductive Input where
  | read (addr width : Nat)
  | write (addr width : Nat) (value : Word)
  | reset
  | engine
deriving DecidableEq, Repr

/-- What the host bus answered to the last access (20_memory.md R64, 60_exceptions.md R284; log 10). -/
inductive BusResponse where
  | none
  | ack
  | data (value : Word)
  | error
deriving DecidableEq, Repr

/-- The fault reasons of 60_exceptions.md R285. They are MARKS kept in `State.faults`: the spec's machine goes on
after each, so no step of this model ends in one (log 6). -/
inductive Fault where
  /-- Recorded by `hostRead` and `hostWrite` for a rejected access (20_memory.md R64). Safe: claims take its absence
  as a premise. -/
  | hostBusError
  /-- Recorded by `hostWrite` for a write forbidden while BUSY (70_reset_and_hazards.md R312). Safe, as above. -/
  | hostHazard
deriving DecidableEq, Repr

/-- Why an instruction would have no meaning in the model. -/
inductive Refusal where
  /-- An instruction without a meaning, by its mnemonic: raised by no arm of `exec`, every command having its
  meaning. Safe. -/
  | notModelled (mnemonic : String)
deriving DecidableEq, Repr

/-- The set FAULTS of 60_exceptions.md R285: which reasons are marked. -/
structure FaultSet where
  hostBusError : Bool
  hostHazard   : Bool
deriving DecidableEq, Repr

/-- The state of the block and, last, the model's bookkeeping. Fields are the registers' fields of 10_state.md; the
32-bit values the host reads are the views of Machine/Flags.lean and Machine/Bus.lean. -/
structure State where
  /-- `CTRL.IE` (R23) -/
  ie        : Bool
  /-- `CTRL.CHKCOOKIE` (R23) -/
  chkCookie : Bool
  /-- `STATUS.DONE` (R24) -/
  done      : Bool
  /-- `STATUS.ERR` (R24) -/
  err       : Bool
  /-- `STATUS.CMDOVR` (R24) -/
  cmdovr    : Bool
  /-- `STATUS.MVALID` (R24, R44) -/
  mvalid    : Bool
  /-- `STATUS.ERRCODE` (R24) -/
  errcode   : ErrCode
  /-- `CMD` (R25): the last accepted command word -/
  cmd       : Word
  /-- `PEND` (R45): the command in flight; `STATUS.BUSY` is whether there is one -/
  pend      : Option Word
  /-- `RXLEN` (R26) -/
  rxlen     : Len13
  /-- `TXLEN` (R27) -/
  txlen     : Len13
  /-- `XIDR` (R28) -/
  xidr      : Word
  /-- `BCVAL` (R29) -/
  bcval     : Word
  /-- `P_MAC0` (R30) -/
  pMac0     : Word
  /-- `P_MAC1` (R30), bits [31:16] reserved -/
  pMac1     : Half
  /-- `P_SECS` (R31), bits [31:16] reserved -/
  pSecs     : Half
  /-- `P_GIADDR` (R32) -/
  pGiaddr   : Word
  /-- `P_TGTIP` (R33) -/
  pTgtip    : Word
  /-- `OPTCNT0` (R34) -/
  optcnt0   : Byte
  /-- `OPTCNT1` (R34) -/
  optcnt1   : Byte
  /-- `MTYPE` (R35) -/
  mtype     : MType
  /-- `DINFO` (R36) -/
  dinfo     : DInfo
  /-- the instance's `MAX_OPTS` (R37; 00_scope.md R6), changed by no step -/
  maxOpts   : Nat
  /-- HDR, the option banks, RXBUF and TXBUF (R40, R41, R43) -/
  mem       : Memory
  /-- the mark set FAULTS (60_exceptions.md R285) -/
  faults    : FaultSet
  /-- MODEL: a forbidden host write reached the command in flight (log 7) -/
  taint     : Bool
  /-- MODEL: the number of the next free value (log 5) -/
  draws     : Nat
  /-- MODEL: what the outside world does next, and the engine's turns (log 1) -/
  inbox     : List Input
  /-- MODEL: what the host bus answered last (log 10) -/
  resp      : BusResponse
deriving DecidableEq, Repr

/-- Storage in which every byte of the 17-bit space is UNSPEC by one draw (70_reset_and_hazards.md R300). -/
def Memory.allUnspec (draw : Nat) : Memory := ⟨[], [⟨0, 0x20000, draw⟩]⟩

/-- The reset state of 70_reset_and_hazards.md R300, for the instance with `MAX_OPTS = 64` (log 2), before any input
(log 1) and with the first free value given to the UNSPEC storage (log 5). -/
def State.reset : State where
  ie := false
  chkCookie := false
  done := false
  err := false
  cmdovr := false
  mvalid := false
  errcode := .none
  cmd := 0
  pend := none
  rxlen := 0
  txlen := 0
  xidr := 0
  bcval := 0
  pMac0 := 0
  pMac1 := 0
  pSecs := 0
  pGiaddr := 0
  pTgtip := 0
  optcnt0 := 0
  optcnt1 := 0
  mtype := ⟨0, false⟩
  dinfo := ⟨.none, 0, 0⟩
  maxOpts := Config.defaultMaxOpts
  mem := Memory.allUnspec 0
  faults := ⟨false, false⟩
  taint := false
  draws := 1
  inbox := []
  resp := .none

end Sys2Proof.Machine
end

