-- ==== Sys2Proof/Machine/Ops.lean ====
section
/-! DEFINITION. The named operations over storage, free values, completion and reset, which every meaning and the bus
share. -/

namespace Sys2Proof.Machine

/-! ## Where the storage stands (20_memory.md R61, R66) -/

/-- HDRWIN's base. -/
abbrev hdrBase : Nat := 0x100

/-- `|HDR|` (10_state.md R40). -/
abbrev hdrSize : Nat := 240

/-- RXWIN's base. -/
abbrev rxBase : Nat := 0x1000

/-- TXWIN's base. -/
abbrev txBase : Nat := 0x2000

/-- The base of a bank's option window. -/
def optBase : Bank → Nat
  | .bank0 => 0x8000
  | .bank1 => 0x10000

/-- The distance between two entries of a window. -/
abbrev entryStride : Nat := 0x200

/-- The bytes of an entry: code, len and 255 data bytes. -/
abbrev entrySize : Nat := 257

/-- The address of `OPT[b][i].code`. -/
def entryAddr (b : Bank) (i : Nat) : Nat := optBase b + entryStride * i

/-- The size of the host's address space (20_memory.md R60). -/
abbrev addressSpace : Nat := 0x20000

/-- Whether `a` lies in `[base, base + size)`. -/
def inRange (base size a : Nat) : Bool := decide (base ≤ a) && decide (a < base + size)

/-- Whether `a` is a byte of an entry below `MAX_OPTS` of bank `b`, reserved bytes of the entry included. -/
def inBank (maxOpts : Nat) (b : Bank) (a : Nat) : Bool := inRange (optBase b) (entryStride * maxOpts) a

/-- Whether `a` is one of the 257 defined bytes of an entry below `MAX_OPTS` of bank `b` (20_memory.md R66). -/
def inEntry (maxOpts : Nat) (b : Bank) (a : Nat) : Bool :=
  inBank maxOpts b a && decide ((a - optBase b) % entryStride < entrySize)

/-- Whether the host address `a` holds a stored byte: a byte of HDR, RXBUF, TXBUF or of an option entry
(20_memory.md R61, R65, R66). -/
def isStorage (maxOpts a : Nat) : Bool :=
  inRange hdrBase hdrSize a || inRange rxBase Config.bufBytes a || inRange txBase Config.bufBytes a
    || inEntry maxOpts .bank0 a || inEntry maxOpts .bank1 a

/-! ## Storage -/

/-- The written byte at an address, if it holds one. -/
def Memory.written (m : Memory) (a : Nat) : Option Byte := m.cells.lookup a

/-- The draw that made the address UNSPEC last. -/
def Memory.drawAt (m : Memory) (a : Nat) : Nat :=
  match m.unspec.find? fun r => inRange r.base r.size a with
  | some r => r.draw
  | none => 0

/-- What an unlisted address reads as: the free byte of the draw that made it UNSPEC (log 4). -/
def Memory.unlisted (m : Memory) (a : Nat) : Byte := Config.unspecByte (m.drawAt a) a

/-- The byte at an address. -/
def Memory.read (m : Memory) (a : Nat) : Byte := (m.written a).getD (m.unlisted a)

/-- The `n` bytes from an address. -/
def Memory.readN (m : Memory) (a n : Nat) : List Byte := (List.range n).map fun k => m.read (a + k)

/-- The bytes `bs` as cells from an address. -/
def cellsAt : Nat → List Byte → List Host.Cell
  | _, [] => []
  | a, b :: bs => (a, b) :: cellsAt (a + 1) bs

/-- Writing bytes from an address: what stood there is replaced, the rest stays. -/
def Memory.write (m : Memory) (a : Nat) (bs : List Byte) : Memory where
  cells := (m.cells.filter fun c => decide (c.1 < a)) ++ cellsAt a bs
    ++ m.cells.filter fun c => decide (a + bs.length ≤ c.1)
  unspec := m.unspec

/-- Whether range `r` lies inside `[base, base + size)`. -/
def UnspecRange.within (r : UnspecRange) (base size : Nat) : Bool :=
  decide (base ≤ r.base) && decide (r.base + r.size ≤ base + size)

/-- `mem[base .. base + size) <- UNSPEC` (00_scope.md R11): the bytes lose their values and read as the free bytes of
this draw. A range that the new one covers is forgotten. -/
def Memory.havoc (m : Memory) (base size draw : Nat) : Memory where
  cells := m.cells.filter fun c => !inRange base size c.1
  unspec := ⟨base, size, draw⟩ :: m.unspec.filter fun r => !r.within base size

/-- The canonical form: addresses strictly rising, and no range made UNSPEC stands inside a newer one. (A listed byte
is never equal to what the unlisted address reads as in the DATA: an unlisted address has no byte at all, its free
value being outside the data; log 4.) -/
abbrev Memory.wf (m : Memory) : Prop :=
  m.cells.Pairwise (fun c d => c.1 < d.1) ∧ m.unspec.Pairwise fun newer older => older.within newer.base newer.size = false

/-- Write bytes of the block's storage. -/
def State.writeMem (s : State) (a : Nat) (bs : List Byte) : State := { s with mem := s.mem.write a bs }

/-- Make bytes of the block's storage UNSPEC, by a fresh draw. -/
def State.havocMem (s : State) (base size : Nat) : State :=
  { s with mem := s.mem.havoc base size s.draws, draws := s.draws + 1 }

/-! ## Banks -/

/-- `CNT[b]` (00_scope.md R11; 10_state.md R34). -/
def State.cnt (s : State) : Bank → Nat
  | .bank0 => s.optcnt0.toNat
  | .bank1 => s.optcnt1.toNat

/-- `CNT[b] <- v`. -/
def State.setCnt (s : State) (b : Bank) (v : Byte) : State :=
  match b with
  | .bank0 => { s with optcnt0 := v }
  | .bank1 => { s with optcnt1 := v }

/-- The stored image of an entry: code, len, payload (20_memory.md R66). -/
def Entry.image (e : Entry) : List Byte := e.code :: BitVec.ofNat 8 e.payload.length :: e.payload

/-- `OPT[b][i]` as `(code, data[0..len))` (10_state.md R41). -/
def readEntry (m : Memory) (b : Bank) (i : Nat) : Entry where
  code := m.read (entryAddr b i)
  payload := m.readN (entryAddr b i + 2) (m.read (entryAddr b i + 1)).toNat

/-- The list of bank `b`: `OPT[b][0..CNT[b])` (10_state.md R41). -/
def State.bankList (s : State) (b : Bank) : List Entry := (List.range (s.cnt b)).map fun i => readEntry s.mem b i

/-- `OPT[b][i] <- e`: code, len and payload; `data[len..255)` UNSPEC (42_optioncodec.md R186). -/
def State.storeEntry (s : State) (b : Bank) (i : Nat) (e : Entry) : State :=
  (s.havocMem (entryAddr b i) entrySize).writeMem (entryAddr b i) e.image

/-- Write the entries of a list from index `i` on. -/
def Memory.writeEntries (m : Memory) (b : Bank) (i : Nat) : List Entry → Memory
  | [] => m
  | e :: es => (m.write (entryAddr b i) e.image).writeEntries b (i + 1) es

/-- Make every entry below `MAX_OPTS` of bank `b` UNSPEC. -/
def State.havocBank (s : State) (b : Bank) : State := s.havocMem (optBase b) (entryStride * s.maxOpts)

/-- `OPT[0][j] <- L[j]` for `j < |L|`, every other byte of bank 0 UNSPEC (43_messagecodec.md R227). -/
def State.storeBank0 (s : State) (l : List Entry) : State :=
  let s := s.havocBank .bank0
  { s with mem := s.mem.writeEntries .bank0 0 l }

/-! ## Completion: the one way a command ends (60_exceptions.md R271). No command traps (R273), so this stands where
other machines take an exception, and there is no return to go with it (R281). -/

/-- `complete(k)`. `taint` is the model's own (log 7). -/
def complete (k : ErrCode) (s : State) : State :=
  { s with pend := none, done := true, err := decide (k ≠ .none), errcode := k, taint := false }

/-- `done()`. -/
def finish (s : State) : State := complete .none s

/-- `fail(k)`. -/
def fail (k : ErrCode) (s : State) : State := complete k s

/-! ## Free words, marks and reset -/

/-- The next free word. -/
def State.freeWord (s : State) : Word := Config.unspecWord s.draws

/-- One draw has been used. -/
def State.drawn (s : State) : State := { s with draws := s.draws + 1 }

/-- `FAULTS <- FAULTS ∪ {f}` (60_exceptions.md R285). -/
def FaultSet.add (fs : FaultSet) : Fault → FaultSet
  | .hostBusError => { fs with hostBusError := true }
  | .hostHazard => { fs with hostHazard := true }

/-- Whether a reason is in FAULTS. -/
def FaultSet.has (fs : FaultSet) : Fault → Bool
  | .hostBusError => fs.hostBusError
  | .hostHazard => fs.hostHazard

/-- Set a fault mark. -/
def State.mark (s : State) (f : Fault) : State := { s with faults := s.faults.add f }

/-- The reset of 70_reset_and_hazards.md R300 to R302, as an event: every piece of block state takes its reset value,
a command in flight is abandoned, the storage is UNSPEC by a fresh draw. The instance's `MAX_OPTS`, the fault marks
and the model's bookkeeping stay. -/
def resetBlock (s : State) : State :=
  { State.reset with
    maxOpts := s.maxOpts
    mem := Memory.allUnspec s.draws
    faults := s.faults
    draws := s.draws + 1
    inbox := s.inbox
    resp := s.resp }

end Sys2Proof.Machine
end

