-- ==== Sys2Proof/Machine/Flags.lean ====
section
/-! DEFINITION. The flags and the 32-bit views of the status registers: STATUS, CTRL, MTYPE, DINFO, PARAM, the
interrupt output, and the message-type cache. -/

namespace Sys2Proof.Machine

/-- The numbers of 60_exceptions.md R270. -/
def ErrCode.toByte : ErrCode → Byte
  | .none => 0x00
  | .illegalCmd => 0x01
  | .lenRange => 0x02
  | .cntRange => 0x03
  | .idxRange => 0x04
  | .decShortHeader => 0x10
  | .decTruncLen => 0x11
  | .decTruncPayload => 0x12
  | .decBadFixedLen => 0x13
  | .decBadChunk => 0x14
  | .decBadClientId => 0x15
  | .decOptOverflow => 0x16
  | .decBadCookie => 0x17
  | .decBadCode => 0x18
  | .encBadCode => 0x20
  | .encBadWidth => 0x21
  | .encOverflow => 0x22
  | .bldNoOffer => 0x30
  | .bldOverflow => 0x31

/-- Every code of 60_exceptions.md R270, in its order. -/
def ErrCode.all : List ErrCode :=
  [.none, .illegalCmd, .lenRange, .cntRange, .idxRange, .decShortHeader, .decTruncLen, .decTruncPayload,
   .decBadFixedLen, .decBadChunk, .decBadClientId, .decOptOverflow, .decBadCookie, .decBadCode, .encBadCode,
   .encBadWidth, .encOverflow, .bldNoOffer, .bldOverflow]

/-- A free code from free bits: every code is reached (log 13). -/
def ErrCode.ofFree (b : Byte) : ErrCode := (ErrCode.all.find? fun k => k.toByte == b).getD .none

/-- The numbers of `DINFO.DSTAT` (10_state.md R36). -/
def DStat.bits : DStat → BitVec 3
  | .none => 0
  | .ended => 1
  | .unknown => 2
  | .eob => 3
  | .failed => 4

/-- A free status from free bits: every status is reached (log 13). -/
def DStat.ofFree (b : BitVec 3) : DStat :=
  if b = 1 then .ended else if b = 2 then .unknown else if b = 3 then .eob else if b = 4 then .failed else .none

/-- `STATUS.BUSY = 1` exactly when PEND holds a word (10_state.md R45). -/
def State.busy (s : State) : Bool := s.pend.isSome

/-- The `irq` output, `CTRL.IE & STATUS.DONE` (60_exceptions.md R280). -/
def State.irq (s : State) : Bool := s.ie && s.done

/-- `CTRL` as read (10_state.md R23): SRST reads 0. -/
def State.ctrlWord (s : State) : Word := 0#29 ++ BitVec.ofBool s.chkCookie ++ 0#1 ++ BitVec.ofBool s.ie

/-- `STATUS` as read (10_state.md R24). -/
def State.statusWord (s : State) : Word :=
  0#16 ++ s.errcode.toByte ++ 0#3 ++ BitVec.ofBool s.mvalid ++ BitVec.ofBool s.cmdovr ++ BitVec.ofBool s.err
    ++ BitVec.ofBool s.done ++ BitVec.ofBool s.busy

/-- `MTYPE` as read (10_state.md R35). -/
def MType.word (m : MType) : Word := 0#23 ++ BitVec.ofBool m.present ++ m.val

/-- `DINFO` as read (10_state.md R36). -/
def DInfo.word (d : DInfo) : Word := 0#3 ++ d.doff ++ d.ucode ++ 0#5 ++ d.dstat.bits

/-- `PARAM` as read (10_state.md R37). -/
def State.paramWord (s : State) : Word := 0#3 ++ BitVec.ofNat 13 Config.bufBytes ++ 0#8 ++ BitVec.ofNat 8 s.maxOpts

/-- `mtype(L)` (43_messagecodec.md R226): the last option 53 of length 1 gives the cached message type. -/
def mtypeOf (l : List Entry) : MType :=
  match l.reverse.find? fun e => e.code == 53#8 && e.payload.length == 1 with
  | some e => ⟨e.payload.headD 0, true⟩
  | none => ⟨0, false⟩

end Sys2Proof.Machine
end

