-- ==== Sys2Proof/Machine/Operands.lean ====
section
/-! DEFINITION. The operand forms of the commands: big-endian integers and addresses (00_scope.md R10, 10_state.md R39),
the MAC (10_state.md R30), the bytes of RXBUF and HDR, and the common checks every command passes first
(60_exceptions.md R272). -/

namespace Sys2Proof.Machine

/-! ## Big-endian integers (00_scope.md R10) -/

/-- `be16(b0, b1)`. -/
def be16 (b0 b1 : Byte) : Half := b0 ++ b1

/-- `be32(b0, b1, b2, b3)`. -/
def be32 (b0 b1 b2 b3 : Byte) : Word := b0 ++ b1 ++ b2 ++ b3

/-- `bytes16(v) = [v[15:8], v[7:0]]`. -/
def bytes16 (v : Half) : List Byte := [v.extractLsb' 8 8, v.extractLsb' 0 8]

/-- `bytes32(v) = [v[31:24], v[23:16], v[15:8], v[7:0]]`. -/
def bytes32 (v : Word) : List Byte :=
  [v.extractLsb' 24 8, v.extractLsb' 16 8, v.extractLsb' 8 8, v.extractLsb' 0 8]

/-- `zeros(n)` (00_scope.md R9). -/
def zeros (n : Nat) : List Byte := List.replicate n 0

/-- The magic cookie (30_encoding.md R102). -/
def cookie : List Byte := [0x63, 0x82, 0x53, 0x63]

/-! ## Bytes of the buffers and of the header image -/

/-- `RX[0..RXLEN)`, the bytes a command may read of RXBUF (20_memory.md R70). -/
def State.rxBytes (s : State) : List Byte := s.mem.readN rxBase s.rxlen.toNat

/-- `HDR[0..240)` (10_state.md R40). -/
def State.hdrBytes (s : State) : List Byte := s.mem.readN hdrBase hdrSize

/-- `HDR[i .. i + n)`. -/
def State.hdrSlice (s : State) (i n : Nat) : List Byte := s.mem.readN (hdrBase + i) n

/-- `HDR[i]`. -/
def State.hdrByte (s : State) (i : Nat) : Byte := s.mem.read (hdrBase + i)

/-- `MAC`, the six bytes of `P_MAC0` and `P_MAC1` in wire order (10_state.md R30). -/
def State.macBytes (s : State) : List Byte := bytes32 s.pMac0 ++ bytes16 s.pMac1

/-! ## The common checks (60_exceptions.md R272) -/

/-- Check 2 applies: the commands that read RXBUF. -/
def usesRx : Instr → Bool
  | .xidgen => false
  | .b2u16 => true
  | .b2u32 => true
  | .u16tb => false
  | .u32tb => false
  | .optenc _ _ => false
  | .optdec _ _ _ => true
  | .msgenc => false
  | .msgdec => true
  | .blddisc => false
  | .bldreq => false
  | .blddecl => false
  | .bldrel => false

/-- `banks(w)`: the banks whose count check 3 tests, in order. -/
def banksOf : Instr → List Bank
  | .xidgen => []
  | .b2u16 => []
  | .b2u32 => []
  | .u16tb => []
  | .u32tb => []
  | .optenc b _ => [b]
  | .optdec b _ _ => [b]
  | .msgenc => [.bank0]
  | .msgdec => []
  | .blddisc => [.bank1]
  | .bldreq => [.bank0, .bank1]
  | .blddecl => [.bank1]
  | .bldrel => [.bank1]

/-- Check 4 fails: the entry index is out of range. -/
def badIndex (i : Instr) (s : State) : Bool :=
  match i with
  | .xidgen => false
  | .b2u16 => false
  | .b2u32 => false
  | .u16tb => false
  | .u32tb => false
  | .optenc b idx => decide (s.cnt b ≤ idx)
  | .optdec b idx _ => decide (s.cnt b < idx) || decide (s.maxOpts ≤ idx)
  | .msgenc => false
  | .msgdec => false
  | .blddisc => false
  | .bldreq => false
  | .blddecl => false
  | .bldrel => false

/-- Checks 2 to 4 of a legal word, in their order: the code of the first that fails. -/
def commonCheck (i : Instr) (s : State) : Option ErrCode :=
  if usesRx i && decide (Config.bufBytes < s.rxlen.toNat) then some .lenRange
  else if (banksOf i).any fun b => decide (s.maxOpts < s.cnt b) then some .cntRange
  else if badIndex i s then some .idxRange
  else none

/-- A command behind its common checks: a failed check ends it and nothing else is written. -/
def checked (i : Instr) (s : State) (body : State → State) : Host.Outcome State Fault Refusal :=
  match commonCheck i s with
  | some k => .next (fail k s)
  | none => .next (body s)

end Sys2Proof.Machine
end

