-- ==== Sys2Proof/Machine/Bus.lean ====
section
/-! DEFINITION. The host bus: the register map (10_state.md R22 to R38, 20_memory.md R61), MemRead and MemWrite
(20_memory.md R62 to R66), command acceptance (70_reset_and_hazards.md R310, R311), the soft reset (R301), and what
holds while BUSY (R312, R313). -/

namespace Sys2Proof.Machine

/-- The registers of 10_state.md R22 to R37. -/
inductive Reg where
  | id
  | ctrl
  | status
  | cmd
  | rxlen
  | txlen
  | xidr
  | bcval
  | pMac0
  | pMac1
  | pSecs
  | pGiaddr
  | pTgtip
  | optcnt0
  | optcnt1
  | mtype
  | dinfo
  | param
deriving DecidableEq, Repr

/-- A register's offset (10_state.md R22 to R37). -/
def Reg.offset : Reg → Nat
  | .id => 0x000
  | .ctrl => 0x004
  | .status => 0x008
  | .cmd => 0x00C
  | .rxlen => 0x010
  | .txlen => 0x014
  | .xidr => 0x018
  | .bcval => 0x01C
  | .pMac0 => 0x020
  | .pMac1 => 0x024
  | .pSecs => 0x028
  | .pGiaddr => 0x02C
  | .pTgtip => 0x030
  | .optcnt0 => 0x034
  | .optcnt1 => 0x038
  | .mtype => 0x03C
  | .dinfo => 0x040
  | .param => 0x044

/-- Every register, in the order of the map. -/
def Reg.all : List Reg :=
  [.id, .ctrl, .status, .cmd, .rxlen, .txlen, .xidr, .bcval, .pMac0, .pMac1, .pSecs, .pGiaddr, .pTgtip, .optcnt0,
   .optcnt1, .mtype, .dinfo, .param]

/-- The register at an address; none at a reserved offset (10_state.md R38). -/
def regAt (a : Nat) : Option Reg := Reg.all.find? fun r => r.offset == a

/-- `ID`'s value (10_state.md R22). -/
def idValue : Word := 0x44484350

/-- The value a read of a register returns while the engine is idle (10_state.md R22 to R37): reserved bits read 0. -/
def readReg (s : State) : Reg → Word
  | .id => idValue
  | .ctrl => s.ctrlWord
  | .status => s.statusWord
  | .cmd => s.cmd
  | .rxlen => s.rxlen.setWidth 32
  | .txlen => s.txlen.setWidth 32
  | .xidr => s.xidr
  | .bcval => s.bcval
  | .pMac0 => s.pMac0
  | .pMac1 => s.pMac1.setWidth 32
  | .pSecs => s.pSecs.setWidth 32
  | .pGiaddr => s.pGiaddr
  | .pTgtip => s.pTgtip
  | .optcnt0 => s.optcnt0.setWidth 32
  | .optcnt1 => s.optcnt1.setWidth 32
  | .mtype => s.mtype.word
  | .dinfo => s.dinfo.word
  | .param => s.paramWord

/-- The stored bits a plain write to a register changes: its read-write bits, and nothing of a read-only register or
of a reserved bit. The side effects of writes to CTRL, STATUS and CMD are `writeReg`'s. -/
def storeReg (r : Reg) (v : Word) (s : State) : State :=
  match r with
  | .id => s
  | .ctrl => { s with ie := v.getLsbD 0, chkCookie := v.getLsbD 2 }
  | .status => s
  | .cmd => s
  | .rxlen => { s with rxlen := v.setWidth 13 }
  | .txlen => s
  | .xidr => { s with xidr := v }
  | .bcval => { s with bcval := v }
  | .pMac0 => { s with pMac0 := v }
  | .pMac1 => { s with pMac1 := v.setWidth 16 }
  | .pSecs => { s with pSecs := v.setWidth 16 }
  | .pGiaddr => { s with pGiaddr := v }
  | .pTgtip => { s with pTgtip := v }
  | .optcnt0 => { s with optcnt0 := v.setWidth 8 }
  | .optcnt1 => { s with optcnt1 := v.setWidth 8 }
  | .mtype => s
  | .dinfo => s
  | .param => s

/-- A write to CTRL (10_state.md R23, 70_reset_and_hazards.md R301): SRST resets and discards the rest. -/
def writeCtrl (v : Word) (s : State) : State := if v.getLsbD 1 then resetBlock s else storeReg .ctrl v s

/-- A write to STATUS (10_state.md R24, 60_exceptions.md R281): 1 clears DONE and CMDOVR, nothing else changes. -/
def writeStatus (v : Word) (s : State) : State :=
  { s with done := s.done && !v.getLsbD 1, cmdovr := s.cmdovr && !v.getLsbD 3 }

/-- Acceptance of a command word (70_reset_and_hazards.md R310). -/
def acceptCommand (w : Word) (s : State) : State := { s with cmd := w, pend := some w, done := false }

/-- A write to CMD (70_reset_and_hazards.md R310, R311): accepted while idle, dropped while BUSY. -/
def writeCmd (v : Word) (s : State) : State :=
  if s.busy then { s with cmdovr := true } else acceptCommand v s

/-- A register write with its side effects (20_memory.md R72). -/
def writeReg (r : Reg) (v : Word) (s : State) : State :=
  match r with
  | .id => storeReg .id v s
  | .ctrl => writeCtrl v s
  | .status => writeStatus v s
  | .cmd => writeCmd v s
  | .rxlen => storeReg .rxlen v s
  | .txlen => storeReg .txlen v s
  | .xidr => storeReg .xidr v s
  | .bcval => storeReg .bcval v s
  | .pMac0 => storeReg .pMac0 v s
  | .pMac1 => storeReg .pMac1 v s
  | .pSecs => storeReg .pSecs v s
  | .pGiaddr => storeReg .pGiaddr v s
  | .pTgtip => storeReg .pTgtip v s
  | .optcnt0 => storeReg .optcnt0 v s
  | .optcnt1 => storeReg .optcnt1 v s
  | .mtype => storeReg .mtype v s
  | .dinfo => storeReg .dinfo v s
  | .param => storeReg .param v s

/-! ## Legality and locations -/

/-- Whether an address is in REGS (20_memory.md R61). -/
def inRegs (a : Nat) : Bool := decide (a ≤ 0xFF)

/-- `addr < 0x20000 and legal(addr, n)` (20_memory.md R64). -/
def legalAccess (a n : Nat) : Bool :=
  decide (a < addressSpace)
    && ((inRegs a && decide (n = 4) && decide (a % 4 = 0)) || (decide (0x100 ≤ a) && decide (n = 1)))

/-- The value of a location while the engine is idle: a register, a stored byte, or 0 for a reserved location
(20_memory.md R61, R65, R66). A byte is carried in the low bits of the bus word. -/
def readLocation (s : State) (a : Nat) : Word :=
  if inRegs a then
    match regAt a with
    | some r => readReg s r
    | none => 0
  else if isStorage s.maxOpts a then (s.mem.read a).setWidth 32
  else 0

/-- The update a legal write makes where no hazard stands against it; a reserved location ignores it
(20_memory.md R65). -/
def writeLocation (a : Nat) (v : Word) (s : State) : State :=
  if inRegs a then
    match regAt a with
    | some r => writeReg r v s
    | none => s
  else if isStorage s.maxOpts a then s.writeMem a [v.setWidth 8]
  else s

/-! ## While BUSY -/

/-- The registers that may be read while BUSY (70_reset_and_hazards.md R313). -/
def stableReg : Reg → Bool
  | .id => true
  | .ctrl => true
  | .status => true
  | .cmd => true
  | .rxlen => false
  | .txlen => false
  | .xidr => false
  | .bcval => false
  | .pMac0 => false
  | .pMac1 => false
  | .pSecs => false
  | .pGiaddr => false
  | .pTgtip => false
  | .optcnt0 => false
  | .optcnt1 => false
  | .mtype => false
  | .dinfo => false
  | .param => true

/-- Whether the location's value is stable while BUSY. -/
def stableLocation (a : Nat) : Bool :=
  inRegs a && match regAt a with
    | some r => stableReg r
    | none => false

/-- The register writes forbidden while BUSY (70_reset_and_hazards.md R312). -/
def hazardReg (s : State) (v : Word) : Reg → Bool
  | .id => false
  | .ctrl => !v.getLsbD 1 && v.getLsbD 2 != s.chkCookie
  | .status => false
  | .cmd => false
  | .rxlen => true
  | .txlen => false
  | .xidr => true
  | .bcval => true
  | .pMac0 => true
  | .pMac1 => true
  | .pSecs => true
  | .pGiaddr => true
  | .pTgtip => true
  | .optcnt0 => true
  | .optcnt1 => true
  | .mtype => false
  | .dinfo => false
  | .param => false

/-- Whether a write is one of those 70_reset_and_hazards.md R312 forbids while BUSY: to an operand register, or to a
stored byte. A reserved byte of an entry is a reserved location, whose write is ignored (20_memory.md R65; log 8). -/
def hazardWrite (s : State) (a : Nat) (v : Word) : Bool :=
  if inRegs a then
    match regAt a with
    | some r => hazardReg s v r
    | none => false
  else isStorage s.maxOpts a

/-- The written location takes a free value (70_reset_and_hazards.md R312; log 7). -/
def havocLocation (a : Nat) (s : State) : State :=
  if inRegs a then
    match regAt a with
    | some r => (storeReg r s.freeWord s).drawn
    | none => s
  else if isStorage s.maxOpts a then s.havocMem a 1
  else s

/-- A forbidden write while BUSY: the mark, a free value in the location, and the command in flight tainted, so that
its outputs will be free (70_reset_and_hazards.md R312; log 7). -/
def hazard (a : Nat) (s : State) : State := { (havocLocation a s).mark .hostHazard with taint := true }

/-! ## The two bus primitives -/

/-- A rejected access (20_memory.md R64, 60_exceptions.md R284): the error response and the mark, no block state. -/
def busError (s : State) : State := { s.mark .hostBusError with resp := .error }

/-- `MemRead(addr, n)` (20_memory.md R64): the value, a free value while BUSY for a location that is not stable
(70_reset_and_hazards.md R313; log 9), or a bus error. -/
def hostRead (a n : Nat) (s : State) : State :=
  if !legalAccess a n then busError s
  else if s.busy && !stableLocation a then
    { s.drawn with resp := .data (if n = 1 then (s.freeWord.setWidth 8).setWidth 32 else s.freeWord) }
  else { s with resp := .data (readLocation s a) }

/-- `MemWrite(addr, n, v)` (20_memory.md R64): the update, a hazard while BUSY, or a bus error. -/
def hostWrite (a n : Nat) (v : Word) (s : State) : State :=
  if !legalAccess a n then busError s
  else if s.busy && hazardWrite s a v then { hazard a s with resp := .ack }
  else { writeLocation a v s with resp := .ack }

end Sys2Proof.Machine
end

