-- ==== Sys2Proof/Machine/Codec.lean ====
section
/-! DEFINITION. The codec functions on byte strings: the option shapes (42_optioncodec.md R160 to R181), the message
encoding (43_messagecodec.md R210 to R212), the message decoding (R220 to R225) and the built header and options
(44_builders.md R240, R241). They read no state. -/

namespace Sys2Proof.Machine

/-! ## Options -/

/-- `SUP` (00_scope.md R5). -/
def supportedCodes : List Byte := [1, 3, 6, 12, 50, 51, 53, 54, 55, 57, 58, 59, 61, 108, 255]

/-- `c in SUP`. -/
def supported (c : Byte) : Bool := supportedCodes.contains c

/-- The End option's code (42_optioncodec.md R176). -/
def endCode : Byte := 255

/-- `LENOK(c, L)` (42_optioncodec.md R160). -/
def lenOk (c : Byte) (n : Nat) : Bool :=
  if [50#8, 51#8, 54#8, 58#8, 59#8].contains c then n == 4
  else if c = 53#8 then n == 1
  else if c = 57#8 then n == 2
  else if [3#8, 6#8].contains c then n % 4 == 0
  else if c = 61#8 then decide (1 ≤ n)
  else true

/-- `decErr(c)` (42_optioncodec.md R161). -/
def decErr (c : Byte) : ErrCode :=
  if [3#8, 6#8].contains c then .decBadChunk
  else if c = 61#8 then .decBadClientId
  else .decBadFixedLen

/-- `enc(e)` (42_optioncodec.md R180). -/
def encEntry (e : Entry) : Except ErrCode (List Byte) :=
  if !supported e.code then .error .encBadCode
  else if e.code = endCode then .ok [endCode]
  else if !lenOk e.code e.payload.length then .error .encBadWidth
  else .ok e.image

/-- `decOpt(c, p)` (42_optioncodec.md R181). -/
def decOpt (c : Byte) (p : List Byte) : Except ErrCode Entry :=
  if !supported c then .error .decBadCode
  else if c = endCode then if p.length ≠ 0 then .error .decBadFixedLen else .ok ⟨c, []⟩
  else if !lenOk c p.length then .error (decErr c)
  else .ok ⟨c, p⟩

/-! ## Message encoding -/

/-- The encodings of a list in order, after `used` bytes: the first failing entry's code, or `ENC_OVERFLOW` where the
running length would pass `BUF_BYTES` (43_messagecodec.md R210). -/
def encEntries (used : Nat) : List Entry → Except ErrCode (List Byte)
  | [] => .ok []
  | e :: es =>
    match encEntry e with
    | .error k => .error k
    | .ok r =>
      if Config.bufBytes < used + r.length then .error .encOverflow
      else
        match encEntries (used + r.length) es with
        | .error k => .error k
        | .ok rest => .ok (r ++ rest)

/-- `pad300(s)` (43_messagecodec.md R212). -/
def pad300 (bs : List Byte) : List Byte := bs ++ zeros (300 - bs.length)

/-- The encoded message of a header image and an option list (43_messagecodec.md R210, R211). -/
def encMessage (hdr : List Byte) (l : List Entry) : Except ErrCode (List Byte) :=
  match encEntries hdr.length l with
  | .error k => .error k
  | .ok body => .ok (pad300 (hdr ++ body))

/-! ## Message decoding -/

/-- How the option loop ended well (43_messagecodec.md R223, R225): the list, why it stopped, the unsupported code and
the stop offset. -/
structure OptionScan where
  opts  : List Entry
  stat  : DStat
  ucode : Byte
  stop  : Nat
deriving DecidableEq, Repr

/-- How a decode failed (43_messagecodec.md R224): the code and the offset. -/
structure DecodeFailure where
  code : ErrCode
  stop : Nat
deriving DecidableEq, Repr

/-- The option loop (43_messagecodec.md R220, R223) over the bytes from offset `p` to the end of the datagram, with
`room = MAX_OPTS - |L|` entries free. -/
def scanOptions : Nat → Nat → List Byte → Except DecodeFailure OptionScan
  | _, p, [] => .ok ⟨[], .eob, 0, p⟩
  | room, p, c :: rest =>
    if c = endCode then
      if room = 0 then .error ⟨.decOptOverflow, p⟩ else .ok ⟨[⟨endCode, []⟩], .ended, 0, p⟩
    else if !supported c then .ok ⟨[], .unknown, c, p⟩
    else
      match rest with
      | [] => .error ⟨.decTruncLen, p⟩
      | len :: tail =>
        if !lenOk c len.toNat then .error ⟨decErr c, p⟩
        else if tail.length < len.toNat then .error ⟨.decTruncPayload, p⟩
        else
          match room with
          | 0 => .error ⟨.decOptOverflow, p⟩
          | room + 1 =>
            match scanOptions room (p + 2 + len.toNat) (tail.drop len.toNat) with
            | .error f => .error f
            | .ok r => .ok { r with opts := ⟨c, tail.take len.toNat⟩ :: r.opts }

/-- Decode a datagram (43_messagecodec.md R220 to R223): the header stage, the cookie check, the option loop. -/
def decodeMessage (maxOpts : Nat) (chkCookie : Bool) (bytes : List Byte) :
    Except DecodeFailure (List Byte × OptionScan) :=
  if bytes.length < hdrSize then .error ⟨.decShortHeader, 0⟩
  else if chkCookie && decide ((bytes.drop 236).take 4 ≠ cookie) then .error ⟨.decBadCookie, 236⟩
  else
    match scanOptions maxOpts hdrSize (bytes.drop hdrSize) with
    | .error f => .error f
    | .ok r => .ok (bytes.take hdrSize, r)

/-! ## Built messages -/

/-- `hdrBuild(xid, secs, ci, mac)` with the relay address (44_builders.md R240). -/
def hdrBuild (xid : Word) (secs : Half) (ci : List Byte) (mac : List Byte) (giaddr : Word) : List Byte :=
  [0x01, 0x01, 0x06, 0x00] ++ bytes32 xid ++ bytes16 secs ++ zeros 2 ++ ci ++ zeros 4 ++ zeros 4
    ++ bytes32 giaddr ++ (mac ++ zeros 10) ++ zeros 64 ++ zeros 128 ++ cookie

/-- `TYPE(t)` (44_builders.md R241). -/
def typeOpt (t : Byte) : Entry := ⟨53, [t]⟩

/-- `PRL`, the default parameter-request list (30_encoding.md R107). -/
def prlOpt : Entry := ⟨55, [0x01, 0x03, 0x06, 0x0F, 0x2E, 0x6C, 0x72, 0x77, 0x79, 0xFC]⟩

/-- `RIP(a)` (44_builders.md R241). -/
def ripOpt (a : List Byte) : Entry := ⟨50, a⟩

/-- `END` (44_builders.md R241). -/
def endOpt : Entry := ⟨endCode, []⟩

/-- The first entry with a code, as a list of at most one (44_builders.md R252). -/
def firstWith (c : Byte) (l : List Entry) : List Entry :=
  match l.find? fun e => e.code == c with
  | some e => [e]
  | none => []

end Sys2Proof.Machine
end

