-- ==== Sys2Proof/Machine/ByteCodec.lean ====
section
/-! DEFINITION. The ByteCodec family: XIDGEN, B2U16, B2U32, U16TB, U32TB (41_bytecodec.md R141 to R145). -/

namespace Sys2Proof.Machine

/-- The value B2U16 gives to a byte string (41_bytecodec.md R142): one byte is its own value. -/
def u16OfBytes : List Byte → Word
  | [] => 0
  | [b] => b.setWidth 32
  | b0 :: b1 :: _ => (be16 b0 b1).setWidth 32

/-- The value B2U32 gives to a byte string (41_bytecodec.md R143): fewer than four bytes give 0. -/
def u32OfBytes : List Byte → Word
  | b0 :: b1 :: b2 :: b3 :: _ => be32 b0 b1 b2 b3
  | _ => 0

/-- `TX[0..|bs|) <- bs; TXLEN <- |bs|`: the output of every command that writes TXBUF. -/
def State.emitTx (s : State) (bs : List Byte) : State :=
  { s.writeMem txBase bs with txlen := BitVec.ofNat 13 bs.length }

/-- XIDGEN after its checks (41_bytecodec.md R141): one draw of the entropy source. -/
def xidgenBody (s : State) : State := finish { s.drawn with xidr := Config.entropy s.draws }

/-- XIDGEN (41_bytecodec.md R141). -/
def execXidgen (s : State) : Host.Outcome State Fault Refusal := checked .xidgen s xidgenBody

/-- B2U16 after its checks (41_bytecodec.md R142). -/
def b2u16Body (s : State) : State := finish { s with bcval := u16OfBytes s.rxBytes }

/-- B2U16 (41_bytecodec.md R142). -/
def execB2u16 (s : State) : Host.Outcome State Fault Refusal := checked .b2u16 s b2u16Body

/-- B2U32 after its checks (41_bytecodec.md R143). -/
def b2u32Body (s : State) : State := finish { s with bcval := u32OfBytes s.rxBytes }

/-- B2U32 (41_bytecodec.md R143). -/
def execB2u32 (s : State) : Host.Outcome State Fault Refusal := checked .b2u32 s b2u32Body

/-- U16TB after its checks (41_bytecodec.md R144). -/
def u16tbBody (s : State) : State := finish (s.emitTx (bytes16 (s.bcval.extractLsb' 0 16)))

/-- U16TB (41_bytecodec.md R144). -/
def execU16tb (s : State) : Host.Outcome State Fault Refusal := checked .u16tb s u16tbBody

/-- U32TB after its checks (41_bytecodec.md R145). -/
def u32tbBody (s : State) : State := finish (s.emitTx (bytes32 s.bcval))

/-- U32TB (41_bytecodec.md R145). -/
def execU32tb (s : State) : Host.Outcome State Fault Refusal := checked .u32tb s u32tbBody

end Sys2Proof.Machine
end

