-- ==== Sys2Proof/Machine/OptionCodec.lean ====
section
/-! DEFINITION. The OptionCodec family: OPTENC and OPTDEC (42_optioncodec.md R185, R186). -/

namespace Sys2Proof.Machine

/-- A failed encode: `TXLEN <- 0; TX[0..4096) <- UNSPEC; fail(k)` (42_optioncodec.md R185, 43_messagecodec.md R210). -/
def encFail (k : ErrCode) (s : State) : State :=
  fail k { s.havocMem txBase Config.bufBytes with txlen := 0 }

/-- The end of an encode: its bytes to TXBUF, or its failure. -/
def emitOrFail (s : State) : Except ErrCode (List Byte) → State
  | .ok bs => finish (s.emitTx bs)
  | .error k => encFail k s

/-- OPTENC after its checks (42_optioncodec.md R185). -/
def optencBody (b : Bank) (idx : Nat) (s : State) : State := emitOrFail s (encEntry (readEntry s.mem b idx))

/-- OPTENC (42_optioncodec.md R185). -/
def execOptenc (b : Bank) (idx : Nat) (s : State) : Host.Outcome State Fault Refusal :=
  checked (.optenc b idx) s (optencBody b idx)

/-- Store a decoded entry: replace in place below the count, append at the count (42_optioncodec.md R186). -/
def placeEntry (b : Bank) (idx : Nat) (e : Entry) (s : State) : State :=
  let t := s.storeEntry b idx e
  if idx = s.cnt b then t.setCnt b (BitVec.ofNat 8 (s.cnt b + 1)) else t

/-- OPTDEC after its checks (42_optioncodec.md R186). -/
def optdecBody (b : Bank) (idx : Nat) (c : Byte) (s : State) : State :=
  if 255 < s.rxlen.toNat then fail .lenRange s
  else
    match decOpt c s.rxBytes with
    | .error k => fail k s
    | .ok e => finish (placeEntry b idx e s)

/-- OPTDEC (42_optioncodec.md R186). -/
def execOptdec (b : Bank) (idx : Nat) (c : Byte) (s : State) : Host.Outcome State Fault Refusal :=
  checked (.optdec b idx c) s (optdecBody b idx c)

end Sys2Proof.Machine
end

