-- ==== Sys2Proof/Machine/MessageCodec.lean ====
section
/-! DEFINITION. The MessageCodec family: MSGENC and MSGDEC (43_messagecodec.md R210, R220). -/

namespace Sys2Proof.Machine

/-- The end of MSGENC: the message to TXBUF, the bytes above it any value (93_implementation_defined.md U5; log 17), or
its failure. -/
def emitMessage (s : State) : Except ErrCode (List Byte) → State
  | .ok bs => finish ((s.havocMem txBase Config.bufBytes).emitTx bs)
  | .error k => encFail k s

/-- MSGENC after its checks (43_messagecodec.md R210). -/
def msgencBody (s : State) : State := emitMessage s (encMessage s.hdrBytes (s.bankList .bank0))

/-- MSGENC (43_messagecodec.md R210). -/
def execMsgenc (s : State) : Host.Outcome State Fault Refusal := checked .msgenc s msgencBody

/-- The writes a whole message makes, by MSGDEC and by every builder (43_messagecodec.md R227, 44_builders.md R242):
HDR, bank 0, `OPTCNT0`, `MTYPE`, `MVALID`. -/
def commitMessage (hdr : List Byte) (l : List Entry) (s : State) : State :=
  { (s.writeMem hdrBase hdr).storeBank0 l with
    optcnt0 := BitVec.ofNat 8 l.length
    mtype := mtypeOf l
    mvalid := true }

/-- `decfail(k, off)` (43_messagecodec.md R224): the message is discarded. -/
def decFail (f : DecodeFailure) (s : State) : State :=
  fail f.code
    { (s.havocMem hdrBase hdrSize).havocBank .bank0 with
      optcnt0 := 0
      mtype := ⟨0, false⟩
      mvalid := false
      dinfo := ⟨.failed, 0, BitVec.ofNat 13 f.stop⟩ }

/-- MSGDEC's success (43_messagecodec.md R227). -/
def decCommit (hdr : List Byte) (r : OptionScan) (s : State) : State :=
  finish { commitMessage hdr r.opts s with dinfo := ⟨r.stat, r.ucode, BitVec.ofNat 13 r.stop⟩ }

/-- MSGDEC after its checks (43_messagecodec.md R220). -/
def msgdecBody (s : State) : State :=
  match decodeMessage s.maxOpts s.chkCookie s.rxBytes with
  | .error f => decFail f s
  | .ok (hdr, r) => decCommit hdr r s

/-- MSGDEC (43_messagecodec.md R220). -/
def execMsgdec (s : State) : Host.Outcome State Fault Refusal := checked .msgdec s msgdecBody

end Sys2Proof.Machine
end

