-- ==== Sys2Proof/Machine/Builders.lean ====
section
/-! DEFINITION. The Builder family: BLDDISC, BLDREQ, BLDDECL, BLDREL (44_builders.md R240 to R257). -/

namespace Sys2Proof.Machine

/-- The end of a builder: `BLD_OVERFLOW` where the list would pass `MAX_OPTS` (44_builders.md R243), else the commit
(R242). -/
def build (hdr : List Byte) (l : List Entry) (s : State) : State :=
  if s.maxOpts < l.length then fail .bldOverflow s else finish (commitMessage hdr l s)

/-- The extra options `X`, copied verbatim (44_builders.md R244). -/
def State.extras (s : State) : List Entry := s.bankList .bank1

/-- The header of BLDDISC, BLDDECL and BLDREL: transaction ID, seconds and MAC from the registers. -/
def State.hdrFromRegs (s : State) (ci : List Byte) : List Byte := hdrBuild s.xidr s.pSecs ci s.macBytes s.pGiaddr

/-- BLDDISC's list (44_builders.md R245). -/
def discoverList (x : List Entry) : List Entry := [typeOpt 1, prlOpt] ++ x ++ [endOpt]

/-- BLDDISC after its checks (44_builders.md R245). -/
def blddiscBody (s : State) : State := build (s.hdrFromRegs (zeros 4)) (discoverList s.extras) s

/-- BLDDISC (44_builders.md R245). -/
def execBlddisc (s : State) : Host.Outcome State Fault Refusal := checked .blddisc s blddiscBody

/-- BLDREQ's header, from the offer held in HDR (44_builders.md R250). -/
def State.hdrFromOffer (s : State) : List Byte :=
  hdrBuild (be32 (s.hdrByte 4) (s.hdrByte 5) (s.hdrByte 6) (s.hdrByte 7))
    (be16 (s.hdrByte 8) (s.hdrByte 9) + 1) (zeros 4) (s.hdrSlice 28 6) s.pGiaddr

/-- BLDREQ's list: the offered address, the extra options, then the offer's first option 54 and first option 61
(44_builders.md R250, R252). -/
def requestList (yi : List Byte) (offer x : List Entry) : List Entry :=
  [typeOpt 3, prlOpt, ripOpt yi] ++ x ++ firstWith 54 offer ++ firstWith 61 offer ++ [endOpt]

/-- BLDREQ after its checks (44_builders.md R250, R251): the whole offer is read before anything is written (R253). -/
def bldreqBody (s : State) : State :=
  if !s.mvalid then fail .bldNoOffer s
  else build s.hdrFromOffer (requestList (s.hdrSlice 16 4) (s.bankList .bank0) s.extras) s

/-- BLDREQ (44_builders.md R250). -/
def execBldreq (s : State) : Host.Outcome State Fault Refusal := checked .bldreq s bldreqBody

/-- The list of BLDDECL and BLDREL: type `t` and the address in option 50 (44_builders.md R255, R256). -/
def addressList (t : Byte) (ip : Word) (x : List Entry) : List Entry :=
  [typeOpt t, prlOpt, ripOpt (bytes32 ip)] ++ x ++ [endOpt]

/-- BLDDECL after its checks (44_builders.md R255). -/
def blddeclBody (s : State) : State := build (s.hdrFromRegs (zeros 4)) (addressList 4 s.pTgtip s.extras) s

/-- BLDDECL (44_builders.md R255). -/
def execBlddecl (s : State) : Host.Outcome State Fault Refusal := checked .blddecl s blddeclBody

/-- BLDREL after its checks (44_builders.md R256): the client-IP field holds the released address too. -/
def bldrelBody (s : State) : State := build (s.hdrFromRegs (bytes32 s.pTgtip)) (addressList 7 s.pTgtip s.extras) s

/-- BLDREL (44_builders.md R256). -/
def execBldrel (s : State) : Host.Outcome State Fault Refusal := checked .bldrel s bldrelBody

end Sys2Proof.Machine
end

