-- ==== Sys2Proof/Machine/Dispatch.lean ====
section
/-! DEFINITION. The engine's execution of a decoded command: one meaning per row of the opcode table
(30_encoding.md R93). -/

namespace Sys2Proof.Machine

def exec (i : Instr) (s : State) : Host.Outcome State Fault Refusal :=
  match i with
  | .xidgen => Sys2Proof.Machine.execXidgen s
  | .b2u16 => Sys2Proof.Machine.execB2u16 s
  | .b2u32 => Sys2Proof.Machine.execB2u32 s
  | .u16tb => Sys2Proof.Machine.execU16tb s
  | .u32tb => Sys2Proof.Machine.execU32tb s
  | .optenc b idx => Sys2Proof.Machine.execOptenc b idx s
  | .optdec b idx c => Sys2Proof.Machine.execOptdec b idx c s
  | .msgenc => Sys2Proof.Machine.execMsgenc s
  | .msgdec => Sys2Proof.Machine.execMsgdec s
  | .blddisc => Sys2Proof.Machine.execBlddisc s
  | .bldreq => Sys2Proof.Machine.execBldreq s
  | .blddecl => Sys2Proof.Machine.execBlddecl s
  | .bldrel => Sys2Proof.Machine.execBldrel s

end Sys2Proof.Machine
end

