-- ==== Sys2Proof/Machine/Engine.lean ====
section
/-! DEFINITION. Who moves next: the engine's turn (70_reset_and_hazards.md R310) and the inputs from outside
(00_scope.md R7). -/

namespace Sys2Proof.Machine

/-! ## A command whose operands a forbidden write has reached (70_reset_and_hazards.md R312; log 7) -/

/-- A free MTYPE. -/
def freeMType (w : Word) : MType := ⟨w.extractLsb' 0 8, w.getLsbD 8⟩

/-- A free DINFO. -/
def freeDInfo (w : Word) : DInfo := ⟨DStat.ofFree (w.extractLsb' 0 3), w.extractLsb' 8 8, w.extractLsb' 16 13⟩

/-- Every TXBUF output is free. -/
def havocTx (s : State) : State :=
  { (s.havocMem txBase Config.bufBytes).drawn with txlen := s.freeWord.setWidth 13 }

/-- Every message output is free: HDR, bank 0, `OPTCNT0`, `MTYPE`, `MVALID`. -/
def havocMessage (s : State) : State :=
  let t := ((s.havocMem hdrBase hdrSize).havocBank .bank0)
  { t.drawn with
    optcnt0 := t.freeWord.extractLsb' 16 8
    mtype := freeMType t.freeWord
    mvalid := t.freeWord.getLsbD 24 }

/-- Every output of an OPTDEC is free: its entry, if there is one, and the count. -/
def havocEntry (b : Bank) (idx : Nat) (s : State) : State :=
  let t := if idx < s.maxOpts then s.havocMem (entryAddr b idx) entrySize else s
  (t.setCnt b (t.freeWord.setWidth 8)).drawn

/-- Every output a command could make (10_state.md R46) takes a free value. -/
def havocOutputs (i : Instr) (s : State) : State :=
  match i with
  | .xidgen => (storeReg .xidr s.freeWord s).drawn
  | .b2u16 => (storeReg .bcval s.freeWord s).drawn
  | .b2u32 => (storeReg .bcval s.freeWord s).drawn
  | .u16tb => havocTx s
  | .u32tb => havocTx s
  | .optenc _ _ => havocTx s
  | .optdec b idx _ => havocEntry b idx s
  | .msgenc => havocTx s
  | .msgdec => { (havocMessage s).drawn with dinfo := freeDInfo (havocMessage s).freeWord }
  | .blddisc => havocMessage s
  | .bldreq => havocMessage s
  | .blddecl => havocMessage s
  | .bldrel => havocMessage s

/-- The completion of a command in flight at a hazard: it completes (70_reset_and_hazards.md R310), and ERR, ERRCODE
and every other output are free. -/
def finishTainted (d : Except Illegal Instr) (s : State) : State :=
  let t := match d with
    | .error _ => s
    | .ok i => havocOutputs i s
  { (complete (ErrCode.ofFree (t.freeWord.setWidth 8)) t).drawn with err := t.freeWord.getLsbD 8 }

/-! ## Turns -/

/-- The engine runs the word in PEND (60_exceptions.md R272 check 1, 70_reset_and_hazards.md R310). -/
def runCommand (w : Word) (s : State) : Host.Outcome State Fault Refusal :=
  if s.taint then .next (finishTainted (decode w) s)
  else
    match decode w with
    | .error _ => .next (fail .illegalCmd s)
    | .ok i => exec i s

/-- The engine's turn: it runs the command in flight; an idle engine does nothing (60_exceptions.md R289). -/
def engineTurn (s : State) : Host.Outcome State Fault Refusal :=
  match s.pend with
  | none => .next s
  | some w => runCommand w s

/-- One input from outside, or a turn given to the engine (log 1). -/
def serve (x : Input) (s : State) : Host.Outcome State Fault Refusal :=
  match x with
  | .read a n => .next (hostRead a n s)
  | .write a n v => .next (hostWrite a n v s)
  | .reset => .next (resetBlock s)
  | .engine => engineTurn s

/-- One step of the machine: the first input of the list is served; with no input left the engine has its turn, so
that an accepted command completes (70_reset_and_hazards.md R310; log 1). -/
def takeTurn (s : State) : Host.Outcome State Fault Refusal :=
  match s.inbox with
  | [] => engineTurn s
  | x :: rest => serve x { s with inbox := rest }

/-- A command word placed as the command in flight, its engine turn next (log 11). -/
def launch (w : Word) (s : State) : State := { acceptCommand w s with taint := false, inbox := .engine :: s.inbox }

end Sys2Proof.Machine
end

