-- ==== Sys2Proof/Machine/Step.lean ====
section
/-! DEFINITION. One step of the machine, and how the host places a command for the next step. -/

namespace Sys2Proof.Machine

/-- One step: one input served, or one turn of the engine (70_reset_and_hazards.md R310). -/
def step (s : State) : Host.Outcome State Fault Refusal := takeTurn s

/-- The command word `w` (of `nbits` bits, the bits above zero) accepted as the command in flight, so that the very
next step runs it (10_state.md R21: "which command is latched"; log 11). -/
def State.withFetchWord (s : State) (nbits w : Nat) : State := launch (BitVec.ofNat 32 (w % 2 ^ nbits)) s

end Sys2Proof.Machine
end

