-- ==== Sys2Proof/Machine/HostAsm.lean ====
section
/-! DEFINITION. The host assembly of 30_encoding.md R130 to R132, each line as the bus accesses it stands for. The
loops of `wait` and `copytx` are host program text (R132): `wait` is given as the turn of the engine that ends it and
one poll that reads BUSY = 0, `copytx` as the accesses it makes on the bytes it reads. -/

namespace Sys2Proof.Machine

/-- `wr32 A, V`. -/
def asmWr32 (a : Nat) (v : Word) : Input := .write a 4 v

/-- `rd32 A`. -/
def asmRd32 (a : Nat) : Input := .read a 4

/-- `wr8 A, B`. -/
def asmWr8 (a : Nat) (b : Byte) : Input := .write a 1 (b.setWidth 32)

/-- `rd8 A`. -/
def asmRd8 (a : Nat) : Input := .read a 1

/-- `cmd MNEM …` (30_encoding.md R131). -/
def asmCmd (i : Instr) : Input := asmWr32 Reg.cmd.offset (encode i)

/-- `wait`: the engine's turn, then a poll of STATUS. -/
def asmWait : List Input := [.engine, asmRd32 Reg.status.offset]

/-- `exec MNEM …`. -/
def asmExec (i : Instr) : List Input := asmCmd i :: asmWait

/-- `wr8` of successive bytes. -/
def asmBytes : Nat → List Byte → List Input
  | _, [] => []
  | a, b :: bs => asmWr8 a b :: asmBytes (a + 1) bs

/-- `loadrx b0 b1 …`. -/
def asmLoadRx (bs : List Byte) : List Input :=
  asmBytes rxBase bs ++ [asmWr32 Reg.rxlen.offset (BitVec.ofNat 32 bs.length)]

/-- `setopt B, I, C, d0 …`. -/
def asmSetOpt (b : Bank) (i : Nat) (e : Entry) : List Input := asmBytes (entryAddr b i) e.image

/-- `setmac m0:m1:m2:m3:m4:m5`. -/
def asmSetMac (m0 m1 m2 m3 m4 m5 : Byte) : List Input :=
  [asmWr32 Reg.pMac0.offset (be32 m0 m1 m2 m3), asmWr32 Reg.pMac1.offset (be32 0 0 m4 m5)]

/-- `setip R, a.b.c.d` (10_state.md R39). -/
def asmSetIp (r : Reg) (a b c d : Byte) : Input := asmWr32 r.offset (be32 a b c d)

/-- `copytx`, for a host that reads the bytes `bs` of TXBUF from address offset `k` on. -/
def asmCopyBytes : Nat → List Byte → List Input
  | _, [] => []
  | k, b :: bs => asmRd8 (txBase + k) :: asmWr8 (rxBase + k) b :: asmCopyBytes (k + 1) bs

/-- `copytx` in a state whose TXBUF it copies. -/
def asmCopyTx (s : State) : List Input :=
  asmCopyBytes 0 (s.mem.readN txBase s.txlen.toNat) ++ [asmWr32 Reg.rxlen.offset (s.txlen.setWidth 32)]

/-- `ack`: clears DONE (60_exceptions.md R281). -/
def asmAck : Input := asmWr32 Reg.status.offset 0x2

end Sys2Proof.Machine
end

