-- ==== Sys2Proof/Machine/Views.lean ====
section
/-! DEFINITION. The typed views of what the block stores: the header's fields (10_state.md R40), the option payloads
(42_optioncodec.md R162 to R176) and the message types (30_encoding.md R111). They are readings of bytes, not state. -/

namespace Sys2Proof.Machine

/-- The names of 30_encoding.md R111. -/
inductive MessageType where
  | discover
  | offer
  | request
  | decline
  | ack
  | nak
  | release
  | unknown
deriving DecidableEq, Repr

/-- The name of a message-type byte; 0 and 8 to 255 are Unknown (30_encoding.md R111). -/
def messageTypeOf (b : Byte) : MessageType :=
  if b = 1 then .discover
  else if b = 2 then .offer
  else if b = 3 then .request
  else if b = 4 then .decline
  else if b = 5 then .ack
  else if b = 6 then .nak
  else if b = 7 then .release
  else .unknown

/-- The fields of a header image (10_state.md R40). -/
structure HeaderView where
  op     : Byte
  htype  : Byte
  hlen   : Byte
  hops   : Byte
  xid    : Word
  secs   : Half
  flags  : Half
  ciaddr : Word
  yiaddr : Word
  siaddr : Word
  giaddr : Word
  chaddr : List Byte
  sname  : List Byte
  file   : List Byte
  cookie : List Byte
deriving DecidableEq, Repr

/-- Byte `i` of a byte string, for an index below its length. -/
def byteAt (h : List Byte) (i : Nat) : Byte := h.getD i 0

/-- `be32(h[i..i+4))`. -/
def wordAt (h : List Byte) (i : Nat) : Word := be32 (byteAt h i) (byteAt h (i + 1)) (byteAt h (i + 2)) (byteAt h (i + 3))

/-- `be16(h[i..i+2))`. -/
def halfAt (h : List Byte) (i : Nat) : Half := be16 (byteAt h i) (byteAt h (i + 1))

/-- The value views of a 240-byte header image (10_state.md R40); an address field is the integer of R39. -/
def headerView (h : List Byte) : HeaderView where
  op := byteAt h 0
  htype := byteAt h 1
  hlen := byteAt h 2
  hops := byteAt h 3
  xid := wordAt h 4
  secs := halfAt h 8
  flags := halfAt h 10
  ciaddr := wordAt h 12
  yiaddr := wordAt h 16
  siaddr := wordAt h 20
  giaddr := wordAt h 24
  chaddr := (h.drop 28).take 16
  sname := (h.drop 44).take 64
  file := (h.drop 108).take 128
  cookie := (h.drop 236).take 4

/-- What an option's payload means (42_optioncodec.md R162 to R176). `raw` is a payload to which the spec gives no
typed value: an unsupported code, or a length the code does not allow. -/
inductive OptionView where
  | subnetMask (mask : Word)
  | routers (addrs : List Word)
  | dnsServers (addrs : List Word)
  | hostName (chars : List Byte)
  | requestedIp (addr : Word)
  | leaseTime (seconds : Word)
  | messageType (t : MessageType)
  | serverId (addr : Word)
  | paramRequest (codes : List Byte)
  | maxSize (size : Half)
  | renewal (seconds : Word)
  | rebinding (seconds : Word)
  | clientId (hwtype : Byte) (ident : List Byte)
  | ipv6Only (seconds : Word)
  | endMark
  | raw (bytes : List Byte)
deriving DecidableEq, Repr

/-- A payload cut into 4-byte addresses, first element first (42_optioncodec.md R163). -/
def addressesOf : List Byte → List Word
  | a :: b :: c :: d :: rest => be32 a b c d :: addressesOf rest
  | _ => []

/-- The typed view of a stored option (42_optioncodec.md R162 to R176). Option 1 has a mask only at length 4, option
108 reads 0 below four bytes (R162, R175). -/
def optionView (e : Entry) : OptionView :=
  let d := e.payload
  if e.code = endCode then .endMark
  else if !supported e.code || !lenOk e.code d.length then .raw d
  else if e.code = 1 then if d.length = 4 then .subnetMask (wordAt d 0) else .raw d
  else if e.code = 3 then .routers (addressesOf d)
  else if e.code = 6 then .dnsServers (addressesOf d)
  else if e.code = 12 then .hostName d
  else if e.code = 50 then .requestedIp (wordAt d 0)
  else if e.code = 51 then .leaseTime (wordAt d 0)
  else if e.code = 53 then .messageType (messageTypeOf (byteAt d 0))
  else if e.code = 54 then .serverId (wordAt d 0)
  else if e.code = 55 then .paramRequest d
  else if e.code = 57 then .maxSize (halfAt d 0)
  else if e.code = 58 then .renewal (wordAt d 0)
  else if e.code = 59 then .rebinding (wordAt d 0)
  else if e.code = 61 then .clientId (byteAt d 0) (d.drop 1)
  else if e.code = 108 then .ipv6Only (if 4 ≤ d.length then wordAt d 0 else 0)
  else .raw d

/-- The name of the cached message type, if the message has an option 53 (10_state.md R35). -/
def State.messageType (s : State) : Option MessageType :=
  if s.mtype.present then some (messageTypeOf s.mtype.val) else none

/-- The header view of the held message. -/
def State.header (s : State) : HeaderView := headerView s.hdrBytes

end Sys2Proof.Machine
end

