-- ==== Sys2Proof/Safety.lean ====
section
/-! DEFINITION. The terms in which claims about the machine are made: how a command ended, what it left unchanged, the
wire form of an option list, and the invariant every step keeps. -/

namespace Sys2Proof.Machine

/-- The outcome is a next state with a property. -/
def Answers (o : Host.Outcome State Fault Refusal) (P : State → Prop) : Prop := ∃ t, o = .next t ∧ P t

/-- No fault is marked: the premise the spec asks of every claim about a host program (60_exceptions.md R285). -/
def FaultFree (s : State) : Prop := s.faults = ⟨false, false⟩

/-- A state in which a host program may end: every input served, nothing in flight, and no fault marked, since a state
with a mark "is never a final state" (60_exceptions.md R285). -/
def Final (s : State) : Prop := s.inbox = [] ∧ s.pend = none ∧ FaultFree s

/-- The parameter is in its range (00_scope.md R6). -/
def ParamOk (s : State) : Prop := 1 ≤ s.maxOpts ∧ s.maxOpts ≤ 64

/-- The next step is the engine's (log 1). -/
def EngineTurn (s : State) : Prop := s.inbox = [] ∨ s.inbox.head? = some .engine

/-- The state a step works on: its input taken off the list. -/
def State.popped (s : State) : State := { s with inbox := s.inbox.tail }

/-- The command completed with code `k` (60_exceptions.md R271); CMDOVR is not written. -/
def Ended (k : ErrCode) (s t : State) : Prop :=
  t.pend = none ∧ t.done = true ∧ t.err = decide (k ≠ .none) ∧ t.errcode = k ∧ t.cmdovr = s.cmdovr

/-- Every register but those named reads as before. -/
def KeepsRegs (except : List Reg) (s t : State) : Prop := ∀ r, r ∉ except → readReg t r = readReg s r

/-- Every byte outside the stored ones reads as before. -/
def KeepsBytes (stored : Nat → Bool) (s t : State) : Prop := ∀ a, stored a = false → t.mem.read a = s.mem.read a

/-- The parameter, the fault marks and the model's view of the outside are as before. -/
def KeepsModel (s t : State) : Prop :=
  t.maxOpts = s.maxOpts ∧ t.faults = s.faults ∧ t.inbox = s.inbox ∧ t.resp = s.resp

/-- A command that completed with code `k`, and its frame: it wrote STATUS, the registers named and the stored bytes,
and nothing else. What it did to MVALID is said beside it. -/
def Frame (k : ErrCode) (regs : List Reg) (stored : Nat → Bool) (s t : State) : Prop :=
  Ended k s t ∧ KeepsRegs (.status :: regs) s t ∧ KeepsBytes stored s t ∧ KeepsModel s t

/-- No byte is stored. -/
def noBytes : Nat → Bool := fun _ => false

/-- The bytes MSGDEC and the builders store: HDR and bank 0. -/
def messageBytes (maxOpts : Nat) : Nat → Bool := fun a => inRange hdrBase hdrSize a || inBank maxOpts .bank0 a

/-- The command failed with `k` and changed nothing but STATUS (60_exceptions.md R273). -/
def FailsOnly (k : ErrCode) (i : Instr) (s : State) : Prop :=
  Answers (exec i s) fun t => Frame k [] noBytes s t ∧ t.mvalid = s.mvalid

/-- What decoding reads from the word for a command's operands (30_encoding.md R91). -/
def OperandsRead (w : Word) : Instr → Prop
  | .xidgen => True
  | .b2u16 => True
  | .b2u32 => True
  | .u16tb => True
  | .u32tb => True
  | .optenc b idx => bankBit b = w.extractLsb' 24 1 ∧ idx = (w.extractLsb' 16 8).toNat
  | .optdec b idx c => bankBit b = w.extractLsb' 24 1 ∧ idx = (w.extractLsb' 16 8).toNat ∧ c = w.extractLsb' 8 8
  | .msgenc => True
  | .msgdec => True
  | .blddisc => True
  | .bldreq => True
  | .blddecl => True
  | .bldrel => True

/-! ## The wire form -/

/-- An option on the wire (30_encoding.md R104): code, length, payload; End is the one byte FF. -/
def wire (e : Entry) : List Byte := if e.code = endCode then [endCode] else e.image

/-- A list of options on the wire. -/
def wireList (l : List Entry) : List Byte := l.flatMap wire

/-- The fifteen codes of 00_scope.md R5, written out for claims. -/
def listed (c : Byte) : Bool := decide (c ∈ ([1, 3, 6, 12, 50, 51, 53, 54, 55, 57, 58, 59, 61, 108, 255] : List Byte))

/-- The table of 42_optioncodec.md R160 for the codes other than End, row by row, written out for claims: code `c` may
have a payload of `n` bytes. -/
def lengthTable (c : Byte) (n : Nat) : Bool :=
  decide ((c = 50 ∨ c = 51 ∨ c = 54 ∨ c = 58 ∨ c = 59) ∧ n = 4 ∨ c = 53 ∧ n = 1 ∨ c = 57 ∧ n = 2
    ∨ (c = 3 ∨ c = 6) ∧ n % 4 = 0 ∨ c = 61 ∧ 1 ≤ n ∨ (c = 1 ∨ c = 12 ∨ c = 55 ∨ c = 108))

/-- An entry the encoder accepts (42_optioncodec.md R160, R180): an End entry, or one the table allows. -/
def encodable (e : Entry) : Bool := e.code == 255 || lengthTable e.code e.payload.length

/-- A non-End entry that both the encoder and the decoder accept (42_optioncodec.md R160). -/
def wellShaped (e : Entry) : Bool := lengthTable e.code e.payload.length && decide (e.payload.length ≤ 255)

/-- The header of a built message, row by row of 44_builders.md R240. -/
def BuiltHeader (t : State) (xid : Word) (secs : Half) (ci mac : List Byte) (gi : Word) : Prop :=
  t.hdrSlice 0 4 = [1, 1, 6, 0] ∧ t.hdrSlice 4 4 = bytes32 xid ∧ t.hdrSlice 8 2 = bytes16 secs
    ∧ t.hdrSlice 10 2 = zeros 2 ∧ t.hdrSlice 12 4 = ci ∧ t.hdrSlice 16 4 = zeros 4 ∧ t.hdrSlice 20 4 = zeros 4
    ∧ t.hdrSlice 24 4 = bytes32 gi ∧ t.hdrSlice 28 16 = mac ++ zeros 10 ∧ t.hdrSlice 44 64 = zeros 64
    ∧ t.hdrSlice 108 128 = zeros 128 ∧ t.hdrSlice 236 4 = [0x63, 0x82, 0x53, 0x63]

/-- A builder committed the list `l` (44_builders.md R242): bank 0, the count, MTYPE, MVALID, and the frame. -/
def BuiltList (s t : State) (l : List Entry) : Prop :=
  t.bankList .bank0 = l ∧ t.optcnt0.toNat = l.length ∧ t.mtype = mtypeOf l ∧ t.mvalid = true
    ∧ Frame .none [.optcnt0, .mtype] (messageBytes s.maxOpts) s t

/-- MSGDEC's success (43_messagecodec.md R227). -/
def DecodedAs (s t : State) (hdr : List Byte) (l : List Entry) (stat : DStat) (ucode : Byte) (stop : Nat) : Prop :=
  t.hdrBytes = hdr ∧ t.bankList .bank0 = l ∧ t.optcnt0.toNat = l.length ∧ t.mtype = mtypeOf l ∧ t.mvalid = true
    ∧ t.dinfo.dstat = stat ∧ t.dinfo.ucode = ucode ∧ t.dinfo.doff.toNat = stop
    ∧ Frame .none [.optcnt0, .mtype, .dinfo] (messageBytes s.maxOpts) s t

/-- MSGDEC's failure (43_messagecodec.md R224): the message is discarded. -/
def DiscardedAs (s t : State) (k : ErrCode) (stop : Nat) : Prop :=
  t.optcnt0 = 0 ∧ t.mtype = ⟨0, false⟩ ∧ t.mvalid = false ∧ t.dinfo.dstat = .failed ∧ t.dinfo.ucode = 0
    ∧ t.dinfo.doff.toNat = stop ∧ Frame k [.optcnt0, .mtype, .dinfo] (messageBytes s.maxOpts) s t

/-- An encode that failed (42_optioncodec.md R185, 43_messagecodec.md R210): `TXLEN = 0`, TXBUF UNSPEC, nothing else. -/
def EncodeFailed (k : ErrCode) (s t : State) : Prop :=
  t.txlen = 0 ∧ t.mvalid = s.mvalid ∧ Frame k [.txlen] (inRange txBase Config.bufBytes) s t

/-- A message encode that gave the bytes `bs` (43_messagecodec.md R210). TXBUF above them holds any value, as
93_implementation_defined.md U5 says; R210 calls it unchanged (log 17). -/
def EncodedMessage (bs : List Byte) (s t : State) : Prop :=
  t.mem.readN txBase bs.length = bs ∧ t.txlen.toNat = bs.length ∧ t.mvalid = s.mvalid
    ∧ Frame .none [.txlen] (inRange txBase Config.bufBytes) s t
    ∧ ∀ a, txBase + bs.length ≤ a → a < txBase + Config.bufBytes → t.mem.read a = Config.unspecByte s.draws a

/-- An option encode that gave the bytes `bs` (42_optioncodec.md R185): TXBUF above them is unchanged. -/
def Encoded (bs : List Byte) (s t : State) : Prop :=
  t.mem.readN txBase bs.length = bs ∧ t.txlen.toNat = bs.length ∧ t.mvalid = s.mvalid
    ∧ Frame .none [.txlen] (inRange txBase bs.length) s t

/-! ## What each command may write (10_state.md R46) -/

/-- The registers a command writes beside STATUS. -/
def outputRegs : Instr → List Reg
  | .xidgen => [.xidr]
  | .b2u16 => [.bcval]
  | .b2u32 => [.bcval]
  | .u16tb => [.txlen]
  | .u32tb => [.txlen]
  | .optenc _ _ => [.txlen]
  | .optdec .bank0 _ _ => [.optcnt0]
  | .optdec .bank1 _ _ => [.optcnt1]
  | .msgenc => [.txlen]
  | .msgdec => [.optcnt0, .mtype, .dinfo]
  | .blddisc => [.optcnt0, .mtype]
  | .bldreq => [.optcnt0, .mtype]
  | .blddecl => [.optcnt0, .mtype]
  | .bldrel => [.optcnt0, .mtype]

/-- The bytes a command stores to. -/
def outputBytes (maxOpts : Nat) : Instr → Nat → Bool
  | .xidgen => noBytes
  | .b2u16 => noBytes
  | .b2u32 => noBytes
  | .u16tb => inRange txBase 2
  | .u32tb => inRange txBase 4
  | .optenc _ _ => inRange txBase Config.bufBytes
  | .optdec b idx _ => inRange (entryAddr b idx) entrySize
  | .msgenc => inRange txBase Config.bufBytes
  | .msgdec => messageBytes maxOpts
  | .blddisc => messageBytes maxOpts
  | .bldreq => messageBytes maxOpts
  | .blddecl => messageBytes maxOpts
  | .bldrel => messageBytes maxOpts

/-- The commands that may write MVALID (10_state.md R44). -/
def writesMvalid : Instr → Bool
  | .xidgen => false
  | .b2u16 => false
  | .b2u32 => false
  | .u16tb => false
  | .u32tb => false
  | .optenc _ _ => false
  | .optdec _ _ _ => false
  | .msgenc => false
  | .msgdec => true
  | .blddisc => true
  | .bldreq => true
  | .blddecl => true
  | .bldrel => true

/-! ## What a hazard frees (70_reset_and_hazards.md R312; log 7) -/

/-- The bytes of a range are free, all by one draw that is not older than `d`. -/
def FreedBytes (d : Nat) (stored : Nat → Bool) (t : State) : Prop :=
  ∃ n, d ≤ n ∧ ∀ a, stored a = true → t.mem.read a = Config.unspecByte n a

/-- A value is a free word's reading, by a draw that is not older than `d`. -/
def Freed {α : Type} (d : Nat) (value : α) (reading : Word → α) : Prop :=
  ∃ n, d ≤ n ∧ value = reading (Config.unspecWord n)

/-- TXBUF and TXLEN are free. -/
def FreedTx (d : Nat) (t : State) : Prop :=
  FreedBytes d (inRange txBase Config.bufBytes) t ∧ Freed d t.txlen (·.setWidth 13)

/-- HDR, bank 0, the count, MTYPE and MVALID are free. -/
def FreedMessage (d : Nat) (t : State) : Prop :=
  FreedBytes d (inRange hdrBase hdrSize) t ∧ FreedBytes d (inBank t.maxOpts .bank0) t
    ∧ Freed d t.optcnt0 (·.extractLsb' 16 8) ∧ Freed d t.mtype freeMType ∧ Freed d t.mvalid (·.getLsbD 24)

/-- Every output a command has in 10_state.md R46 is free. Which bits of a free word a field takes is the model's
(log 7). -/
def FreedOutputs (d : Nat) (i : Instr) (t : State) : Prop :=
  match i with
  | .xidgen => Freed d t.xidr id
  | .b2u16 => Freed d t.bcval id
  | .b2u32 => Freed d t.bcval id
  | .u16tb => FreedTx d t
  | .u32tb => FreedTx d t
  | .optenc _ _ => FreedTx d t
  | .optdec b idx _ =>
    (idx < t.maxOpts → FreedBytes d (inRange (entryAddr b idx) entrySize) t) ∧ Freed d (t.cnt b) fun w => (w.setWidth 8).toNat
  | .msgenc => FreedTx d t
  | .msgdec => FreedMessage d t ∧ Freed d t.dinfo freeDInfo
  | .blddisc => FreedMessage d t
  | .bldreq => FreedMessage d t
  | .blddecl => FreedMessage d t
  | .bldrel => FreedMessage d t

/-! ## The invariant -/

/-- What every step keeps. The parameter is in range; storage is canonical and lists only addresses that exist;
free values are drawn once; BUSY excludes DONE (60_exceptions.md R282); CMD shows the word in flight (10_state.md R25);
and, unless a hazard was marked, ERR is whether there is a code, TXLEN and DOFF stay within the buffer, an absent
message type reads 0 and UCODE is 0 but for an unsupported code (10_state.md R24, R27, R35, R36). -/
structure Inv (s : State) : Prop where
  param  : ParamOk s
  memWf  : s.mem.wf
  stored : ∀ c ∈ s.mem.cells, isStorage s.maxOpts c.1 = true
  fresh  : ∀ r ∈ s.mem.unspec, r.draw < s.draws
  busy   : s.pend ≠ none → s.done = false
  latch  : ∀ w, s.pend = some w → s.cmd = w
  taint  : s.taint = true → s.faults.hostHazard = true
  err    : s.faults.hostHazard = false → s.err = decide (s.errcode ≠ .none)
  txlen  : s.faults.hostHazard = false → s.txlen.toNat ≤ Config.bufBytes
  doff   : s.faults.hostHazard = false → s.dinfo.doff.toNat ≤ Config.bufBytes
  mtype  : s.faults.hostHazard = false → s.mtype.present = false → s.mtype.val = 0
  ucode  : s.faults.hostHazard = false → s.dinfo.dstat ≠ .unknown → s.dinfo.ucode = 0

end Sys2Proof.Machine
end

