-- ==== Sys2Proof/Certificates/Slice0/Obligations.lean ====
section
/-! DEFINITION. The statements for the provers: what the numbered rules of spec/ say the block does. -/

open Sys2Proof
open Sys2Proof.Machine

/-! ## The command word -/

/-- 30_encoding.md R90 to R93, R131: no bit of an encoding is dropped. -/
def Obligations.DecodeOfEncodeIsIdentity : Prop :=
  ∀ i : Instr, i.wellFormed = true → decode (encode i) = .ok i

/-- 30_encoding.md R92, R95: a legal word is the word of the one command it decodes to. -/
def Obligations.EncodeOfDecodeIsIdentity : Prop :=
  ∀ (w : Word) (i : Instr), decode w = .ok i → encode i = w ∧ i.wellFormed = true

/-- 30_encoding.md R95: decoding is by the row with `w & mask = match`; at most one matches; with none the word is
illegal; the operands are the word's fields. -/
def Obligations.DecodeFollowsOpcodeTable : Prop :=
  (∀ (w : Word) (i : Instr), decode w = .ok i ↔ (w &&& rowMask i = rowMatch i ∧ OperandsRead w i))
  ∧ (∀ (w : Word) (i j : Instr), w &&& rowMask i = rowMatch i → w &&& rowMask j = rowMatch j → rowMatch i = rowMatch j)
  ∧ ∀ w : Word, (∀ i : Instr, w &&& rowMask i ≠ rowMatch i) → ∃ e, decode w = .error e

/-- Words written out from 30_encoding.md R93 and R131, and words R94 calls illegal. The name each illegal word is
refused by is the model's choice (log 18): the rule has one code for all. -/
def Obligations.SampleWordsDecode : Prop :=
  decode 0b00000000000000000000000000000001#32 = .ok .xidgen
  ∧ decode 0b00000000000000110011001000010001#32 = .ok (.optdec .bank0 3 50)
  ∧ decode 0b00000001000000000011001000010001#32 = .ok (.optdec .bank1 0 50)
  ∧ decode 0b00000001111111110000000000010000#32 = .ok (.optenc .bank1 255)
  ∧ decode 0b00000000000000000000000000100001#32 = .ok .msgdec
  ∧ decode 0b00000000000000000000000000110011#32 = .ok .bldrel
  ∧ decode 0b00000000000000000000000100010000#32 = .error .unusedField
  ∧ decode 0b00000010000000000000000000010000#32 = .error .reservedBits
  ∧ decode 0b00000000000000000000000000000110#32 = .error .unknownOpcode

/-! ## The command's life -/

/-- 70_reset_and_hazards.md R310: the engine's turn runs the command that the latched word decodes to. -/
def Obligations.StepRunsLatchedCommand : Prop :=
  ∀ (s : State) (w : Word) (i : Instr), EngineTurn s → s.pend = some w → s.taint = false → decode w = .ok i →
    step s = exec i s.popped

/-- 30_encoding.md R94: a word that matches no row completes at once with `ILLEGAL_CMD` and changes no state but
STATUS. -/
def Obligations.IllegalWordCompletesWithIllegalCmd : Prop :=
  ∀ (s : State) (w : Word), EngineTurn s → s.pend = some w → s.taint = false →
    (∀ i : Instr, w &&& rowMask i ≠ rowMatch i) →
    Answers (step s) fun t => Frame .illegalCmd [] noBytes s.popped t ∧ t.mvalid = s.mvalid

/-- 60_exceptions.md R289, 70_reset_and_hazards.md R304: an idle engine does nothing. -/
def Obligations.IdleEngineDoesNothing : Prop :=
  ∀ s : State, s.pend = none → EngineTurn s → step s = .next s.popped

/-- 70_reset_and_hazards.md R310: a CMD write while idle latches the word, sets BUSY and clears DONE; ERR, ERRCODE,
CMDOVR and MVALID are unchanged, and nothing else is written. -/
def Obligations.CmdWriteIsAcceptedWhileIdle : Prop :=
  ∀ (s : State) (v : Word) (rest : List Input), s.inbox = .write 0x00C 4 v :: rest → s.pend = none →
    Answers (step s) fun t =>
      t.pend = some v ∧ t.cmd = v ∧ t.done = false ∧ t.err = s.err ∧ t.errcode = s.errcode ∧ t.cmdovr = s.cmdovr
        ∧ t.mvalid = s.mvalid ∧ (readReg t .status).getLsbD 0 = true
        ∧ KeepsRegs [.status, .cmd] s t ∧ KeepsBytes noBytes s t ∧ t.faults = s.faults ∧ t.maxOpts = s.maxOpts
        ∧ t.inbox = rest

/-- An input that clears CMDOVR: a STATUS write with bit 3, a reset, a soft reset (70_reset_and_hazards.md R311). -/
def Sys2Proof.clearsCmdOvr (x : Input) : Prop :=
  x = .reset ∨ (∃ v : Word, x = .write 0x008 4 v ∧ v.getLsbD 3 = true)
    ∨ ∃ v : Word, x = .write 0x004 4 v ∧ v.getLsbD 1 = true

/-- An input that resets the block: the reset input, a soft reset (70_reset_and_hazards.md R300, R301). -/
def Sys2Proof.resetsBlock (x : Input) : Prop := x = .reset ∨ ∃ v : Word, x = .write 0x004 4 v ∧ v.getLsbD 1 = true

/-- 70_reset_and_hazards.md R311: a CMD write while BUSY is dropped and sets CMDOVR, which stays until it is cleared;
it is no fault. -/
def Obligations.CmdWriteWhileBusyIsDropped : Prop :=
  (∀ (s : State) (v w : Word) (rest : List Input), s.inbox = .write 0x00C 4 v :: rest → s.pend = some w →
    Answers (step s) fun t =>
      t.pend = some w ∧ t.cmd = s.cmd ∧ t.cmdovr = true ∧ t.done = s.done ∧ t.err = s.err ∧ t.errcode = s.errcode
        ∧ t.mvalid = s.mvalid ∧ KeepsRegs [.status] s t ∧ KeepsBytes noBytes s t ∧ t.faults = s.faults
        ∧ t.maxOpts = s.maxOpts ∧ t.inbox = rest)
  ∧ ∀ s t : State, s.cmdovr = true → step s = .next t → (∀ x, s.inbox.head? = some x → ¬ clearsCmdOvr x) →
      t.cmdovr = true

/-- 70_reset_and_hazards.md R302, R310 (fairness), as the finite input list gives it (log 1). One step more than there
are inputs ends a host program: every input is served and nothing is in flight. With no fault marked at that end, the
premise of 60_exceptions.md R285, a command in flight has met a step that took it out of flight; and where no reset was
served up to that step, the step set DONE and CMD shows the command still. -/
def Obligations.EveryAcceptedCommandCompletes : Prop :=
  (∀ s : State, ∃ f : State, core.run (s.inbox.length + 1) s = .next f ∧ (FaultFree f → Final f))
  ∧ ∀ (s f : State) (w : Word), s.pend = some w → core.run (s.inbox.length + 1) s = .next f → FaultFree f →
      ∃ (k : Nat) (u t : State), k ≤ s.inbox.length ∧ core.run k s = .next u ∧ u.pend = some w ∧ step u = .next t
        ∧ t.pend = none ∧ ((∀ x ∈ s.inbox.take (k + 1), ¬ resetsBlock x) → t.done = true ∧ t.cmd = s.cmd)

/-- 60_exceptions.md R272: checks 2 to 4 in their order; the first that fails ends the command with its code and
changes nothing but STATUS (check 1 is `IllegalWordCompletesWithIllegalCmd`'s). -/
def Obligations.CommonChecksInOrder : Prop :=
  ∀ s : State,
    (4096 < s.rxlen.toNat →
      FailsOnly .lenRange .b2u16 s ∧ FailsOnly .lenRange .b2u32 s ∧ FailsOnly .lenRange .msgdec s
        ∧ ∀ b idx c, FailsOnly .lenRange (.optdec b idx c) s)
    ∧ (∀ b, s.maxOpts < s.cnt b →
        (∀ idx, FailsOnly .cntRange (.optenc b idx) s)
          ∧ (s.rxlen.toNat ≤ 4096 → ∀ idx c, FailsOnly .cntRange (.optdec b idx c) s)
          ∧ FailsOnly .cntRange .bldreq s)
    ∧ (s.maxOpts < s.cnt .bank0 → FailsOnly .cntRange .msgenc s)
    ∧ (s.maxOpts < s.cnt .bank1 →
        FailsOnly .cntRange .blddisc s ∧ FailsOnly .cntRange .blddecl s ∧ FailsOnly .cntRange .bldrel s)
    ∧ ∀ b, s.cnt b ≤ s.maxOpts →
        (∀ idx, s.cnt b ≤ idx → FailsOnly .idxRange (.optenc b idx) s)
          ∧ (s.rxlen.toNat ≤ 4096 → ∀ idx c, s.cnt b < idx ∨ s.maxOpts ≤ idx →
              FailsOnly .idxRange (.optdec b idx c) s)

/-- 60_exceptions.md R271, R273: every command completes, with one code, and raises no trap; CMDOVR, the marks and the
parameter are not written. -/
def Obligations.EveryCommandCompletes : Prop :=
  ∀ (i : Instr) (s : State), Answers (exec i s) fun t => Ended t.errcode s t ∧ KeepsModel s t

/-- No condition stops the machine. For commands it is 60_exceptions.md R273; that it holds of a step which marks a
fault, and of every step after one, is the model's choice (log 6, log 12): 93_implementation_defined.md lets a model
stop there. -/
def Obligations.NoStepStops : Prop := ∀ s : State, ∃ t, step s = .next t

/-- 10_state.md R46: a command writes nothing its row does not list. -/
def Obligations.CommandsWriteOnlyTheirOutputs : Prop :=
  ∀ (i : Instr) (s t : State), exec i s = .next t →
    KeepsRegs (.status :: outputRegs i) s t ∧ KeepsBytes (outputBytes s.maxOpts i) s t ∧ KeepsModel s t
      ∧ (writesMvalid i = false → t.mvalid = s.mvalid)

/-! ## ByteCodec -/

/-- 41_bytecodec.md R141. The draw is a free value: the statement holds whatever the entropy source answers. -/
def Obligations.XidgenWritesOneDraw : Prop :=
  encode .xidgen = 0x00000001#32
  ∧ ∀ s : State, Answers (exec .xidgen s) fun t =>
      t.xidr = Config.entropy s.draws ∧ t.mvalid = s.mvalid ∧ Frame .none [.xidr] noBytes s t

/-- 41_bytecodec.md R142. -/
def Obligations.B2u16ReadsBigEndianPrefix : Prop :=
  encode .b2u16 = 0x00000002#32
  ∧ ∀ s : State,
      (s.rxlen.toNat ≤ 4096 → Answers (exec .b2u16 s) fun t =>
        t.bcval = (if s.rxlen.toNat = 0 then 0
          else if s.rxlen.toNat = 1 then (s.mem.read 0x1000).setWidth 32
          else (s.mem.read 0x1000 ++ s.mem.read 0x1001).setWidth 32)
        ∧ t.mvalid = s.mvalid ∧ Frame .none [.bcval] noBytes s t)
      ∧ (4096 < s.rxlen.toNat → FailsOnly .lenRange .b2u16 s)

/-- 41_bytecodec.md R143. -/
def Obligations.B2u32ReadsBigEndianPrefix : Prop :=
  encode .b2u32 = 0x00000003#32
  ∧ ∀ s : State,
      (s.rxlen.toNat ≤ 4096 → Answers (exec .b2u32 s) fun t =>
        t.bcval = (if s.rxlen.toNat < 4 then 0
          else s.mem.read 0x1000 ++ s.mem.read 0x1001 ++ s.mem.read 0x1002 ++ s.mem.read 0x1003)
        ∧ t.mvalid = s.mvalid ∧ Frame .none [.bcval] noBytes s t)
      ∧ (4096 < s.rxlen.toNat → FailsOnly .lenRange .b2u32 s)

/-- 41_bytecodec.md R144. -/
def Obligations.U16tbWritesTwoBytes : Prop :=
  encode .u16tb = 0x00000004#32
  ∧ ∀ s : State, Answers (exec .u16tb s) fun t =>
      t.mem.read 0x2000 = s.bcval.extractLsb' 8 8 ∧ t.mem.read 0x2001 = s.bcval.extractLsb' 0 8 ∧ t.txlen = 2
        ∧ t.mvalid = s.mvalid ∧ Frame .none [.txlen] (inRange txBase 2) s t

/-- 41_bytecodec.md R145. -/
def Obligations.U32tbWritesFourBytes : Prop :=
  encode .u32tb = 0x00000005#32
  ∧ ∀ s : State, Answers (exec .u32tb s) fun t =>
      t.mem.read 0x2000 = s.bcval.extractLsb' 24 8 ∧ t.mem.read 0x2001 = s.bcval.extractLsb' 16 8
        ∧ t.mem.read 0x2002 = s.bcval.extractLsb' 8 8 ∧ t.mem.read 0x2003 = s.bcval.extractLsb' 0 8 ∧ t.txlen = 4
        ∧ t.mvalid = s.mvalid ∧ Frame .none [.txlen] (inRange txBase 4) s t

/-- 41_bytecodec.md R146 (a), (b): bytes put out by U32TB or U16TB and placed in RXBUF give the value back. -/
def Obligations.ByteConversionsRoundTrip : Prop :=
  ∀ s u : State,
    (∀ t, exec .u32tb s = .next t → u.rxlen = 4 → (∀ k, k < 4 → u.mem.read (0x1000 + k) = t.mem.read (0x2000 + k)) →
      Answers (exec .b2u32 u) fun v => v.bcval = s.bcval)
    ∧ ∀ t, exec .u16tb s = .next t → u.rxlen = 2 → (∀ k, k < 2 → u.mem.read (0x1000 + k) = t.mem.read (0x2000 + k)) →
      Answers (exec .b2u16 u) fun v => v.bcval = (s.bcval.extractLsb' 0 16).setWidth 32

/-! ## OptionCodec -/

/-- 42_optioncodec.md R180, R185: OPTENC of an entry the encoder accepts. -/
def Obligations.OptencEncodesEntry : Prop :=
  ∀ (s : State) (b : Bank) (idx : Nat), s.cnt b ≤ s.maxOpts → idx < s.cnt b →
    encodable (readEntry s.mem b idx) = true →
    Answers (exec (.optenc b idx) s) (Encoded (wire (readEntry s.mem b idx)) s)

/-- 42_optioncodec.md R180, R185: OPTENC of an entry the encoder refuses. -/
def Obligations.OptencRefusesBadEntry : Prop :=
  ∀ (s : State) (b : Bank) (idx : Nat), s.cnt b ≤ s.maxOpts → idx < s.cnt b →
    (listed (readEntry s.mem b idx).code = false →
      Answers (exec (.optenc b idx) s) (EncodeFailed .encBadCode s))
    ∧ (listed (readEntry s.mem b idx).code = true → encodable (readEntry s.mem b idx) = false →
      Answers (exec (.optenc b idx) s) (EncodeFailed .encBadWidth s))

/-- The register of a bank's count (10_state.md R34). -/
def Sys2Proof.cntReg : Bank → Reg
  | .bank0 => .optcnt0
  | .bank1 => .optcnt1

/-- 42_optioncodec.md R160, R181, R186: OPTDEC of a payload its code allows, by the table of R160 row by row: replace
below the count, append at it. -/
def Obligations.OptdecStoresEntry : Prop :=
  ∀ (s : State) (b : Bank) (idx : Nat) (c : Byte), ParamOk s → s.rxlen.toNat ≤ 255 → s.cnt b ≤ s.maxOpts →
    idx ≤ s.cnt b → idx < s.maxOpts →
    ((c = 1 ∨ c = 12 ∨ c = 55 ∨ c = 108)
      ∨ (c = 50 ∨ c = 51 ∨ c = 54 ∨ c = 58 ∨ c = 59) ∧ s.rxlen.toNat = 4
      ∨ c = 53 ∧ s.rxlen.toNat = 1
      ∨ c = 57 ∧ s.rxlen.toNat = 2
      ∨ (c = 3 ∨ c = 6) ∧ s.rxlen.toNat % 4 = 0
      ∨ c = 61 ∧ 1 ≤ s.rxlen.toNat
      ∨ c = 255 ∧ s.rxlen.toNat = 0) →
    Answers (exec (.optdec b idx c) s) fun t =>
      readEntry t.mem b idx = ⟨c, s.rxBytes⟩ ∧ t.cnt b = (if idx = s.cnt b then s.cnt b + 1 else s.cnt b)
        ∧ t.mvalid = s.mvalid ∧ Frame .none [cntReg b] (inRange (entryAddr b idx) entrySize) s t

/-- 42_optioncodec.md R160, R161, R181, R186: OPTDEC of anything else fails with the code the rule gives, and changes
nothing but STATUS. -/
def Obligations.OptdecRefusesBadPayload : Prop :=
  ∀ (s : State) (b : Bank) (idx : Nat) (c : Byte), s.cnt b ≤ s.maxOpts → idx ≤ s.cnt b → idx < s.maxOpts →
    (255 < s.rxlen.toNat → s.rxlen.toNat ≤ 4096 → FailsOnly .lenRange (.optdec b idx c) s)
    ∧ (s.rxlen.toNat ≤ 255 →
        (c ∉ ([1, 3, 6, 12, 50, 51, 53, 54, 55, 57, 58, 59, 61, 108, 255] : List Byte) →
          FailsOnly .decBadCode (.optdec b idx c) s)
        ∧ (c = 255 → s.rxlen.toNat ≠ 0 → FailsOnly .decBadFixedLen (.optdec b idx c) s)
        ∧ (c ∈ ([50, 51, 54, 58, 59] : List Byte) → s.rxlen.toNat ≠ 4 →
          FailsOnly .decBadFixedLen (.optdec b idx c) s)
        ∧ (c = 53 → s.rxlen.toNat ≠ 1 → FailsOnly .decBadFixedLen (.optdec b idx c) s)
        ∧ (c = 57 → s.rxlen.toNat ≠ 2 → FailsOnly .decBadFixedLen (.optdec b idx c) s)
        ∧ (c = 3 ∨ c = 6 → s.rxlen.toNat % 4 ≠ 0 → FailsOnly .decBadChunk (.optdec b idx c) s)
        ∧ (c = 61 → s.rxlen.toNat = 0 → FailsOnly .decBadClientId (.optdec b idx c) s))

/-- 42_optioncodec.md R187: OPTDEC, then OPTENC of the entry it wrote, gives code, length and payload back. -/
def Obligations.OptionRoundTrip : Prop :=
  ∀ (s t : State) (b : Bank) (idx : Nat) (c : Byte), ParamOk s → exec (.optdec b idx c) s = .next t →
    t.errcode = .none →
    Answers (exec (.optenc b idx) t) fun u =>
      u.errcode = .none
        ∧ u.mem.readN txBase u.txlen.toNat
            = if c = endCode then [0xFF] else c :: BitVec.ofNat 8 s.rxlen.toNat :: s.rxBytes

/-! ## MessageCodec -/

/-- 43_messagecodec.md R210 to R213: MSGENC of a list the encoder accepts, within the buffer. TXBUF above the message
holds any value (93_implementation_defined.md U5; log 17). -/
def Obligations.MsgencWritesPaddedMessage : Prop :=
  ∀ s : State, s.cnt .bank0 ≤ s.maxOpts → (∀ e ∈ s.bankList .bank0, encodable e = true) →
    240 + (wireList (s.bankList .bank0)).length ≤ 4096 →
    Answers (exec .msgenc s) fun t =>
      EncodedMessage (s.hdrBytes ++ wireList (s.bankList .bank0)
        ++ List.replicate (300 - (240 + (wireList (s.bankList .bank0)).length)) 0) s t
      ∧ t.txlen.toNat = max 300 (240 + (wireList (s.bankList .bank0)).length)

/-- 43_messagecodec.md R210, 60_exceptions.md R275: the first entry that fails decides the code. -/
def Obligations.MsgencReportsFirstBadEntry : Prop :=
  ∀ (s : State) (pre post : List Entry) (e : Entry), s.cnt .bank0 ≤ s.maxOpts →
    s.bankList .bank0 = pre ++ e :: post → (∀ x ∈ pre, encodable x = true) → 240 + (wireList pre).length ≤ 4096 →
    (listed e.code = false → Answers (exec .msgenc s) (EncodeFailed .encBadCode s))
    ∧ (listed e.code = true → encodable e = false → Answers (exec .msgenc s) (EncodeFailed .encBadWidth s))
    ∧ (encodable e = true → 4096 < 240 + (wireList pre).length + (wire e).length →
        Answers (exec .msgenc s) (EncodeFailed .encOverflow s))

/-- 43_messagecodec.md R220, R223, R225, R227, R228: a datagram that is a header and well-shaped options, and then
nothing, an End option, or an unsupported code, is accepted; what follows is not read. -/
def Obligations.MsgdecParsesWireFormat : Prop :=
  ∀ (s : State) (hdr tail : List Byte) (l : List Entry), ParamOk s → s.rxlen.toNat ≤ 4096 → hdr.length = 240 →
    s.rxBytes = hdr ++ wireList l ++ tail → (∀ e ∈ l, wellShaped e = true) → l.length ≤ s.maxOpts →
    (s.chkCookie = true → hdr.drop 236 = [0x63, 0x82, 0x53, 0x63]) →
    (tail = [] → Answers (exec .msgdec s) fun t => DecodedAs s t hdr l .eob 0 (240 + (wireList l).length))
    ∧ (∀ rest, tail = 255 :: rest → l.length < s.maxOpts →
        Answers (exec .msgdec s) fun t => DecodedAs s t hdr (l ++ [⟨255, []⟩]) .ended 0 (240 + (wireList l).length))
    ∧ ∀ c rest, tail = c :: rest → listed c = false →
        Answers (exec .msgdec s) fun t => DecodedAs s t hdr l .unknown c (240 + (wireList l).length)

/-- 43_messagecodec.md R221, R222, R224, R225: a datagram without a whole header, or with a wrong cookie that is
checked, is discarded. -/
def Obligations.MsgdecDiscardsBadHeader : Prop :=
  ∀ s : State, s.rxlen.toNat ≤ 4096 →
    (s.rxlen.toNat < 240 → Answers (exec .msgdec s) fun t => DiscardedAs s t .decShortHeader 0)
    ∧ (240 ≤ s.rxlen.toNat → s.chkCookie = true → (s.rxBytes.drop 236).take 4 ≠ [0x63, 0x82, 0x53, 0x63] →
        Answers (exec .msgdec s) fun t => DiscardedAs s t .decBadCookie 236)

/-- 43_messagecodec.md R220, R223 to R225, 60_exceptions.md R275: after well-shaped options, the first malformed one
discards the message, with the code of the first check that fails and the offset of its code byte. -/
def Obligations.MsgdecDiscardsMalformedOption : Prop :=
  ∀ (s : State) (hdr rest : List Byte) (l : List Entry) (c : Byte), ParamOk s → s.rxlen.toNat ≤ 4096 →
    hdr.length = 240 → s.rxBytes = hdr ++ wireList l ++ c :: rest → (∀ e ∈ l, wellShaped e = true) →
    l.length ≤ s.maxOpts → (s.chkCookie = true → hdr.drop 236 = [0x63, 0x82, 0x53, 0x63]) → listed c = true →
    (c = 255 → l.length = s.maxOpts →
      Answers (exec .msgdec s) fun t => DiscardedAs s t .decOptOverflow (240 + (wireList l).length))
    ∧ (c ≠ 255 → rest = [] →
        Answers (exec .msgdec s) fun t => DiscardedAs s t .decTruncLen (240 + (wireList l).length))
    ∧ ∀ (n : Byte) (tail : List Byte), c ≠ 255 → rest = n :: tail →
        (lengthTable c n.toNat = false →
          Answers (exec .msgdec s) fun t =>
            DiscardedAs s t (if c = 3 ∨ c = 6 then .decBadChunk else if c = 61 then .decBadClientId else .decBadFixedLen)
              (240 + (wireList l).length))
        ∧ (lengthTable c n.toNat = true → tail.length < n.toNat →
          Answers (exec .msgdec s) fun t => DiscardedAs s t .decTruncPayload (240 + (wireList l).length))
        ∧ (lengthTable c n.toNat = true → n.toNat ≤ tail.length → l.length = s.maxOpts →
          Answers (exec .msgdec s) fun t => DiscardedAs s t .decOptOverflow (240 + (wireList l).length))

/-- 20_memory.md R70: the commands that read RXBUF depend on no byte at or above RXLEN, nor on any other stored byte:
two states with the same registers and the same valid prefix complete alike. -/
def Obligations.RxReadersDependOnValidPrefixOnly : Prop :=
  ∀ (s : State) (m : Memory), (∀ k, k < s.rxlen.toNat → m.read (rxBase + k) = s.mem.read (rxBase + k)) →
    ∀ i : Instr, (i = .b2u16 ∨ i = .b2u32 ∨ i = .msgdec ∨ ∃ b idx c, i = .optdec b idx c) →
      ∃ t u, exec i s = .next t ∧ exec i { s with mem := m } = .next u
        ∧ (∀ r, readReg u r = readReg t r)
        ∧ (i = .msgdec → ParamOk s → t.errcode = .none → u.hdrBytes = t.hdrBytes ∧ u.bankList .bank0 = t.bankList .bank0)
        ∧ ∀ b idx c, i = .optdec b idx c → t.errcode = .none → readEntry u.mem b idx = readEntry t.mem b idx

/-- 43_messagecodec.md R226: after a successful MSGDEC or builder, MTYPE mirrors the last option 53 of length 1 of the
list, or is 0. -/
def Obligations.MtypeMirrorsLastOption53 : Prop :=
  ∀ (i : Instr) (s t : State), ParamOk s → i ∈ [Instr.msgdec, .blddisc, .bldreq, .blddecl, .bldrel] →
    exec i s = .next t → t.errcode = .none →
    (∀ (pre post : List Entry) (v : Byte), t.bankList .bank0 = pre ++ ⟨53, [v]⟩ :: post →
      (∀ e ∈ post, ¬ (e.code = 53 ∧ e.payload.length = 1)) → t.mtype = ⟨v, true⟩)
    ∧ ((∀ e ∈ t.bankList .bank0, ¬ (e.code = 53 ∧ e.payload.length = 1)) → t.mtype = ⟨0, false⟩)

/-! ## Builders -/

/-- 44_builders.md R240 to R242, R244, R245. -/
def Obligations.BlddiscBuildsDiscover : Prop :=
  ∀ s : State, ParamOk s → s.cnt .bank1 + 3 ≤ s.maxOpts →
    Answers (exec .blddisc s) fun t =>
      BuiltHeader t s.xidr s.pSecs (zeros 4) (bytes32 s.pMac0 ++ bytes16 s.pMac1) s.pGiaddr
        ∧ BuiltList s t ([⟨53, [1]⟩, ⟨55, [1, 3, 6, 15, 46, 108, 114, 119, 121, 252]⟩] ++ s.bankList .bank1 ++ [⟨255, []⟩])

/-- 44_builders.md R255. -/
def Obligations.BlddeclBuildsDecline : Prop :=
  ∀ s : State, ParamOk s → s.cnt .bank1 + 4 ≤ s.maxOpts →
    Answers (exec .blddecl s) fun t =>
      BuiltHeader t s.xidr s.pSecs (zeros 4) (bytes32 s.pMac0 ++ bytes16 s.pMac1) s.pGiaddr
        ∧ BuiltList s t ([⟨53, [4]⟩, ⟨55, [1, 3, 6, 15, 46, 108, 114, 119, 121, 252]⟩, ⟨50, bytes32 s.pTgtip⟩]
            ++ s.bankList .bank1 ++ [⟨255, []⟩])

/-- 44_builders.md R256: the client-IP field holds the released address too. -/
def Obligations.BldrelBuildsRelease : Prop :=
  ∀ s : State, ParamOk s → s.cnt .bank1 + 4 ≤ s.maxOpts →
    Answers (exec .bldrel s) fun t =>
      BuiltHeader t s.xidr s.pSecs (bytes32 s.pTgtip) (bytes32 s.pMac0 ++ bytes16 s.pMac1) s.pGiaddr
        ∧ BuiltList s t ([⟨53, [7]⟩, ⟨55, [1, 3, 6, 15, 46, 108, 114, 119, 121, 252]⟩, ⟨50, bytes32 s.pTgtip⟩]
            ++ s.bankList .bank1 ++ [⟨255, []⟩])

/-- BLDREQ's option list, as 44_builders.md R250 and R252 give it, of the offer in `s`. -/
def Sys2Proof.requestOptions (s : State) : List Entry :=
  [⟨53, [3]⟩, ⟨55, [1, 3, 6, 15, 46, 108, 114, 119, 121, 252]⟩, ⟨50, s.hdrSlice 16 4⟩] ++ s.bankList .bank1
    ++ ((s.bankList .bank0).find? fun e => e.code == 54).toList
    ++ ((s.bankList .bank0).find? fun e => e.code == 61).toList ++ [⟨255, []⟩]

/-- 44_builders.md R250, R252, R253: the request is built from the offer as it stood before the command; seconds wrap
at 16 bits. -/
def Obligations.BldreqBuildsRequestFromOffer : Prop :=
  ∀ s : State, ParamOk s → s.cnt .bank0 ≤ s.maxOpts → s.cnt .bank1 ≤ s.maxOpts → s.mvalid = true →
    (requestOptions s).length ≤ s.maxOpts →
    Answers (exec .bldreq s) fun t =>
      BuiltHeader t (be32 (s.hdrByte 4) (s.hdrByte 5) (s.hdrByte 6) (s.hdrByte 7))
          (be16 (s.hdrByte 8) (s.hdrByte 9) + 1) (zeros 4) (s.hdrSlice 28 6) s.pGiaddr
        ∧ BuiltList s t (requestOptions s)

/-- 44_builders.md R251: BLDREQ needs a held message. -/
def Obligations.BldreqNeedsHeldMessage : Prop :=
  ∀ s : State, s.cnt .bank0 ≤ s.maxOpts → s.cnt .bank1 ≤ s.maxOpts → s.mvalid = false →
    FailsOnly .bldNoOffer .bldreq s

/-- 44_builders.md R243, R245, R250, R255, R256: a list that would pass `MAX_OPTS` fails and changes nothing but
STATUS. -/
def Obligations.BuildersRefuseOverflow : Prop :=
  ∀ s : State, s.cnt .bank1 ≤ s.maxOpts →
    (s.maxOpts < s.cnt .bank1 + 3 → FailsOnly .bldOverflow .blddisc s)
    ∧ (s.maxOpts < s.cnt .bank1 + 4 → FailsOnly .bldOverflow .blddecl s ∧ FailsOnly .bldOverflow .bldrel s)
    ∧ (s.cnt .bank0 ≤ s.maxOpts → s.mvalid = true → s.maxOpts < (requestOptions s).length →
        FailsOnly .bldOverflow .bldreq s)

/-- 44_builders.md R257: after any successful builder the relay-agent field is `P_GIADDR`, and a successful MSGENC
puts it at offsets 24 to 27. -/
def Obligations.RelayAddressIsPropagated : Prop :=
  ∀ (i : Instr) (s t : State), i ∈ [Instr.blddisc, .bldreq, .blddecl, .bldrel] → ParamOk s → exec i s = .next t →
    t.errcode = .none →
    t.hdrSlice 24 4 = bytes32 s.pGiaddr
      ∧ ∀ u, exec .msgenc t = .next u → u.errcode = .none → u.mem.readN (txBase + 24) 4 = bytes32 s.pGiaddr

/-- 43_messagecodec.md R229: a built message, encoded, copied to RXBUF and decoded, comes back whole. -/
def Obligations.MessageRoundTrip : Prop :=
  ∀ (i : Instr) (s t u v : State), i ∈ [Instr.blddisc, .bldreq, .blddecl, .bldrel] → ParamOk s →
    exec i s = .next t → t.errcode = .none →
    (∀ e ∈ s.bankList .bank1, encodable e = true ∧ e.code ≠ 255) →
    exec .msgenc t = .next u → u.errcode = .none →
    v.rxlen = u.txlen → v.maxOpts = s.maxOpts → (∀ k, k < u.txlen.toNat → v.mem.read (rxBase + k) = u.mem.read (txBase + k)) →
    Answers (exec .msgdec v) fun z =>
      z.errcode = .none ∧ z.mvalid = true ∧ z.hdrBytes = t.hdrBytes ∧ z.bankList .bank0 = t.bankList .bank0
        ∧ z.mtype = t.mtype ∧ z.dinfo.dstat = .ended ∧ z.dinfo.ucode = 0
        ∧ z.dinfo.doff.toNat + 1 = 240 + (wireList (t.bankList .bank0)).length

/-! ## The host's side -/

/-- 20_memory.md R61, R65, R66, R72: a read while idle returns the location's value and changes nothing. -/
def Obligations.IdleReadReturnsLocation : Prop :=
  ∀ (s : State) (a n : Nat) (rest : List Input), s.inbox = .read a n :: rest → s.pend = none → ParamOk s →
    (∀ r : Reg, a = r.offset → n = 4 → step s = .next { s.popped with resp := .data (readReg s r) })
    ∧ (0x048 ≤ a → a < 0x100 → a % 4 = 0 → n = 4 → step s = .next { s.popped with resp := .data 0 })
    ∧ (∀ k, k < 240 → a = 0x100 + k → n = 1 →
        step s = .next { s.popped with resp := .data ((s.hdrByte k).setWidth 32) })
    ∧ (∀ k, k < 4096 → a = 0x1000 + k ∨ a = 0x2000 + k → n = 1 →
        step s = .next { s.popped with resp := .data ((s.mem.read a).setWidth 32) })
    ∧ (∀ b i k, i < 64 → k < 0x200 → a = entryAddr b i + k → n = 1 →
        step s = .next { s.popped with
          resp := BusResponse.data (if i < s.maxOpts ∧ k < 257 then (s.mem.read a).setWidth 32 else 0) })
    ∧ (0x1F0 ≤ a ∧ a < 0x1000 ∨ 0x3000 ≤ a ∧ a < 0x8000 ∨ 0x18000 ≤ a ∧ a < 0x20000 → n = 1 →
        step s = .next { s.popped with resp := .data 0 })

/-- 70_reset_and_hazards.md R313: while BUSY, ID, CTRL, STATUS, CMD and PARAM read as they are; a read of any other
location is no fault and changes no block state. -/
def Obligations.BusyReadsAreHarmless : Prop :=
  ∀ (s : State) (a n : Nat) (w : Word) (rest : List Input), s.inbox = .read a n :: rest → s.pend = some w →
    (∀ r ∈ [Reg.id, .ctrl, .status, .cmd, .param], a = r.offset → n = 4 →
      step s = .next { s.popped with resp := .data (readReg s r) })
    ∧ (legalAccess a n = true →
        ∃ x d, step s = .next { s.popped with resp := .data x, draws := d })

/-- 20_memory.md R64, 60_exceptions.md R284: an access of a wrong width, a misaligned register access or an address
outside the space is a bus error: it is marked and changes no block state. -/
def Obligations.RejectedAccessIsBusError : Prop :=
  ∀ (s : State) (a n : Nat) (rest : List Input),
    (0x20000 ≤ a ∨ (a < 0x100 ∧ ¬ (n = 4 ∧ a % 4 = 0)) ∨ (0x100 ≤ a ∧ n ≠ 1)) →
    (s.inbox = .read a n :: rest ∨ ∃ v, s.inbox = .write a n v :: rest) →
    step s = .next { s.popped with
      resp := .error, faults := { hostBusError := true, hostHazard := s.faults.hostHazard } }

/-- 60_exceptions.md R285: a marked reason stays marked, at every step, resets included; and no run from a state with a
mark reaches a final state. -/
def Obligations.FaultMarksAreSticky : Prop :=
  (∀ (s t : State) (f : Fault), step s = .next t → s.faults.has f = true → t.faults.has f = true)
  ∧ ∀ (s t : State) (k : Nat), ¬ FaultFree s → core.run k s = .next t → ¬ Final t

/-- 20_memory.md R61, R63, R65, R66: a byte written while idle is the byte read afterwards, and nothing else changes; a
write to a reserved byte is ignored. -/
def Obligations.IdleByteWriteIsStored : Prop :=
  ∀ (s : State) (a : Nat) (v : Word) (rest : List Input), s.inbox = .write a 1 v :: rest → s.pend = none → ParamOk s →
    (((∃ k, k < 240 ∧ a = 0x100 + k) ∨ (∃ k, k < 4096 ∧ (a = 0x1000 + k ∨ a = 0x2000 + k))
        ∨ ∃ b i k, i < s.maxOpts ∧ k < 257 ∧ a = entryAddr b i + k) →
      Answers (step s) fun t =>
        t.mem.read a = v.setWidth 8 ∧ KeepsBytes (fun x => decide (x = a)) s t ∧ KeepsRegs [] s t ∧ t.pend = none
          ∧ t.faults = s.faults ∧ t.inbox = rest)
    ∧ (0x1F0 ≤ a ∧ a < 0x1000 ∨ 0x3000 ≤ a ∧ a < 0x8000 ∨ 0x18000 ≤ a ∧ a < 0x20000
        ∨ (∃ b i k, i < 64 ∧ k < 0x200 ∧ (s.maxOpts ≤ i ∨ 257 ≤ k) ∧ a = entryAddr b i + k) →
      step s = .next { s.popped with resp := .ack })

/-- 10_state.md R22 to R38: a register written while idle reads back its read-write bits; a read-only register ignores
the write; no other register and no byte changes; a write to a reserved offset is ignored. -/
def Obligations.IdleRegisterWriteKeepsItsBits : Prop :=
  (∀ (s : State) (r : Reg) (v : Word) (rest : List Input), s.inbox = .write r.offset 4 v :: rest → s.pend = none →
    r ≠ .cmd → r ≠ .status → (r = .ctrl → v.getLsbD 1 = false) →
    Answers (step s) fun t =>
      readReg t r = (match r with
        | .ctrl => v &&& 0x5
        | .rxlen => v &&& 0x1FFF
        | .pMac1 | .pSecs => v &&& 0xFFFF
        | .optcnt0 | .optcnt1 => v &&& 0xFF
        | .xidr | .bcval | .pMac0 | .pGiaddr | .pTgtip => v
        | _ => readReg s r)
      ∧ KeepsRegs [r] s t ∧ KeepsBytes noBytes s t ∧ t.pend = none ∧ t.faults = s.faults ∧ t.inbox = rest)
  ∧ ∀ (s : State) (a : Nat) (v : Word) (rest : List Input), s.inbox = .write a 4 v :: rest → s.pend = none →
      0x048 ≤ a → a < 0x100 → a % 4 = 0 → step s = .next { s.popped with resp := .ack }

/-- 10_state.md R24, 60_exceptions.md R281: writing 1 clears DONE and CMDOVR, and no other STATUS bit changes. -/
def Obligations.StatusWriteClearsOnlyDoneAndCmdovr : Prop :=
  ∀ (s : State) (v : Word) (rest : List Input), s.inbox = .write 0x008 4 v :: rest →
    Answers (step s) fun t =>
      t.done = (s.done && !v.getLsbD 1) ∧ t.cmdovr = (s.cmdovr && !v.getLsbD 3) ∧ t.pend = s.pend ∧ t.err = s.err
        ∧ t.errcode = s.errcode ∧ t.mvalid = s.mvalid ∧ KeepsRegs [.status] s t ∧ KeepsBytes noBytes s t
        ∧ t.faults = s.faults ∧ t.inbox = rest

/-- 70_reset_and_hazards.md R300 to R302, 60_exceptions.md R285: a reset or a soft reset, BUSY or not, leaves every
register at its reset value, abandons the command in flight, raises no interrupt, and leaves every byte free. The
marks stay. -/
def Obligations.ResetLeavesResetValues : Prop :=
  ∀ (s : State) (x : Input) (rest : List Input), s.inbox = x :: rest →
    (x = .reset ∨ ∃ v : Word, x = .write 0x004 4 v ∧ v.getLsbD 1 = true) →
    Answers (step s) fun t =>
      t.pend = none ∧ t.irq = false
        ∧ (∀ r : Reg, readReg t r = (match r with
            | .id => 0x44484350
            | .param => readReg s .param
            | _ => 0))
        ∧ (∀ a, a < 0x20000 → t.mem.read a = Config.unspecByte s.draws a)
        ∧ t.faults = s.faults ∧ t.maxOpts = s.maxOpts ∧ t.inbox = rest

/-- 70_reset_and_hazards.md R300: the state after power-up. MAX_OPTS = 64 is the model's choice (log 2). -/
def Obligations.ResetStateHoldsResetValues : Prop :=
  State.reset.pend = none ∧ State.reset.irq = false ∧ FaultFree State.reset
  ∧ (∀ r : Reg, readReg State.reset r = (match r with
      | .id => 0x44484350
      | .param => 0x10000040
      | _ => 0))
  ∧ ∀ a, a < 0x20000 → State.reset.mem.read a = Config.unspecByte 0 a

/-- 70_reset_and_hazards.md R312: a write to an operand or output location while BUSY is marked, and the written
location takes a free value. What follows is the model's choice (log 7), R312 fixing no state there: the word stays in
flight, no other register and no other byte changes, and the engine's turn completes the command with ERR, ERRCODE and
every output free. -/
def Obligations.BusyOperandWriteIsMarked : Prop :=
  ∀ (s : State) (a n : Nat) (v w : Word) (rest : List Input), s.inbox = .write a n v :: rest → s.pend = some w →
    ((n = 4 ∧ ∃ r ∈ [Reg.rxlen, .xidr, .bcval, .pMac0, .pMac1, .pSecs, .pGiaddr, .pTgtip, .optcnt0, .optcnt1], a = r.offset)
      ∨ (n = 4 ∧ a = 0x004 ∧ v.getLsbD 1 = false ∧ v.getLsbD 2 ≠ s.chkCookie)
      ∨ (n = 1 ∧ ∃ k, k < 240 ∧ a = 0x100 + k)
      ∨ (n = 1 ∧ ∃ k, k < 4096 ∧ (a = 0x1000 + k ∨ a = 0x2000 + k))
      ∨ (n = 1 ∧ ∃ b i k, i < s.maxOpts ∧ s.maxOpts ≤ 64 ∧ k < 257 ∧ a = entryAddr b i + k)) →
    Answers (step s) fun t =>
      t.faults.hostHazard = true ∧ t.pend = some w ∧ t.cmd = s.cmd ∧ t.inbox = rest
        ∧ (∀ r : Reg, a = r.offset → readReg t r = Config.unspecWord s.draws &&& (match r with
            | .ctrl => 0x5
            | .rxlen => 0x1FFF
            | .pMac1 | .pSecs => 0xFFFF
            | .optcnt0 | .optcnt1 => 0xFF
            | _ => 0xFFFFFFFF))
        ∧ (n = 1 → t.mem.read a = Config.unspecByte s.draws a)
        ∧ (∀ r : Reg, a ≠ r.offset → readReg t r = readReg s r) ∧ KeepsBytes (fun x => decide (x = a)) s t
        ∧ Answers (step { t with inbox := [] }) fun u =>
            u.pend = none ∧ u.done = true ∧ u.faults.hostHazard = true
              ∧ Freed t.draws (u.err, u.errcode) (fun x => (x.getLsbD 8, ErrCode.ofFree (x.setWidth 8)))
              ∧ ∀ i, decode w = .ok i → FreedOutputs t.draws i u

/-- 70_reset_and_hazards.md R312: the writes allowed while BUSY mark nothing and do what they do while idle: a CTRL
write that keeps CHKCOOKIE sets IE, read-only registers and reserved locations ignore the write. That a reserved byte
(257 and up) of an entry below MAX_OPTS is such a location, and no forbidden byte, is the model's choice (log 8): R312
also names any byte of such an entry as forbidden. -/
def Obligations.BusyAllowedWritesAreDefined : Prop :=
  ∀ (s : State) (a n : Nat) (v w : Word) (rest : List Input), s.inbox = .write a n v :: rest → s.pend = some w →
    (n = 4 → a = 0x004 → v.getLsbD 1 = false → v.getLsbD 2 = s.chkCookie →
      step s = .next { s.popped with ie := v.getLsbD 0, resp := .ack })
    ∧ (n = 4 → (a ∈ [Reg.offset .id, Reg.offset .txlen, Reg.offset .mtype, Reg.offset .dinfo, Reg.offset .param]
          ∨ 0x048 ≤ a ∧ a < 0x100 ∧ a % 4 = 0) →
        step s = .next { s.popped with resp := .ack })
    ∧ (n = 1 → s.maxOpts ≤ 64 →
        (0x1F0 ≤ a ∧ a < 0x1000 ∨ 0x3000 ≤ a ∧ a < 0x8000 ∨ 0x18000 ≤ a ∧ a < 0x20000
          ∨ ∃ b i k, i < 64 ∧ k < 0x200 ∧ (s.maxOpts ≤ i ∨ 257 ≤ k) ∧ a = entryAddr b i + k) →
        step s = .next { s.popped with resp := .ack })

/-- 60_exceptions.md R280, R281: after any completion, a command's or an illegal word's, the interrupt output is CTRL.IE,
and writing 1 to DONE, or the acceptance of a command, lowers it. That a command hit by a hazard completes too, which
the second clause covers, is the model's choice (log 7), R312 fixing no state there. -/
def Obligations.InterruptFollowsCompletion : Prop :=
  (∀ (i : Instr) (s t : State), exec i s = .next t → t.irq = s.ie)
  ∧ (∀ s t : State, s.pend ≠ none → EngineTurn s → step s = .next t → t.done = true ∧ t.irq = s.ie)
  ∧ ∀ (s t : State) (v : Word) (rest : List Input), step s = .next t →
      (s.inbox = .write 0x008 4 v :: rest ∧ v.getLsbD 1 = true) ∨ (s.inbox = .write 0x00C 4 v :: rest ∧ s.pend = none) →
      t.irq = false

/-! ## Views and host lines -/

/-- 42_optioncodec.md R162 to R176, 30_encoding.md R111, 10_state.md R35, R40: the typed view of each of the fifteen
options built from a value is that value, the message types have their names, and the header view reads each field at
its place. -/
def Obligations.TypedViewsReadTheirValues : Prop :=
  (∀ m : Word, optionView ⟨1, bytes32 m⟩ = .subnetMask m) ∧ (∀ d : List Byte, d.length ≠ 4 → optionView ⟨1, d⟩ = .raw d)
  ∧ (∀ addrs : List Word, addrs.length ≤ 63 →
    optionView ⟨3, addrs.flatMap bytes32⟩ = .routers addrs ∧ optionView ⟨6, addrs.flatMap bytes32⟩ = .dnsServers addrs)
  ∧ (∀ d : List Byte, optionView ⟨12, d⟩ = .hostName d ∧ optionView ⟨55, d⟩ = .paramRequest d
      ∧ optionView ⟨255, d⟩ = .endMark)
  ∧ (∀ t : Word, optionView ⟨50, bytes32 t⟩ = .requestedIp t ∧ optionView ⟨54, bytes32 t⟩ = .serverId t
      ∧ optionView ⟨51, bytes32 t⟩ = .leaseTime t ∧ optionView ⟨58, bytes32 t⟩ = .renewal t
      ∧ optionView ⟨59, bytes32 t⟩ = .rebinding t)
  ∧ (∀ v : Byte, optionView ⟨53, [v]⟩ = .messageType (messageTypeOf v))
  ∧ (messageTypeOf 1 = .discover ∧ messageTypeOf 2 = .offer ∧ messageTypeOf 3 = .request ∧ messageTypeOf 4 = .decline
      ∧ messageTypeOf 5 = .ack ∧ messageTypeOf 6 = .nak ∧ messageTypeOf 7 = .release
      ∧ ∀ v : Byte, v = 0 ∨ 8 ≤ v.toNat → messageTypeOf v = .unknown)
  ∧ (∀ v : Half, optionView ⟨57, bytes16 v⟩ = .maxSize v)
  ∧ (∀ (h : Byte) (m : List Byte), optionView ⟨61, h :: m⟩ = .clientId h m)
  ∧ (∀ (t : Word) (rest : List Byte), optionView ⟨108, bytes32 t ++ rest⟩ = .ipv6Only t)
  ∧ (∀ d : List Byte, d.length < 4 → optionView ⟨108, d⟩ = .ipv6Only 0)
  ∧ ∀ s : State,
      (s.mtype.present = true → s.messageType = some (messageTypeOf s.mtype.val))
      ∧ (s.mtype.present = false → s.messageType = none)
      ∧ s.header.op = s.hdrByte 0 ∧ s.header.htype = s.hdrByte 1 ∧ s.header.hlen = s.hdrByte 2 ∧ s.header.hops = s.hdrByte 3
      ∧ bytes32 s.header.xid = s.hdrSlice 4 4 ∧ bytes16 s.header.secs = s.hdrSlice 8 2
      ∧ bytes16 s.header.flags = s.hdrSlice 10 2 ∧ bytes32 s.header.ciaddr = s.hdrSlice 12 4
      ∧ bytes32 s.header.yiaddr = s.hdrSlice 16 4 ∧ bytes32 s.header.siaddr = s.hdrSlice 20 4
      ∧ bytes32 s.header.giaddr = s.hdrSlice 24 4 ∧ s.header.chaddr = s.hdrSlice 28 16 ∧ s.header.sname = s.hdrSlice 44 64
      ∧ s.header.file = s.hdrSlice 108 128 ∧ s.header.cookie = s.hdrSlice 236 4

/-- 30_encoding.md R132: the accesses of `loadrx`, made while idle, put the bytes in RXBUF and their number in
RXLEN. As every claim about a host program it has the premise that no fault is marked (60_exceptions.md R285), and
none is marked at its end. -/
def Obligations.LoadRxLoadsBuffer : Prop :=
  ∀ (s : State) (bs : List Byte) (rest : List Input), s.pend = none → bs.length ≤ 4096 →
    s.inbox = asmLoadRx bs ++ rest → FaultFree s →
    ∃ t : State, core.run (bs.length + 1) s = .next t ∧ t.rxBytes = bs ∧ t.rxlen.toNat = bs.length ∧ t.pend = none
      ∧ t.inbox = rest ∧ KeepsRegs [.rxlen] s t ∧ FaultFree t ∧ (rest = [] → Final t)

/-! ## The invariant -/

/-- Every step keeps the invariant: stored bytes at addresses that exist, one command at a time, and the status fields
consistent (20_memory.md R61, R66; 10_state.md R24 to R27, R35, R36, R45; 60_exceptions.md R282). Its clauses `memWf` (the
canonical form, log 4), `fresh` (a draw is used once, log 5) and `taint` (log 7) are of the model's own making and
follow from no rule. -/
def Obligations.StepKeepsInvariant : Prop := ∀ s t : State, Inv s → step s = .next t → Inv t

/-- The invariant holds after reset. -/
def Obligations.ResetSatisfiesInvariant : Prop := Inv State.reset

/-! ## The words of the registers -/

/-- 10_state.md R22 to R37, 60_exceptions.md R270: the word a read of each register returns, field by field, with the
numbers of the completion codes and of DSTAT; every other bit reads 0. -/
def Obligations.RegisterWordsAreLaidOut : Prop :=
  ∀ s : State,
    readReg s .id = 0x44484350 ∧ readReg s .cmd = s.cmd
    ∧ (∀ k, (readReg s .ctrl).getLsbD k = (match k with
        | 0 => s.ie
        | 2 => s.chkCookie
        | _ => false))
    ∧ (∀ k, k < 8 ∨ 16 ≤ k → (readReg s .status).getLsbD k = (match k with
        | 0 => s.pend.isSome
        | 1 => s.done
        | 2 => s.err
        | 3 => s.cmdovr
        | 4 => s.mvalid
        | _ => false))
    ∧ (readReg s .status).extractLsb' 8 8 = (match s.errcode with
        | .none => 0x00
        | .illegalCmd => 0x01
        | .lenRange => 0x02
        | .cntRange => 0x03
        | .idxRange => 0x04
        | .decShortHeader => 0x10
        | .decTruncLen => 0x11
        | .decTruncPayload => 0x12
        | .decBadFixedLen => 0x13
        | .decBadChunk => 0x14
        | .decBadClientId => 0x15
        | .decOptOverflow => 0x16
        | .decBadCookie => 0x17
        | .decBadCode => 0x18
        | .encBadCode => 0x20
        | .encBadWidth => 0x21
        | .encOverflow => 0x22
        | .bldNoOffer => 0x30
        | .bldOverflow => 0x31)
    ∧ (readReg s .rxlen).toNat = s.rxlen.toNat ∧ (readReg s .txlen).toNat = s.txlen.toNat
    ∧ readReg s .xidr = s.xidr ∧ readReg s .bcval = s.bcval ∧ readReg s .pMac0 = s.pMac0
    ∧ (readReg s .pMac1).toNat = s.pMac1.toNat ∧ (readReg s .pSecs).toNat = s.pSecs.toNat
    ∧ readReg s .pGiaddr = s.pGiaddr ∧ readReg s .pTgtip = s.pTgtip
    ∧ (readReg s .optcnt0).toNat = s.optcnt0.toNat ∧ (readReg s .optcnt1).toNat = s.optcnt1.toNat
    ∧ (readReg s .mtype).extractLsb' 0 8 = s.mtype.val ∧ (readReg s .mtype).getLsbD 8 = s.mtype.present
    ∧ (readReg s .mtype).extractLsb' 9 23 = 0
    ∧ (readReg s .dinfo).extractLsb' 0 3 = (match s.dinfo.dstat with
        | .none => 0
        | .ended => 1
        | .unknown => 2
        | .eob => 3
        | .failed => 4)
    ∧ (readReg s .dinfo).extractLsb' 3 5 = 0 ∧ (readReg s .dinfo).extractLsb' 8 8 = s.dinfo.ucode
    ∧ (readReg s .dinfo).extractLsb' 16 13 = s.dinfo.doff ∧ (readReg s .dinfo).extractLsb' 29 3 = 0
    ∧ (ParamOk s → ((readReg s .param).extractLsb' 0 8).toNat = s.maxOpts) ∧ (readReg s .param).extractLsb' 8 8 = 0
    ∧ (readReg s .param).extractLsb' 16 13 = 0x1000 ∧ (readReg s .param).extractLsb' 29 3 = 0
end

