-- ==== Sys2Proof/Laws/State.lean ====
section
/-! SUPPORT. What each named update of the state does to each field: one lemma per field per update. -/

namespace Sys2Proof.Machine

/-! ### writeMem -/

@[simp] theorem writeMem_ie (s : State) (a : Nat) (bs : List Byte) : (s.writeMem a bs).ie = s.ie := rfl
@[simp] theorem writeMem_chkCookie (s : State) (a : Nat) (bs : List Byte) : (s.writeMem a bs).chkCookie = s.chkCookie := rfl
@[simp] theorem writeMem_done (s : State) (a : Nat) (bs : List Byte) : (s.writeMem a bs).done = s.done := rfl
@[simp] theorem writeMem_err (s : State) (a : Nat) (bs : List Byte) : (s.writeMem a bs).err = s.err := rfl
@[simp] theorem writeMem_cmdovr (s : State) (a : Nat) (bs : List Byte) : (s.writeMem a bs).cmdovr = s.cmdovr := rfl
@[simp] theorem writeMem_mvalid (s : State) (a : Nat) (bs : List Byte) : (s.writeMem a bs).mvalid = s.mvalid := rfl
@[simp] theorem writeMem_errcode (s : State) (a : Nat) (bs : List Byte) : (s.writeMem a bs).errcode = s.errcode := rfl
@[simp] theorem writeMem_cmd (s : State) (a : Nat) (bs : List Byte) : (s.writeMem a bs).cmd = s.cmd := rfl
@[simp] theorem writeMem_pend (s : State) (a : Nat) (bs : List Byte) : (s.writeMem a bs).pend = s.pend := rfl
@[simp] theorem writeMem_rxlen (s : State) (a : Nat) (bs : List Byte) : (s.writeMem a bs).rxlen = s.rxlen := rfl
@[simp] theorem writeMem_txlen (s : State) (a : Nat) (bs : List Byte) : (s.writeMem a bs).txlen = s.txlen := rfl
@[simp] theorem writeMem_xidr (s : State) (a : Nat) (bs : List Byte) : (s.writeMem a bs).xidr = s.xidr := rfl
@[simp] theorem writeMem_bcval (s : State) (a : Nat) (bs : List Byte) : (s.writeMem a bs).bcval = s.bcval := rfl
@[simp] theorem writeMem_pMac0 (s : State) (a : Nat) (bs : List Byte) : (s.writeMem a bs).pMac0 = s.pMac0 := rfl
@[simp] theorem writeMem_pMac1 (s : State) (a : Nat) (bs : List Byte) : (s.writeMem a bs).pMac1 = s.pMac1 := rfl
@[simp] theorem writeMem_pSecs (s : State) (a : Nat) (bs : List Byte) : (s.writeMem a bs).pSecs = s.pSecs := rfl
@[simp] theorem writeMem_pGiaddr (s : State) (a : Nat) (bs : List Byte) : (s.writeMem a bs).pGiaddr = s.pGiaddr := rfl
@[simp] theorem writeMem_pTgtip (s : State) (a : Nat) (bs : List Byte) : (s.writeMem a bs).pTgtip = s.pTgtip := rfl
@[simp] theorem writeMem_optcnt0 (s : State) (a : Nat) (bs : List Byte) : (s.writeMem a bs).optcnt0 = s.optcnt0 := rfl
@[simp] theorem writeMem_optcnt1 (s : State) (a : Nat) (bs : List Byte) : (s.writeMem a bs).optcnt1 = s.optcnt1 := rfl
@[simp] theorem writeMem_mtype (s : State) (a : Nat) (bs : List Byte) : (s.writeMem a bs).mtype = s.mtype := rfl
@[simp] theorem writeMem_dinfo (s : State) (a : Nat) (bs : List Byte) : (s.writeMem a bs).dinfo = s.dinfo := rfl
@[simp] theorem writeMem_maxOpts (s : State) (a : Nat) (bs : List Byte) : (s.writeMem a bs).maxOpts = s.maxOpts := rfl
@[simp] theorem writeMem_mem (s : State) (a : Nat) (bs : List Byte) : (s.writeMem a bs).mem = s.mem.write a bs := rfl
@[simp] theorem writeMem_faults (s : State) (a : Nat) (bs : List Byte) : (s.writeMem a bs).faults = s.faults := rfl
@[simp] theorem writeMem_taint (s : State) (a : Nat) (bs : List Byte) : (s.writeMem a bs).taint = s.taint := rfl
@[simp] theorem writeMem_draws (s : State) (a : Nat) (bs : List Byte) : (s.writeMem a bs).draws = s.draws := rfl
@[simp] theorem writeMem_inbox (s : State) (a : Nat) (bs : List Byte) : (s.writeMem a bs).inbox = s.inbox := rfl
@[simp] theorem writeMem_resp (s : State) (a : Nat) (bs : List Byte) : (s.writeMem a bs).resp = s.resp := rfl

/-! ### havocMem -/

@[simp] theorem havocMem_ie (s : State) (a n : Nat) : (s.havocMem a n).ie = s.ie := rfl
@[simp] theorem havocMem_chkCookie (s : State) (a n : Nat) : (s.havocMem a n).chkCookie = s.chkCookie := rfl
@[simp] theorem havocMem_done (s : State) (a n : Nat) : (s.havocMem a n).done = s.done := rfl
@[simp] theorem havocMem_err (s : State) (a n : Nat) : (s.havocMem a n).err = s.err := rfl
@[simp] theorem havocMem_cmdovr (s : State) (a n : Nat) : (s.havocMem a n).cmdovr = s.cmdovr := rfl
@[simp] theorem havocMem_mvalid (s : State) (a n : Nat) : (s.havocMem a n).mvalid = s.mvalid := rfl
@[simp] theorem havocMem_errcode (s : State) (a n : Nat) : (s.havocMem a n).errcode = s.errcode := rfl
@[simp] theorem havocMem_cmd (s : State) (a n : Nat) : (s.havocMem a n).cmd = s.cmd := rfl
@[simp] theorem havocMem_pend (s : State) (a n : Nat) : (s.havocMem a n).pend = s.pend := rfl
@[simp] theorem havocMem_rxlen (s : State) (a n : Nat) : (s.havocMem a n).rxlen = s.rxlen := rfl
@[simp] theorem havocMem_txlen (s : State) (a n : Nat) : (s.havocMem a n).txlen = s.txlen := rfl
@[simp] theorem havocMem_xidr (s : State) (a n : Nat) : (s.havocMem a n).xidr = s.xidr := rfl
@[simp] theorem havocMem_bcval (s : State) (a n : Nat) : (s.havocMem a n).bcval = s.bcval := rfl
@[simp] theorem havocMem_pMac0 (s : State) (a n : Nat) : (s.havocMem a n).pMac0 = s.pMac0 := rfl
@[simp] theorem havocMem_pMac1 (s : State) (a n : Nat) : (s.havocMem a n).pMac1 = s.pMac1 := rfl
@[simp] theorem havocMem_pSecs (s : State) (a n : Nat) : (s.havocMem a n).pSecs = s.pSecs := rfl
@[simp] theorem havocMem_pGiaddr (s : State) (a n : Nat) : (s.havocMem a n).pGiaddr = s.pGiaddr := rfl
@[simp] theorem havocMem_pTgtip (s : State) (a n : Nat) : (s.havocMem a n).pTgtip = s.pTgtip := rfl
@[simp] theorem havocMem_optcnt0 (s : State) (a n : Nat) : (s.havocMem a n).optcnt0 = s.optcnt0 := rfl
@[simp] theorem havocMem_optcnt1 (s : State) (a n : Nat) : (s.havocMem a n).optcnt1 = s.optcnt1 := rfl
@[simp] theorem havocMem_mtype (s : State) (a n : Nat) : (s.havocMem a n).mtype = s.mtype := rfl
@[simp] theorem havocMem_dinfo (s : State) (a n : Nat) : (s.havocMem a n).dinfo = s.dinfo := rfl
@[simp] theorem havocMem_maxOpts (s : State) (a n : Nat) : (s.havocMem a n).maxOpts = s.maxOpts := rfl
@[simp] theorem havocMem_mem (s : State) (a n : Nat) : (s.havocMem a n).mem = s.mem.havoc a n s.draws := rfl
@[simp] theorem havocMem_faults (s : State) (a n : Nat) : (s.havocMem a n).faults = s.faults := rfl
@[simp] theorem havocMem_taint (s : State) (a n : Nat) : (s.havocMem a n).taint = s.taint := rfl
@[simp] theorem havocMem_draws (s : State) (a n : Nat) : (s.havocMem a n).draws = s.draws + 1 := rfl
@[simp] theorem havocMem_inbox (s : State) (a n : Nat) : (s.havocMem a n).inbox = s.inbox := rfl
@[simp] theorem havocMem_resp (s : State) (a n : Nat) : (s.havocMem a n).resp = s.resp := rfl

/-! ### havocBank -/

@[simp] theorem havocBank_ie (s : State) (b : Bank) : (s.havocBank b).ie = s.ie := rfl
@[simp] theorem havocBank_chkCookie (s : State) (b : Bank) : (s.havocBank b).chkCookie = s.chkCookie := rfl
@[simp] theorem havocBank_done (s : State) (b : Bank) : (s.havocBank b).done = s.done := rfl
@[simp] theorem havocBank_err (s : State) (b : Bank) : (s.havocBank b).err = s.err := rfl
@[simp] theorem havocBank_cmdovr (s : State) (b : Bank) : (s.havocBank b).cmdovr = s.cmdovr := rfl
@[simp] theorem havocBank_mvalid (s : State) (b : Bank) : (s.havocBank b).mvalid = s.mvalid := rfl
@[simp] theorem havocBank_errcode (s : State) (b : Bank) : (s.havocBank b).errcode = s.errcode := rfl
@[simp] theorem havocBank_cmd (s : State) (b : Bank) : (s.havocBank b).cmd = s.cmd := rfl
@[simp] theorem havocBank_pend (s : State) (b : Bank) : (s.havocBank b).pend = s.pend := rfl
@[simp] theorem havocBank_rxlen (s : State) (b : Bank) : (s.havocBank b).rxlen = s.rxlen := rfl
@[simp] theorem havocBank_txlen (s : State) (b : Bank) : (s.havocBank b).txlen = s.txlen := rfl
@[simp] theorem havocBank_xidr (s : State) (b : Bank) : (s.havocBank b).xidr = s.xidr := rfl
@[simp] theorem havocBank_bcval (s : State) (b : Bank) : (s.havocBank b).bcval = s.bcval := rfl
@[simp] theorem havocBank_pMac0 (s : State) (b : Bank) : (s.havocBank b).pMac0 = s.pMac0 := rfl
@[simp] theorem havocBank_pMac1 (s : State) (b : Bank) : (s.havocBank b).pMac1 = s.pMac1 := rfl
@[simp] theorem havocBank_pSecs (s : State) (b : Bank) : (s.havocBank b).pSecs = s.pSecs := rfl
@[simp] theorem havocBank_pGiaddr (s : State) (b : Bank) : (s.havocBank b).pGiaddr = s.pGiaddr := rfl
@[simp] theorem havocBank_pTgtip (s : State) (b : Bank) : (s.havocBank b).pTgtip = s.pTgtip := rfl
@[simp] theorem havocBank_optcnt0 (s : State) (b : Bank) : (s.havocBank b).optcnt0 = s.optcnt0 := rfl
@[simp] theorem havocBank_optcnt1 (s : State) (b : Bank) : (s.havocBank b).optcnt1 = s.optcnt1 := rfl
@[simp] theorem havocBank_mtype (s : State) (b : Bank) : (s.havocBank b).mtype = s.mtype := rfl
@[simp] theorem havocBank_dinfo (s : State) (b : Bank) : (s.havocBank b).dinfo = s.dinfo := rfl
@[simp] theorem havocBank_maxOpts (s : State) (b : Bank) : (s.havocBank b).maxOpts = s.maxOpts := rfl
@[simp] theorem havocBank_mem (s : State) (b : Bank) : (s.havocBank b).mem = s.mem.havoc (optBase b) (entryStride * s.maxOpts) s.draws := rfl
@[simp] theorem havocBank_faults (s : State) (b : Bank) : (s.havocBank b).faults = s.faults := rfl
@[simp] theorem havocBank_taint (s : State) (b : Bank) : (s.havocBank b).taint = s.taint := rfl
@[simp] theorem havocBank_draws (s : State) (b : Bank) : (s.havocBank b).draws = s.draws + 1 := rfl
@[simp] theorem havocBank_inbox (s : State) (b : Bank) : (s.havocBank b).inbox = s.inbox := rfl
@[simp] theorem havocBank_resp (s : State) (b : Bank) : (s.havocBank b).resp = s.resp := rfl

/-! ### storeEntry -/

@[simp] theorem storeEntry_ie (s : State) (b : Bank) (i : Nat) (e : Entry) : (s.storeEntry b i e).ie = s.ie := rfl
@[simp] theorem storeEntry_chkCookie (s : State) (b : Bank) (i : Nat) (e : Entry) : (s.storeEntry b i e).chkCookie = s.chkCookie := rfl
@[simp] theorem storeEntry_done (s : State) (b : Bank) (i : Nat) (e : Entry) : (s.storeEntry b i e).done = s.done := rfl
@[simp] theorem storeEntry_err (s : State) (b : Bank) (i : Nat) (e : Entry) : (s.storeEntry b i e).err = s.err := rfl
@[simp] theorem storeEntry_cmdovr (s : State) (b : Bank) (i : Nat) (e : Entry) : (s.storeEntry b i e).cmdovr = s.cmdovr := rfl
@[simp] theorem storeEntry_mvalid (s : State) (b : Bank) (i : Nat) (e : Entry) : (s.storeEntry b i e).mvalid = s.mvalid := rfl
@[simp] theorem storeEntry_errcode (s : State) (b : Bank) (i : Nat) (e : Entry) : (s.storeEntry b i e).errcode = s.errcode := rfl
@[simp] theorem storeEntry_cmd (s : State) (b : Bank) (i : Nat) (e : Entry) : (s.storeEntry b i e).cmd = s.cmd := rfl
@[simp] theorem storeEntry_pend (s : State) (b : Bank) (i : Nat) (e : Entry) : (s.storeEntry b i e).pend = s.pend := rfl
@[simp] theorem storeEntry_rxlen (s : State) (b : Bank) (i : Nat) (e : Entry) : (s.storeEntry b i e).rxlen = s.rxlen := rfl
@[simp] theorem storeEntry_txlen (s : State) (b : Bank) (i : Nat) (e : Entry) : (s.storeEntry b i e).txlen = s.txlen := rfl
@[simp] theorem storeEntry_xidr (s : State) (b : Bank) (i : Nat) (e : Entry) : (s.storeEntry b i e).xidr = s.xidr := rfl
@[simp] theorem storeEntry_bcval (s : State) (b : Bank) (i : Nat) (e : Entry) : (s.storeEntry b i e).bcval = s.bcval := rfl
@[simp] theorem storeEntry_pMac0 (s : State) (b : Bank) (i : Nat) (e : Entry) : (s.storeEntry b i e).pMac0 = s.pMac0 := rfl
@[simp] theorem storeEntry_pMac1 (s : State) (b : Bank) (i : Nat) (e : Entry) : (s.storeEntry b i e).pMac1 = s.pMac1 := rfl
@[simp] theorem storeEntry_pSecs (s : State) (b : Bank) (i : Nat) (e : Entry) : (s.storeEntry b i e).pSecs = s.pSecs := rfl
@[simp] theorem storeEntry_pGiaddr (s : State) (b : Bank) (i : Nat) (e : Entry) : (s.storeEntry b i e).pGiaddr = s.pGiaddr := rfl
@[simp] theorem storeEntry_pTgtip (s : State) (b : Bank) (i : Nat) (e : Entry) : (s.storeEntry b i e).pTgtip = s.pTgtip := rfl
@[simp] theorem storeEntry_optcnt0 (s : State) (b : Bank) (i : Nat) (e : Entry) : (s.storeEntry b i e).optcnt0 = s.optcnt0 := rfl
@[simp] theorem storeEntry_optcnt1 (s : State) (b : Bank) (i : Nat) (e : Entry) : (s.storeEntry b i e).optcnt1 = s.optcnt1 := rfl
@[simp] theorem storeEntry_mtype (s : State) (b : Bank) (i : Nat) (e : Entry) : (s.storeEntry b i e).mtype = s.mtype := rfl
@[simp] theorem storeEntry_dinfo (s : State) (b : Bank) (i : Nat) (e : Entry) : (s.storeEntry b i e).dinfo = s.dinfo := rfl
@[simp] theorem storeEntry_maxOpts (s : State) (b : Bank) (i : Nat) (e : Entry) : (s.storeEntry b i e).maxOpts = s.maxOpts := rfl
@[simp] theorem storeEntry_mem (s : State) (b : Bank) (i : Nat) (e : Entry) : (s.storeEntry b i e).mem = (s.mem.havoc (entryAddr b i) entrySize s.draws).write (entryAddr b i) e.image := rfl
@[simp] theorem storeEntry_faults (s : State) (b : Bank) (i : Nat) (e : Entry) : (s.storeEntry b i e).faults = s.faults := rfl
@[simp] theorem storeEntry_taint (s : State) (b : Bank) (i : Nat) (e : Entry) : (s.storeEntry b i e).taint = s.taint := rfl
@[simp] theorem storeEntry_draws (s : State) (b : Bank) (i : Nat) (e : Entry) : (s.storeEntry b i e).draws = s.draws + 1 := rfl
@[simp] theorem storeEntry_inbox (s : State) (b : Bank) (i : Nat) (e : Entry) : (s.storeEntry b i e).inbox = s.inbox := rfl
@[simp] theorem storeEntry_resp (s : State) (b : Bank) (i : Nat) (e : Entry) : (s.storeEntry b i e).resp = s.resp := rfl

/-! ### storeBank0 -/

@[simp] theorem storeBank0_ie (s : State) (l : List Entry) : (s.storeBank0 l).ie = s.ie := rfl
@[simp] theorem storeBank0_chkCookie (s : State) (l : List Entry) : (s.storeBank0 l).chkCookie = s.chkCookie := rfl
@[simp] theorem storeBank0_done (s : State) (l : List Entry) : (s.storeBank0 l).done = s.done := rfl
@[simp] theorem storeBank0_err (s : State) (l : List Entry) : (s.storeBank0 l).err = s.err := rfl
@[simp] theorem storeBank0_cmdovr (s : State) (l : List Entry) : (s.storeBank0 l).cmdovr = s.cmdovr := rfl
@[simp] theorem storeBank0_mvalid (s : State) (l : List Entry) : (s.storeBank0 l).mvalid = s.mvalid := rfl
@[simp] theorem storeBank0_errcode (s : State) (l : List Entry) : (s.storeBank0 l).errcode = s.errcode := rfl
@[simp] theorem storeBank0_cmd (s : State) (l : List Entry) : (s.storeBank0 l).cmd = s.cmd := rfl
@[simp] theorem storeBank0_pend (s : State) (l : List Entry) : (s.storeBank0 l).pend = s.pend := rfl
@[simp] theorem storeBank0_rxlen (s : State) (l : List Entry) : (s.storeBank0 l).rxlen = s.rxlen := rfl
@[simp] theorem storeBank0_txlen (s : State) (l : List Entry) : (s.storeBank0 l).txlen = s.txlen := rfl
@[simp] theorem storeBank0_xidr (s : State) (l : List Entry) : (s.storeBank0 l).xidr = s.xidr := rfl
@[simp] theorem storeBank0_bcval (s : State) (l : List Entry) : (s.storeBank0 l).bcval = s.bcval := rfl
@[simp] theorem storeBank0_pMac0 (s : State) (l : List Entry) : (s.storeBank0 l).pMac0 = s.pMac0 := rfl
@[simp] theorem storeBank0_pMac1 (s : State) (l : List Entry) : (s.storeBank0 l).pMac1 = s.pMac1 := rfl
@[simp] theorem storeBank0_pSecs (s : State) (l : List Entry) : (s.storeBank0 l).pSecs = s.pSecs := rfl
@[simp] theorem storeBank0_pGiaddr (s : State) (l : List Entry) : (s.storeBank0 l).pGiaddr = s.pGiaddr := rfl
@[simp] theorem storeBank0_pTgtip (s : State) (l : List Entry) : (s.storeBank0 l).pTgtip = s.pTgtip := rfl
@[simp] theorem storeBank0_optcnt0 (s : State) (l : List Entry) : (s.storeBank0 l).optcnt0 = s.optcnt0 := rfl
@[simp] theorem storeBank0_optcnt1 (s : State) (l : List Entry) : (s.storeBank0 l).optcnt1 = s.optcnt1 := rfl
@[simp] theorem storeBank0_mtype (s : State) (l : List Entry) : (s.storeBank0 l).mtype = s.mtype := rfl
@[simp] theorem storeBank0_dinfo (s : State) (l : List Entry) : (s.storeBank0 l).dinfo = s.dinfo := rfl
@[simp] theorem storeBank0_maxOpts (s : State) (l : List Entry) : (s.storeBank0 l).maxOpts = s.maxOpts := rfl
@[simp] theorem storeBank0_mem (s : State) (l : List Entry) : (s.storeBank0 l).mem = (s.mem.havoc (optBase .bank0) (entryStride * s.maxOpts) s.draws).writeEntries .bank0 0 l := rfl
@[simp] theorem storeBank0_faults (s : State) (l : List Entry) : (s.storeBank0 l).faults = s.faults := rfl
@[simp] theorem storeBank0_taint (s : State) (l : List Entry) : (s.storeBank0 l).taint = s.taint := rfl
@[simp] theorem storeBank0_draws (s : State) (l : List Entry) : (s.storeBank0 l).draws = s.draws + 1 := rfl
@[simp] theorem storeBank0_inbox (s : State) (l : List Entry) : (s.storeBank0 l).inbox = s.inbox := rfl
@[simp] theorem storeBank0_resp (s : State) (l : List Entry) : (s.storeBank0 l).resp = s.resp := rfl

/-! ### emitTx -/

@[simp] theorem emitTx_ie (s : State) (bs : List Byte) : (s.emitTx bs).ie = s.ie := rfl
@[simp] theorem emitTx_chkCookie (s : State) (bs : List Byte) : (s.emitTx bs).chkCookie = s.chkCookie := rfl
@[simp] theorem emitTx_done (s : State) (bs : List Byte) : (s.emitTx bs).done = s.done := rfl
@[simp] theorem emitTx_err (s : State) (bs : List Byte) : (s.emitTx bs).err = s.err := rfl
@[simp] theorem emitTx_cmdovr (s : State) (bs : List Byte) : (s.emitTx bs).cmdovr = s.cmdovr := rfl
@[simp] theorem emitTx_mvalid (s : State) (bs : List Byte) : (s.emitTx bs).mvalid = s.mvalid := rfl
@[simp] theorem emitTx_errcode (s : State) (bs : List Byte) : (s.emitTx bs).errcode = s.errcode := rfl
@[simp] theorem emitTx_cmd (s : State) (bs : List Byte) : (s.emitTx bs).cmd = s.cmd := rfl
@[simp] theorem emitTx_pend (s : State) (bs : List Byte) : (s.emitTx bs).pend = s.pend := rfl
@[simp] theorem emitTx_rxlen (s : State) (bs : List Byte) : (s.emitTx bs).rxlen = s.rxlen := rfl
@[simp] theorem emitTx_txlen (s : State) (bs : List Byte) : (s.emitTx bs).txlen = BitVec.ofNat 13 bs.length := rfl
@[simp] theorem emitTx_xidr (s : State) (bs : List Byte) : (s.emitTx bs).xidr = s.xidr := rfl
@[simp] theorem emitTx_bcval (s : State) (bs : List Byte) : (s.emitTx bs).bcval = s.bcval := rfl
@[simp] theorem emitTx_pMac0 (s : State) (bs : List Byte) : (s.emitTx bs).pMac0 = s.pMac0 := rfl
@[simp] theorem emitTx_pMac1 (s : State) (bs : List Byte) : (s.emitTx bs).pMac1 = s.pMac1 := rfl
@[simp] theorem emitTx_pSecs (s : State) (bs : List Byte) : (s.emitTx bs).pSecs = s.pSecs := rfl
@[simp] theorem emitTx_pGiaddr (s : State) (bs : List Byte) : (s.emitTx bs).pGiaddr = s.pGiaddr := rfl
@[simp] theorem emitTx_pTgtip (s : State) (bs : List Byte) : (s.emitTx bs).pTgtip = s.pTgtip := rfl
@[simp] theorem emitTx_optcnt0 (s : State) (bs : List Byte) : (s.emitTx bs).optcnt0 = s.optcnt0 := rfl
@[simp] theorem emitTx_optcnt1 (s : State) (bs : List Byte) : (s.emitTx bs).optcnt1 = s.optcnt1 := rfl
@[simp] theorem emitTx_mtype (s : State) (bs : List Byte) : (s.emitTx bs).mtype = s.mtype := rfl
@[simp] theorem emitTx_dinfo (s : State) (bs : List Byte) : (s.emitTx bs).dinfo = s.dinfo := rfl
@[simp] theorem emitTx_maxOpts (s : State) (bs : List Byte) : (s.emitTx bs).maxOpts = s.maxOpts := rfl
@[simp] theorem emitTx_mem (s : State) (bs : List Byte) : (s.emitTx bs).mem = s.mem.write txBase bs := rfl
@[simp] theorem emitTx_faults (s : State) (bs : List Byte) : (s.emitTx bs).faults = s.faults := rfl
@[simp] theorem emitTx_taint (s : State) (bs : List Byte) : (s.emitTx bs).taint = s.taint := rfl
@[simp] theorem emitTx_draws (s : State) (bs : List Byte) : (s.emitTx bs).draws = s.draws := rfl
@[simp] theorem emitTx_inbox (s : State) (bs : List Byte) : (s.emitTx bs).inbox = s.inbox := rfl
@[simp] theorem emitTx_resp (s : State) (bs : List Byte) : (s.emitTx bs).resp = s.resp := rfl

/-! ### drawn -/

@[simp] theorem drawn_ie (s : State) : s.drawn.ie = s.ie := rfl
@[simp] theorem drawn_chkCookie (s : State) : s.drawn.chkCookie = s.chkCookie := rfl
@[simp] theorem drawn_done (s : State) : s.drawn.done = s.done := rfl
@[simp] theorem drawn_err (s : State) : s.drawn.err = s.err := rfl
@[simp] theorem drawn_cmdovr (s : State) : s.drawn.cmdovr = s.cmdovr := rfl
@[simp] theorem drawn_mvalid (s : State) : s.drawn.mvalid = s.mvalid := rfl
@[simp] theorem drawn_errcode (s : State) : s.drawn.errcode = s.errcode := rfl
@[simp] theorem drawn_cmd (s : State) : s.drawn.cmd = s.cmd := rfl
@[simp] theorem drawn_pend (s : State) : s.drawn.pend = s.pend := rfl
@[simp] theorem drawn_rxlen (s : State) : s.drawn.rxlen = s.rxlen := rfl
@[simp] theorem drawn_txlen (s : State) : s.drawn.txlen = s.txlen := rfl
@[simp] theorem drawn_xidr (s : State) : s.drawn.xidr = s.xidr := rfl
@[simp] theorem drawn_bcval (s : State) : s.drawn.bcval = s.bcval := rfl
@[simp] theorem drawn_pMac0 (s : State) : s.drawn.pMac0 = s.pMac0 := rfl
@[simp] theorem drawn_pMac1 (s : State) : s.drawn.pMac1 = s.pMac1 := rfl
@[simp] theorem drawn_pSecs (s : State) : s.drawn.pSecs = s.pSecs := rfl
@[simp] theorem drawn_pGiaddr (s : State) : s.drawn.pGiaddr = s.pGiaddr := rfl
@[simp] theorem drawn_pTgtip (s : State) : s.drawn.pTgtip = s.pTgtip := rfl
@[simp] theorem drawn_optcnt0 (s : State) : s.drawn.optcnt0 = s.optcnt0 := rfl
@[simp] theorem drawn_optcnt1 (s : State) : s.drawn.optcnt1 = s.optcnt1 := rfl
@[simp] theorem drawn_mtype (s : State) : s.drawn.mtype = s.mtype := rfl
@[simp] theorem drawn_dinfo (s : State) : s.drawn.dinfo = s.dinfo := rfl
@[simp] theorem drawn_maxOpts (s : State) : s.drawn.maxOpts = s.maxOpts := rfl
@[simp] theorem drawn_mem (s : State) : s.drawn.mem = s.mem := rfl
@[simp] theorem drawn_faults (s : State) : s.drawn.faults = s.faults := rfl
@[simp] theorem drawn_taint (s : State) : s.drawn.taint = s.taint := rfl
@[simp] theorem drawn_draws (s : State) : s.drawn.draws = s.draws + 1 := rfl
@[simp] theorem drawn_inbox (s : State) : s.drawn.inbox = s.inbox := rfl
@[simp] theorem drawn_resp (s : State) : s.drawn.resp = s.resp := rfl

/-! ### mark -/

@[simp] theorem mark_ie (s : State) (f : Fault) : (s.mark f).ie = s.ie := rfl
@[simp] theorem mark_chkCookie (s : State) (f : Fault) : (s.mark f).chkCookie = s.chkCookie := rfl
@[simp] theorem mark_done (s : State) (f : Fault) : (s.mark f).done = s.done := rfl
@[simp] theorem mark_err (s : State) (f : Fault) : (s.mark f).err = s.err := rfl
@[simp] theorem mark_cmdovr (s : State) (f : Fault) : (s.mark f).cmdovr = s.cmdovr := rfl
@[simp] theorem mark_mvalid (s : State) (f : Fault) : (s.mark f).mvalid = s.mvalid := rfl
@[simp] theorem mark_errcode (s : State) (f : Fault) : (s.mark f).errcode = s.errcode := rfl
@[simp] theorem mark_cmd (s : State) (f : Fault) : (s.mark f).cmd = s.cmd := rfl
@[simp] theorem mark_pend (s : State) (f : Fault) : (s.mark f).pend = s.pend := rfl
@[simp] theorem mark_rxlen (s : State) (f : Fault) : (s.mark f).rxlen = s.rxlen := rfl
@[simp] theorem mark_txlen (s : State) (f : Fault) : (s.mark f).txlen = s.txlen := rfl
@[simp] theorem mark_xidr (s : State) (f : Fault) : (s.mark f).xidr = s.xidr := rfl
@[simp] theorem mark_bcval (s : State) (f : Fault) : (s.mark f).bcval = s.bcval := rfl
@[simp] theorem mark_pMac0 (s : State) (f : Fault) : (s.mark f).pMac0 = s.pMac0 := rfl
@[simp] theorem mark_pMac1 (s : State) (f : Fault) : (s.mark f).pMac1 = s.pMac1 := rfl
@[simp] theorem mark_pSecs (s : State) (f : Fault) : (s.mark f).pSecs = s.pSecs := rfl
@[simp] theorem mark_pGiaddr (s : State) (f : Fault) : (s.mark f).pGiaddr = s.pGiaddr := rfl
@[simp] theorem mark_pTgtip (s : State) (f : Fault) : (s.mark f).pTgtip = s.pTgtip := rfl
@[simp] theorem mark_optcnt0 (s : State) (f : Fault) : (s.mark f).optcnt0 = s.optcnt0 := rfl
@[simp] theorem mark_optcnt1 (s : State) (f : Fault) : (s.mark f).optcnt1 = s.optcnt1 := rfl
@[simp] theorem mark_mtype (s : State) (f : Fault) : (s.mark f).mtype = s.mtype := rfl
@[simp] theorem mark_dinfo (s : State) (f : Fault) : (s.mark f).dinfo = s.dinfo := rfl
@[simp] theorem mark_maxOpts (s : State) (f : Fault) : (s.mark f).maxOpts = s.maxOpts := rfl
@[simp] theorem mark_mem (s : State) (f : Fault) : (s.mark f).mem = s.mem := rfl
@[simp] theorem mark_faults (s : State) (f : Fault) : (s.mark f).faults = s.faults.add f := rfl
@[simp] theorem mark_taint (s : State) (f : Fault) : (s.mark f).taint = s.taint := rfl
@[simp] theorem mark_draws (s : State) (f : Fault) : (s.mark f).draws = s.draws := rfl
@[simp] theorem mark_inbox (s : State) (f : Fault) : (s.mark f).inbox = s.inbox := rfl
@[simp] theorem mark_resp (s : State) (f : Fault) : (s.mark f).resp = s.resp := rfl

/-! ### complete -/

@[simp] theorem complete_ie (k : ErrCode) (s : State) : (complete k s).ie = s.ie := rfl
@[simp] theorem complete_chkCookie (k : ErrCode) (s : State) : (complete k s).chkCookie = s.chkCookie := rfl
@[simp] theorem complete_done (k : ErrCode) (s : State) : (complete k s).done = true := rfl
@[simp] theorem complete_err (k : ErrCode) (s : State) : (complete k s).err = decide (k ≠ .none) := rfl
@[simp] theorem complete_cmdovr (k : ErrCode) (s : State) : (complete k s).cmdovr = s.cmdovr := rfl
@[simp] theorem complete_mvalid (k : ErrCode) (s : State) : (complete k s).mvalid = s.mvalid := rfl
@[simp] theorem complete_errcode (k : ErrCode) (s : State) : (complete k s).errcode = k := rfl
@[simp] theorem complete_cmd (k : ErrCode) (s : State) : (complete k s).cmd = s.cmd := rfl
@[simp] theorem complete_pend (k : ErrCode) (s : State) : (complete k s).pend = none := rfl
@[simp] theorem complete_rxlen (k : ErrCode) (s : State) : (complete k s).rxlen = s.rxlen := rfl
@[simp] theorem complete_txlen (k : ErrCode) (s : State) : (complete k s).txlen = s.txlen := rfl
@[simp] theorem complete_xidr (k : ErrCode) (s : State) : (complete k s).xidr = s.xidr := rfl
@[simp] theorem complete_bcval (k : ErrCode) (s : State) : (complete k s).bcval = s.bcval := rfl
@[simp] theorem complete_pMac0 (k : ErrCode) (s : State) : (complete k s).pMac0 = s.pMac0 := rfl
@[simp] theorem complete_pMac1 (k : ErrCode) (s : State) : (complete k s).pMac1 = s.pMac1 := rfl
@[simp] theorem complete_pSecs (k : ErrCode) (s : State) : (complete k s).pSecs = s.pSecs := rfl
@[simp] theorem complete_pGiaddr (k : ErrCode) (s : State) : (complete k s).pGiaddr = s.pGiaddr := rfl
@[simp] theorem complete_pTgtip (k : ErrCode) (s : State) : (complete k s).pTgtip = s.pTgtip := rfl
@[simp] theorem complete_optcnt0 (k : ErrCode) (s : State) : (complete k s).optcnt0 = s.optcnt0 := rfl
@[simp] theorem complete_optcnt1 (k : ErrCode) (s : State) : (complete k s).optcnt1 = s.optcnt1 := rfl
@[simp] theorem complete_mtype (k : ErrCode) (s : State) : (complete k s).mtype = s.mtype := rfl
@[simp] theorem complete_dinfo (k : ErrCode) (s : State) : (complete k s).dinfo = s.dinfo := rfl
@[simp] theorem complete_maxOpts (k : ErrCode) (s : State) : (complete k s).maxOpts = s.maxOpts := rfl
@[simp] theorem complete_mem (k : ErrCode) (s : State) : (complete k s).mem = s.mem := rfl
@[simp] theorem complete_faults (k : ErrCode) (s : State) : (complete k s).faults = s.faults := rfl
@[simp] theorem complete_taint (k : ErrCode) (s : State) : (complete k s).taint = false := rfl
@[simp] theorem complete_draws (k : ErrCode) (s : State) : (complete k s).draws = s.draws := rfl
@[simp] theorem complete_inbox (k : ErrCode) (s : State) : (complete k s).inbox = s.inbox := rfl
@[simp] theorem complete_resp (k : ErrCode) (s : State) : (complete k s).resp = s.resp := rfl

/-! ### finish -/

@[simp] theorem finish_ie (s : State) : (finish s).ie = s.ie := rfl
@[simp] theorem finish_chkCookie (s : State) : (finish s).chkCookie = s.chkCookie := rfl
@[simp] theorem finish_done (s : State) : (finish s).done = true := rfl
@[simp] theorem finish_err (s : State) : (finish s).err = false := rfl
@[simp] theorem finish_cmdovr (s : State) : (finish s).cmdovr = s.cmdovr := rfl
@[simp] theorem finish_mvalid (s : State) : (finish s).mvalid = s.mvalid := rfl
@[simp] theorem finish_errcode (s : State) : (finish s).errcode = .none := rfl
@[simp] theorem finish_cmd (s : State) : (finish s).cmd = s.cmd := rfl
@[simp] theorem finish_pend (s : State) : (finish s).pend = none := rfl
@[simp] theorem finish_rxlen (s : State) : (finish s).rxlen = s.rxlen := rfl
@[simp] theorem finish_txlen (s : State) : (finish s).txlen = s.txlen := rfl
@[simp] theorem finish_xidr (s : State) : (finish s).xidr = s.xidr := rfl
@[simp] theorem finish_bcval (s : State) : (finish s).bcval = s.bcval := rfl
@[simp] theorem finish_pMac0 (s : State) : (finish s).pMac0 = s.pMac0 := rfl
@[simp] theorem finish_pMac1 (s : State) : (finish s).pMac1 = s.pMac1 := rfl
@[simp] theorem finish_pSecs (s : State) : (finish s).pSecs = s.pSecs := rfl
@[simp] theorem finish_pGiaddr (s : State) : (finish s).pGiaddr = s.pGiaddr := rfl
@[simp] theorem finish_pTgtip (s : State) : (finish s).pTgtip = s.pTgtip := rfl
@[simp] theorem finish_optcnt0 (s : State) : (finish s).optcnt0 = s.optcnt0 := rfl
@[simp] theorem finish_optcnt1 (s : State) : (finish s).optcnt1 = s.optcnt1 := rfl
@[simp] theorem finish_mtype (s : State) : (finish s).mtype = s.mtype := rfl
@[simp] theorem finish_dinfo (s : State) : (finish s).dinfo = s.dinfo := rfl
@[simp] theorem finish_maxOpts (s : State) : (finish s).maxOpts = s.maxOpts := rfl
@[simp] theorem finish_mem (s : State) : (finish s).mem = s.mem := rfl
@[simp] theorem finish_faults (s : State) : (finish s).faults = s.faults := rfl
@[simp] theorem finish_taint (s : State) : (finish s).taint = false := rfl
@[simp] theorem finish_draws (s : State) : (finish s).draws = s.draws := rfl
@[simp] theorem finish_inbox (s : State) : (finish s).inbox = s.inbox := rfl
@[simp] theorem finish_resp (s : State) : (finish s).resp = s.resp := rfl

/-! ### fail -/

@[simp] theorem fail_ie (k : ErrCode) (s : State) : (fail k s).ie = s.ie := rfl
@[simp] theorem fail_chkCookie (k : ErrCode) (s : State) : (fail k s).chkCookie = s.chkCookie := rfl
@[simp] theorem fail_done (k : ErrCode) (s : State) : (fail k s).done = true := rfl
@[simp] theorem fail_err (k : ErrCode) (s : State) : (fail k s).err = decide (k ≠ .none) := rfl
@[simp] theorem fail_cmdovr (k : ErrCode) (s : State) : (fail k s).cmdovr = s.cmdovr := rfl
@[simp] theorem fail_mvalid (k : ErrCode) (s : State) : (fail k s).mvalid = s.mvalid := rfl
@[simp] theorem fail_errcode (k : ErrCode) (s : State) : (fail k s).errcode = k := rfl
@[simp] theorem fail_cmd (k : ErrCode) (s : State) : (fail k s).cmd = s.cmd := rfl
@[simp] theorem fail_pend (k : ErrCode) (s : State) : (fail k s).pend = none := rfl
@[simp] theorem fail_rxlen (k : ErrCode) (s : State) : (fail k s).rxlen = s.rxlen := rfl
@[simp] theorem fail_txlen (k : ErrCode) (s : State) : (fail k s).txlen = s.txlen := rfl
@[simp] theorem fail_xidr (k : ErrCode) (s : State) : (fail k s).xidr = s.xidr := rfl
@[simp] theorem fail_bcval (k : ErrCode) (s : State) : (fail k s).bcval = s.bcval := rfl
@[simp] theorem fail_pMac0 (k : ErrCode) (s : State) : (fail k s).pMac0 = s.pMac0 := rfl
@[simp] theorem fail_pMac1 (k : ErrCode) (s : State) : (fail k s).pMac1 = s.pMac1 := rfl
@[simp] theorem fail_pSecs (k : ErrCode) (s : State) : (fail k s).pSecs = s.pSecs := rfl
@[simp] theorem fail_pGiaddr (k : ErrCode) (s : State) : (fail k s).pGiaddr = s.pGiaddr := rfl
@[simp] theorem fail_pTgtip (k : ErrCode) (s : State) : (fail k s).pTgtip = s.pTgtip := rfl
@[simp] theorem fail_optcnt0 (k : ErrCode) (s : State) : (fail k s).optcnt0 = s.optcnt0 := rfl
@[simp] theorem fail_optcnt1 (k : ErrCode) (s : State) : (fail k s).optcnt1 = s.optcnt1 := rfl
@[simp] theorem fail_mtype (k : ErrCode) (s : State) : (fail k s).mtype = s.mtype := rfl
@[simp] theorem fail_dinfo (k : ErrCode) (s : State) : (fail k s).dinfo = s.dinfo := rfl
@[simp] theorem fail_maxOpts (k : ErrCode) (s : State) : (fail k s).maxOpts = s.maxOpts := rfl
@[simp] theorem fail_mem (k : ErrCode) (s : State) : (fail k s).mem = s.mem := rfl
@[simp] theorem fail_faults (k : ErrCode) (s : State) : (fail k s).faults = s.faults := rfl
@[simp] theorem fail_taint (k : ErrCode) (s : State) : (fail k s).taint = false := rfl
@[simp] theorem fail_draws (k : ErrCode) (s : State) : (fail k s).draws = s.draws := rfl
@[simp] theorem fail_inbox (k : ErrCode) (s : State) : (fail k s).inbox = s.inbox := rfl
@[simp] theorem fail_resp (k : ErrCode) (s : State) : (fail k s).resp = s.resp := rfl

/-! ### resetBlock -/

@[simp] theorem resetBlock_ie (s : State) : (resetBlock s).ie = State.reset.ie := rfl
@[simp] theorem resetBlock_chkCookie (s : State) : (resetBlock s).chkCookie = State.reset.chkCookie := rfl
@[simp] theorem resetBlock_done (s : State) : (resetBlock s).done = State.reset.done := rfl
@[simp] theorem resetBlock_err (s : State) : (resetBlock s).err = State.reset.err := rfl
@[simp] theorem resetBlock_cmdovr (s : State) : (resetBlock s).cmdovr = State.reset.cmdovr := rfl
@[simp] theorem resetBlock_mvalid (s : State) : (resetBlock s).mvalid = State.reset.mvalid := rfl
@[simp] theorem resetBlock_errcode (s : State) : (resetBlock s).errcode = State.reset.errcode := rfl
@[simp] theorem resetBlock_cmd (s : State) : (resetBlock s).cmd = State.reset.cmd := rfl
@[simp] theorem resetBlock_pend (s : State) : (resetBlock s).pend = State.reset.pend := rfl
@[simp] theorem resetBlock_rxlen (s : State) : (resetBlock s).rxlen = State.reset.rxlen := rfl
@[simp] theorem resetBlock_txlen (s : State) : (resetBlock s).txlen = State.reset.txlen := rfl
@[simp] theorem resetBlock_xidr (s : State) : (resetBlock s).xidr = State.reset.xidr := rfl
@[simp] theorem resetBlock_bcval (s : State) : (resetBlock s).bcval = State.reset.bcval := rfl
@[simp] theorem resetBlock_pMac0 (s : State) : (resetBlock s).pMac0 = State.reset.pMac0 := rfl
@[simp] theorem resetBlock_pMac1 (s : State) : (resetBlock s).pMac1 = State.reset.pMac1 := rfl
@[simp] theorem resetBlock_pSecs (s : State) : (resetBlock s).pSecs = State.reset.pSecs := rfl
@[simp] theorem resetBlock_pGiaddr (s : State) : (resetBlock s).pGiaddr = State.reset.pGiaddr := rfl
@[simp] theorem resetBlock_pTgtip (s : State) : (resetBlock s).pTgtip = State.reset.pTgtip := rfl
@[simp] theorem resetBlock_optcnt0 (s : State) : (resetBlock s).optcnt0 = State.reset.optcnt0 := rfl
@[simp] theorem resetBlock_optcnt1 (s : State) : (resetBlock s).optcnt1 = State.reset.optcnt1 := rfl
@[simp] theorem resetBlock_mtype (s : State) : (resetBlock s).mtype = State.reset.mtype := rfl
@[simp] theorem resetBlock_dinfo (s : State) : (resetBlock s).dinfo = State.reset.dinfo := rfl
@[simp] theorem resetBlock_maxOpts (s : State) : (resetBlock s).maxOpts = s.maxOpts := rfl
@[simp] theorem resetBlock_mem (s : State) : (resetBlock s).mem = Memory.allUnspec s.draws := rfl
@[simp] theorem resetBlock_faults (s : State) : (resetBlock s).faults = s.faults := rfl
@[simp] theorem resetBlock_taint (s : State) : (resetBlock s).taint = State.reset.taint := rfl
@[simp] theorem resetBlock_draws (s : State) : (resetBlock s).draws = s.draws + 1 := rfl
@[simp] theorem resetBlock_inbox (s : State) : (resetBlock s).inbox = s.inbox := rfl
@[simp] theorem resetBlock_resp (s : State) : (resetBlock s).resp = s.resp := rfl

/-! ### popped -/

@[simp] theorem popped_ie (s : State) : s.popped.ie = s.ie := rfl
@[simp] theorem popped_chkCookie (s : State) : s.popped.chkCookie = s.chkCookie := rfl
@[simp] theorem popped_done (s : State) : s.popped.done = s.done := rfl
@[simp] theorem popped_err (s : State) : s.popped.err = s.err := rfl
@[simp] theorem popped_cmdovr (s : State) : s.popped.cmdovr = s.cmdovr := rfl
@[simp] theorem popped_mvalid (s : State) : s.popped.mvalid = s.mvalid := rfl
@[simp] theorem popped_errcode (s : State) : s.popped.errcode = s.errcode := rfl
@[simp] theorem popped_cmd (s : State) : s.popped.cmd = s.cmd := rfl
@[simp] theorem popped_pend (s : State) : s.popped.pend = s.pend := rfl
@[simp] theorem popped_rxlen (s : State) : s.popped.rxlen = s.rxlen := rfl
@[simp] theorem popped_txlen (s : State) : s.popped.txlen = s.txlen := rfl
@[simp] theorem popped_xidr (s : State) : s.popped.xidr = s.xidr := rfl
@[simp] theorem popped_bcval (s : State) : s.popped.bcval = s.bcval := rfl
@[simp] theorem popped_pMac0 (s : State) : s.popped.pMac0 = s.pMac0 := rfl
@[simp] theorem popped_pMac1 (s : State) : s.popped.pMac1 = s.pMac1 := rfl
@[simp] theorem popped_pSecs (s : State) : s.popped.pSecs = s.pSecs := rfl
@[simp] theorem popped_pGiaddr (s : State) : s.popped.pGiaddr = s.pGiaddr := rfl
@[simp] theorem popped_pTgtip (s : State) : s.popped.pTgtip = s.pTgtip := rfl
@[simp] theorem popped_optcnt0 (s : State) : s.popped.optcnt0 = s.optcnt0 := rfl
@[simp] theorem popped_optcnt1 (s : State) : s.popped.optcnt1 = s.optcnt1 := rfl
@[simp] theorem popped_mtype (s : State) : s.popped.mtype = s.mtype := rfl
@[simp] theorem popped_dinfo (s : State) : s.popped.dinfo = s.dinfo := rfl
@[simp] theorem popped_maxOpts (s : State) : s.popped.maxOpts = s.maxOpts := rfl
@[simp] theorem popped_mem (s : State) : s.popped.mem = s.mem := rfl
@[simp] theorem popped_faults (s : State) : s.popped.faults = s.faults := rfl
@[simp] theorem popped_taint (s : State) : s.popped.taint = s.taint := rfl
@[simp] theorem popped_draws (s : State) : s.popped.draws = s.draws := rfl
@[simp] theorem popped_inbox (s : State) : s.popped.inbox = s.inbox.tail := rfl
@[simp] theorem popped_resp (s : State) : s.popped.resp = s.resp := rfl

/-! ### setCnt -/

@[simp] theorem setCnt_ie (s : State) (b : Bank) (v : Byte) : (s.setCnt b v).ie = s.ie := by cases b <;> rfl
@[simp] theorem setCnt_chkCookie (s : State) (b : Bank) (v : Byte) : (s.setCnt b v).chkCookie = s.chkCookie := by cases b <;> rfl
@[simp] theorem setCnt_done (s : State) (b : Bank) (v : Byte) : (s.setCnt b v).done = s.done := by cases b <;> rfl
@[simp] theorem setCnt_err (s : State) (b : Bank) (v : Byte) : (s.setCnt b v).err = s.err := by cases b <;> rfl
@[simp] theorem setCnt_cmdovr (s : State) (b : Bank) (v : Byte) : (s.setCnt b v).cmdovr = s.cmdovr := by cases b <;> rfl
@[simp] theorem setCnt_mvalid (s : State) (b : Bank) (v : Byte) : (s.setCnt b v).mvalid = s.mvalid := by cases b <;> rfl
@[simp] theorem setCnt_errcode (s : State) (b : Bank) (v : Byte) : (s.setCnt b v).errcode = s.errcode := by cases b <;> rfl
@[simp] theorem setCnt_cmd (s : State) (b : Bank) (v : Byte) : (s.setCnt b v).cmd = s.cmd := by cases b <;> rfl
@[simp] theorem setCnt_pend (s : State) (b : Bank) (v : Byte) : (s.setCnt b v).pend = s.pend := by cases b <;> rfl
@[simp] theorem setCnt_rxlen (s : State) (b : Bank) (v : Byte) : (s.setCnt b v).rxlen = s.rxlen := by cases b <;> rfl
@[simp] theorem setCnt_txlen (s : State) (b : Bank) (v : Byte) : (s.setCnt b v).txlen = s.txlen := by cases b <;> rfl
@[simp] theorem setCnt_xidr (s : State) (b : Bank) (v : Byte) : (s.setCnt b v).xidr = s.xidr := by cases b <;> rfl
@[simp] theorem setCnt_bcval (s : State) (b : Bank) (v : Byte) : (s.setCnt b v).bcval = s.bcval := by cases b <;> rfl
@[simp] theorem setCnt_pMac0 (s : State) (b : Bank) (v : Byte) : (s.setCnt b v).pMac0 = s.pMac0 := by cases b <;> rfl
@[simp] theorem setCnt_pMac1 (s : State) (b : Bank) (v : Byte) : (s.setCnt b v).pMac1 = s.pMac1 := by cases b <;> rfl
@[simp] theorem setCnt_pSecs (s : State) (b : Bank) (v : Byte) : (s.setCnt b v).pSecs = s.pSecs := by cases b <;> rfl
@[simp] theorem setCnt_pGiaddr (s : State) (b : Bank) (v : Byte) : (s.setCnt b v).pGiaddr = s.pGiaddr := by cases b <;> rfl
@[simp] theorem setCnt_pTgtip (s : State) (b : Bank) (v : Byte) : (s.setCnt b v).pTgtip = s.pTgtip := by cases b <;> rfl
@[simp] theorem setCnt_mtype (s : State) (b : Bank) (v : Byte) : (s.setCnt b v).mtype = s.mtype := by cases b <;> rfl
@[simp] theorem setCnt_dinfo (s : State) (b : Bank) (v : Byte) : (s.setCnt b v).dinfo = s.dinfo := by cases b <;> rfl
@[simp] theorem setCnt_maxOpts (s : State) (b : Bank) (v : Byte) : (s.setCnt b v).maxOpts = s.maxOpts := by cases b <;> rfl
@[simp] theorem setCnt_mem (s : State) (b : Bank) (v : Byte) : (s.setCnt b v).mem = s.mem := by cases b <;> rfl
@[simp] theorem setCnt_faults (s : State) (b : Bank) (v : Byte) : (s.setCnt b v).faults = s.faults := by cases b <;> rfl
@[simp] theorem setCnt_taint (s : State) (b : Bank) (v : Byte) : (s.setCnt b v).taint = s.taint := by cases b <;> rfl
@[simp] theorem setCnt_draws (s : State) (b : Bank) (v : Byte) : (s.setCnt b v).draws = s.draws := by cases b <;> rfl
@[simp] theorem setCnt_inbox (s : State) (b : Bank) (v : Byte) : (s.setCnt b v).inbox = s.inbox := by cases b <;> rfl
@[simp] theorem setCnt_resp (s : State) (b : Bank) (v : Byte) : (s.setCnt b v).resp = s.resp := by cases b <;> rfl

@[simp] theorem cnt_setCnt (s : State) (b : Bank) (v : Byte) : (s.setCnt b v).cnt b = v.toNat := by cases b <;> rfl

theorem cnt_setCnt_ne (s : State) (b c : Bank) (v : Byte) (h : c ≠ b) : (s.setCnt b v).cnt c = s.cnt c := by
  cases b <;> cases c <;> first | rfl | exact absurd rfl h

/-! ### commitMessage -/

@[simp] theorem commitMessage_ie (hdr : List Byte) (l : List Entry) (s : State) : (commitMessage hdr l s).ie = s.ie := by simp [commitMessage]
@[simp] theorem commitMessage_chkCookie (hdr : List Byte) (l : List Entry) (s : State) : (commitMessage hdr l s).chkCookie = s.chkCookie := by simp [commitMessage]
@[simp] theorem commitMessage_done (hdr : List Byte) (l : List Entry) (s : State) : (commitMessage hdr l s).done = s.done := by simp [commitMessage]
@[simp] theorem commitMessage_err (hdr : List Byte) (l : List Entry) (s : State) : (commitMessage hdr l s).err = s.err := by simp [commitMessage]
@[simp] theorem commitMessage_cmdovr (hdr : List Byte) (l : List Entry) (s : State) : (commitMessage hdr l s).cmdovr = s.cmdovr := by simp [commitMessage]
@[simp] theorem commitMessage_mvalid (hdr : List Byte) (l : List Entry) (s : State) : (commitMessage hdr l s).mvalid = true := by simp [commitMessage]
@[simp] theorem commitMessage_errcode (hdr : List Byte) (l : List Entry) (s : State) : (commitMessage hdr l s).errcode = s.errcode := by simp [commitMessage]
@[simp] theorem commitMessage_cmd (hdr : List Byte) (l : List Entry) (s : State) : (commitMessage hdr l s).cmd = s.cmd := by simp [commitMessage]
@[simp] theorem commitMessage_pend (hdr : List Byte) (l : List Entry) (s : State) : (commitMessage hdr l s).pend = s.pend := by simp [commitMessage]
@[simp] theorem commitMessage_rxlen (hdr : List Byte) (l : List Entry) (s : State) : (commitMessage hdr l s).rxlen = s.rxlen := by simp [commitMessage]
@[simp] theorem commitMessage_txlen (hdr : List Byte) (l : List Entry) (s : State) : (commitMessage hdr l s).txlen = s.txlen := by simp [commitMessage]
@[simp] theorem commitMessage_xidr (hdr : List Byte) (l : List Entry) (s : State) : (commitMessage hdr l s).xidr = s.xidr := by simp [commitMessage]
@[simp] theorem commitMessage_bcval (hdr : List Byte) (l : List Entry) (s : State) : (commitMessage hdr l s).bcval = s.bcval := by simp [commitMessage]
@[simp] theorem commitMessage_pMac0 (hdr : List Byte) (l : List Entry) (s : State) : (commitMessage hdr l s).pMac0 = s.pMac0 := by simp [commitMessage]
@[simp] theorem commitMessage_pMac1 (hdr : List Byte) (l : List Entry) (s : State) : (commitMessage hdr l s).pMac1 = s.pMac1 := by simp [commitMessage]
@[simp] theorem commitMessage_pSecs (hdr : List Byte) (l : List Entry) (s : State) : (commitMessage hdr l s).pSecs = s.pSecs := by simp [commitMessage]
@[simp] theorem commitMessage_pGiaddr (hdr : List Byte) (l : List Entry) (s : State) : (commitMessage hdr l s).pGiaddr = s.pGiaddr := by simp [commitMessage]
@[simp] theorem commitMessage_pTgtip (hdr : List Byte) (l : List Entry) (s : State) : (commitMessage hdr l s).pTgtip = s.pTgtip := by simp [commitMessage]
@[simp] theorem commitMessage_optcnt0 (hdr : List Byte) (l : List Entry) (s : State) : (commitMessage hdr l s).optcnt0 = BitVec.ofNat 8 l.length := by simp [commitMessage]
@[simp] theorem commitMessage_optcnt1 (hdr : List Byte) (l : List Entry) (s : State) : (commitMessage hdr l s).optcnt1 = s.optcnt1 := by simp [commitMessage]
@[simp] theorem commitMessage_mtype (hdr : List Byte) (l : List Entry) (s : State) : (commitMessage hdr l s).mtype = mtypeOf l := by simp [commitMessage]
@[simp] theorem commitMessage_dinfo (hdr : List Byte) (l : List Entry) (s : State) : (commitMessage hdr l s).dinfo = s.dinfo := by simp [commitMessage]
@[simp] theorem commitMessage_maxOpts (hdr : List Byte) (l : List Entry) (s : State) : (commitMessage hdr l s).maxOpts = s.maxOpts := by simp [commitMessage]
@[simp] theorem commitMessage_mem (hdr : List Byte) (l : List Entry) (s : State) : (commitMessage hdr l s).mem = ((s.mem.write hdrBase hdr).havoc (optBase .bank0) (entryStride * s.maxOpts) s.draws).writeEntries .bank0 0 l := by simp [commitMessage]
@[simp] theorem commitMessage_faults (hdr : List Byte) (l : List Entry) (s : State) : (commitMessage hdr l s).faults = s.faults := by simp [commitMessage]
@[simp] theorem commitMessage_taint (hdr : List Byte) (l : List Entry) (s : State) : (commitMessage hdr l s).taint = s.taint := by simp [commitMessage]
@[simp] theorem commitMessage_draws (hdr : List Byte) (l : List Entry) (s : State) : (commitMessage hdr l s).draws = s.draws + 1 := by simp [commitMessage]
@[simp] theorem commitMessage_inbox (hdr : List Byte) (l : List Entry) (s : State) : (commitMessage hdr l s).inbox = s.inbox := by simp [commitMessage]
@[simp] theorem commitMessage_resp (hdr : List Byte) (l : List Entry) (s : State) : (commitMessage hdr l s).resp = s.resp := by simp [commitMessage]

/-! ### decCommit -/

@[simp] theorem decCommit_ie (hdr : List Byte) (r : OptionScan) (s : State) : (decCommit hdr r s).ie = s.ie := by simp [decCommit]
@[simp] theorem decCommit_chkCookie (hdr : List Byte) (r : OptionScan) (s : State) : (decCommit hdr r s).chkCookie = s.chkCookie := by simp [decCommit]
@[simp] theorem decCommit_done (hdr : List Byte) (r : OptionScan) (s : State) : (decCommit hdr r s).done = true := by simp [decCommit]
@[simp] theorem decCommit_err (hdr : List Byte) (r : OptionScan) (s : State) : (decCommit hdr r s).err = false := by simp [decCommit]
@[simp] theorem decCommit_cmdovr (hdr : List Byte) (r : OptionScan) (s : State) : (decCommit hdr r s).cmdovr = s.cmdovr := by simp [decCommit]
@[simp] theorem decCommit_mvalid (hdr : List Byte) (r : OptionScan) (s : State) : (decCommit hdr r s).mvalid = true := by simp [decCommit]
@[simp] theorem decCommit_errcode (hdr : List Byte) (r : OptionScan) (s : State) : (decCommit hdr r s).errcode = .none := by simp [decCommit]
@[simp] theorem decCommit_cmd (hdr : List Byte) (r : OptionScan) (s : State) : (decCommit hdr r s).cmd = s.cmd := by simp [decCommit]
@[simp] theorem decCommit_pend (hdr : List Byte) (r : OptionScan) (s : State) : (decCommit hdr r s).pend = none := by simp [decCommit]
@[simp] theorem decCommit_rxlen (hdr : List Byte) (r : OptionScan) (s : State) : (decCommit hdr r s).rxlen = s.rxlen := by simp [decCommit]
@[simp] theorem decCommit_txlen (hdr : List Byte) (r : OptionScan) (s : State) : (decCommit hdr r s).txlen = s.txlen := by simp [decCommit]
@[simp] theorem decCommit_xidr (hdr : List Byte) (r : OptionScan) (s : State) : (decCommit hdr r s).xidr = s.xidr := by simp [decCommit]
@[simp] theorem decCommit_bcval (hdr : List Byte) (r : OptionScan) (s : State) : (decCommit hdr r s).bcval = s.bcval := by simp [decCommit]
@[simp] theorem decCommit_pMac0 (hdr : List Byte) (r : OptionScan) (s : State) : (decCommit hdr r s).pMac0 = s.pMac0 := by simp [decCommit]
@[simp] theorem decCommit_pMac1 (hdr : List Byte) (r : OptionScan) (s : State) : (decCommit hdr r s).pMac1 = s.pMac1 := by simp [decCommit]
@[simp] theorem decCommit_pSecs (hdr : List Byte) (r : OptionScan) (s : State) : (decCommit hdr r s).pSecs = s.pSecs := by simp [decCommit]
@[simp] theorem decCommit_pGiaddr (hdr : List Byte) (r : OptionScan) (s : State) : (decCommit hdr r s).pGiaddr = s.pGiaddr := by simp [decCommit]
@[simp] theorem decCommit_pTgtip (hdr : List Byte) (r : OptionScan) (s : State) : (decCommit hdr r s).pTgtip = s.pTgtip := by simp [decCommit]
@[simp] theorem decCommit_optcnt0 (hdr : List Byte) (r : OptionScan) (s : State) : (decCommit hdr r s).optcnt0 = BitVec.ofNat 8 r.opts.length := by simp [decCommit]
@[simp] theorem decCommit_optcnt1 (hdr : List Byte) (r : OptionScan) (s : State) : (decCommit hdr r s).optcnt1 = s.optcnt1 := by simp [decCommit]
@[simp] theorem decCommit_mtype (hdr : List Byte) (r : OptionScan) (s : State) : (decCommit hdr r s).mtype = mtypeOf r.opts := by simp [decCommit]
@[simp] theorem decCommit_dinfo (hdr : List Byte) (r : OptionScan) (s : State) : (decCommit hdr r s).dinfo = ⟨r.stat, r.ucode, BitVec.ofNat 13 r.stop⟩ := by simp [decCommit]
@[simp] theorem decCommit_maxOpts (hdr : List Byte) (r : OptionScan) (s : State) : (decCommit hdr r s).maxOpts = s.maxOpts := by simp [decCommit]
@[simp] theorem decCommit_mem (hdr : List Byte) (r : OptionScan) (s : State) : (decCommit hdr r s).mem = ((s.mem.write hdrBase hdr).havoc (optBase .bank0) (entryStride * s.maxOpts) s.draws).writeEntries .bank0 0 r.opts := by simp [decCommit]
@[simp] theorem decCommit_faults (hdr : List Byte) (r : OptionScan) (s : State) : (decCommit hdr r s).faults = s.faults := by simp [decCommit]
@[simp] theorem decCommit_taint (hdr : List Byte) (r : OptionScan) (s : State) : (decCommit hdr r s).taint = false := by simp [decCommit]
@[simp] theorem decCommit_draws (hdr : List Byte) (r : OptionScan) (s : State) : (decCommit hdr r s).draws = s.draws + 1 := by simp [decCommit]
@[simp] theorem decCommit_inbox (hdr : List Byte) (r : OptionScan) (s : State) : (decCommit hdr r s).inbox = s.inbox := by simp [decCommit]
@[simp] theorem decCommit_resp (hdr : List Byte) (r : OptionScan) (s : State) : (decCommit hdr r s).resp = s.resp := by simp [decCommit]

/-! ### decFail -/

@[simp] theorem decFail_ie (f : DecodeFailure) (s : State) : (decFail f s).ie = s.ie := by simp [decFail]
@[simp] theorem decFail_chkCookie (f : DecodeFailure) (s : State) : (decFail f s).chkCookie = s.chkCookie := by simp [decFail]
@[simp] theorem decFail_done (f : DecodeFailure) (s : State) : (decFail f s).done = true := by simp [decFail]
@[simp] theorem decFail_err (f : DecodeFailure) (s : State) : (decFail f s).err = decide (f.code ≠ .none) := by simp [decFail]
@[simp] theorem decFail_cmdovr (f : DecodeFailure) (s : State) : (decFail f s).cmdovr = s.cmdovr := by simp [decFail]
@[simp] theorem decFail_mvalid (f : DecodeFailure) (s : State) : (decFail f s).mvalid = false := by simp [decFail]
@[simp] theorem decFail_errcode (f : DecodeFailure) (s : State) : (decFail f s).errcode = f.code := by simp [decFail]
@[simp] theorem decFail_cmd (f : DecodeFailure) (s : State) : (decFail f s).cmd = s.cmd := by simp [decFail]
@[simp] theorem decFail_pend (f : DecodeFailure) (s : State) : (decFail f s).pend = none := by simp [decFail]
@[simp] theorem decFail_rxlen (f : DecodeFailure) (s : State) : (decFail f s).rxlen = s.rxlen := by simp [decFail]
@[simp] theorem decFail_txlen (f : DecodeFailure) (s : State) : (decFail f s).txlen = s.txlen := by simp [decFail]
@[simp] theorem decFail_xidr (f : DecodeFailure) (s : State) : (decFail f s).xidr = s.xidr := by simp [decFail]
@[simp] theorem decFail_bcval (f : DecodeFailure) (s : State) : (decFail f s).bcval = s.bcval := by simp [decFail]
@[simp] theorem decFail_pMac0 (f : DecodeFailure) (s : State) : (decFail f s).pMac0 = s.pMac0 := by simp [decFail]
@[simp] theorem decFail_pMac1 (f : DecodeFailure) (s : State) : (decFail f s).pMac1 = s.pMac1 := by simp [decFail]
@[simp] theorem decFail_pSecs (f : DecodeFailure) (s : State) : (decFail f s).pSecs = s.pSecs := by simp [decFail]
@[simp] theorem decFail_pGiaddr (f : DecodeFailure) (s : State) : (decFail f s).pGiaddr = s.pGiaddr := by simp [decFail]
@[simp] theorem decFail_pTgtip (f : DecodeFailure) (s : State) : (decFail f s).pTgtip = s.pTgtip := by simp [decFail]
@[simp] theorem decFail_optcnt0 (f : DecodeFailure) (s : State) : (decFail f s).optcnt0 = 0 := by simp [decFail]
@[simp] theorem decFail_optcnt1 (f : DecodeFailure) (s : State) : (decFail f s).optcnt1 = s.optcnt1 := by simp [decFail]
@[simp] theorem decFail_mtype (f : DecodeFailure) (s : State) : (decFail f s).mtype = ⟨0, false⟩ := by simp [decFail]
@[simp] theorem decFail_dinfo (f : DecodeFailure) (s : State) : (decFail f s).dinfo = ⟨.failed, 0, BitVec.ofNat 13 f.stop⟩ := by simp [decFail]
@[simp] theorem decFail_maxOpts (f : DecodeFailure) (s : State) : (decFail f s).maxOpts = s.maxOpts := by simp [decFail]
@[simp] theorem decFail_mem (f : DecodeFailure) (s : State) : (decFail f s).mem = (s.mem.havoc hdrBase hdrSize s.draws).havoc (optBase .bank0) (entryStride * s.maxOpts) (s.draws + 1) := by simp [decFail]
@[simp] theorem decFail_faults (f : DecodeFailure) (s : State) : (decFail f s).faults = s.faults := by simp [decFail]
@[simp] theorem decFail_taint (f : DecodeFailure) (s : State) : (decFail f s).taint = false := by simp [decFail]
@[simp] theorem decFail_draws (f : DecodeFailure) (s : State) : (decFail f s).draws = s.draws + 2 := by simp [decFail]
@[simp] theorem decFail_inbox (f : DecodeFailure) (s : State) : (decFail f s).inbox = s.inbox := by simp [decFail]
@[simp] theorem decFail_resp (f : DecodeFailure) (s : State) : (decFail f s).resp = s.resp := by simp [decFail]

/-! ### encFail -/

@[simp] theorem encFail_ie (k : ErrCode) (s : State) : (encFail k s).ie = s.ie := by simp [encFail]
@[simp] theorem encFail_chkCookie (k : ErrCode) (s : State) : (encFail k s).chkCookie = s.chkCookie := by simp [encFail]
@[simp] theorem encFail_done (k : ErrCode) (s : State) : (encFail k s).done = true := by simp [encFail]
@[simp] theorem encFail_err (k : ErrCode) (s : State) : (encFail k s).err = decide (k ≠ .none) := by simp [encFail]
@[simp] theorem encFail_cmdovr (k : ErrCode) (s : State) : (encFail k s).cmdovr = s.cmdovr := by simp [encFail]
@[simp] theorem encFail_mvalid (k : ErrCode) (s : State) : (encFail k s).mvalid = s.mvalid := by simp [encFail]
@[simp] theorem encFail_errcode (k : ErrCode) (s : State) : (encFail k s).errcode = k := by simp [encFail]
@[simp] theorem encFail_cmd (k : ErrCode) (s : State) : (encFail k s).cmd = s.cmd := by simp [encFail]
@[simp] theorem encFail_pend (k : ErrCode) (s : State) : (encFail k s).pend = none := by simp [encFail]
@[simp] theorem encFail_rxlen (k : ErrCode) (s : State) : (encFail k s).rxlen = s.rxlen := by simp [encFail]
@[simp] theorem encFail_txlen (k : ErrCode) (s : State) : (encFail k s).txlen = 0 := by simp [encFail]
@[simp] theorem encFail_xidr (k : ErrCode) (s : State) : (encFail k s).xidr = s.xidr := by simp [encFail]
@[simp] theorem encFail_bcval (k : ErrCode) (s : State) : (encFail k s).bcval = s.bcval := by simp [encFail]
@[simp] theorem encFail_pMac0 (k : ErrCode) (s : State) : (encFail k s).pMac0 = s.pMac0 := by simp [encFail]
@[simp] theorem encFail_pMac1 (k : ErrCode) (s : State) : (encFail k s).pMac1 = s.pMac1 := by simp [encFail]
@[simp] theorem encFail_pSecs (k : ErrCode) (s : State) : (encFail k s).pSecs = s.pSecs := by simp [encFail]
@[simp] theorem encFail_pGiaddr (k : ErrCode) (s : State) : (encFail k s).pGiaddr = s.pGiaddr := by simp [encFail]
@[simp] theorem encFail_pTgtip (k : ErrCode) (s : State) : (encFail k s).pTgtip = s.pTgtip := by simp [encFail]
@[simp] theorem encFail_optcnt0 (k : ErrCode) (s : State) : (encFail k s).optcnt0 = s.optcnt0 := by simp [encFail]
@[simp] theorem encFail_optcnt1 (k : ErrCode) (s : State) : (encFail k s).optcnt1 = s.optcnt1 := by simp [encFail]
@[simp] theorem encFail_mtype (k : ErrCode) (s : State) : (encFail k s).mtype = s.mtype := by simp [encFail]
@[simp] theorem encFail_dinfo (k : ErrCode) (s : State) : (encFail k s).dinfo = s.dinfo := by simp [encFail]
@[simp] theorem encFail_maxOpts (k : ErrCode) (s : State) : (encFail k s).maxOpts = s.maxOpts := by simp [encFail]
@[simp] theorem encFail_mem (k : ErrCode) (s : State) : (encFail k s).mem = s.mem.havoc txBase Config.bufBytes s.draws := by simp [encFail]
@[simp] theorem encFail_faults (k : ErrCode) (s : State) : (encFail k s).faults = s.faults := by simp [encFail]
@[simp] theorem encFail_taint (k : ErrCode) (s : State) : (encFail k s).taint = false := by simp [encFail]
@[simp] theorem encFail_draws (k : ErrCode) (s : State) : (encFail k s).draws = s.draws + 1 := by simp [encFail]
@[simp] theorem encFail_inbox (k : ErrCode) (s : State) : (encFail k s).inbox = s.inbox := by simp [encFail]
@[simp] theorem encFail_resp (k : ErrCode) (s : State) : (encFail k s).resp = s.resp := by simp [encFail]

end Sys2Proof.Machine
end

