-- ==== Sys2Proof/Laws/Memory.lean ====
section
/-! SUPPORT. The laws of the byte storage: a read after a write or after a range was made UNSPEC, the canonical form,
and the entries of a bank. -/

namespace Sys2Proof.Machine

theorem inRange_iff {base size a : Nat} : inRange base size a = true ↔ base ≤ a ∧ a < base + size := by
  simp [inRange]

theorem inRange_false_iff {base size a : Nat} : inRange base size a = false ↔ a < base ∨ base + size ≤ a := by
  rw [← Bool.not_eq_true, inRange_iff]; omega

/-! ## Cells -/

theorem mem_cellsAt {a : Nat} {bs : List Byte} {c : Host.Cell} (h : c ∈ cellsAt a bs) : a ≤ c.1 ∧ c.1 < a + bs.length := by
  induction bs generalizing a with
  | nil => cases h
  | cons b bs ih =>
    simp only [cellsAt, List.mem_cons] at h
    rcases h with rfl | h
    · simp
    · have := ih h; simp only [List.length_cons]; omega

theorem cellsAt_pairwise (a : Nat) (bs : List Byte) : (cellsAt a bs).Pairwise fun c d => c.1 < d.1 := by
  induction bs generalizing a with
  | nil => exact .nil
  | cons b bs ih => exact .cons (fun c hc => by have := mem_cellsAt hc; omega) (ih (a + 1))

theorem lookup_cellsAt (a : Nat) (bs : List Byte) (x : Nat) :
    (cellsAt a bs).lookup x = if a ≤ x then bs[x - a]? else none := by
  induction bs generalizing a with
  | nil => simp [cellsAt]
  | cons b bs ih =>
    simp only [cellsAt, List.lookup_cons, ih]
    rcases Nat.lt_trichotomy x a with h | rfl | h
    · have h1 : (x == a) = false := by simp; omega
      simp only [h1]
      rw [if_neg (by omega), if_neg (by omega)]
    · simp
    · have h1 : (x == a) = false := by simp; omega
      simp only [h1]
      rw [if_pos (by omega), if_pos (by omega), show x - a = (x - (a + 1)) + 1 by omega, List.getElem?_cons_succ]

theorem lookup_filter (l : List Host.Cell) (p : Nat → Bool) (x : Nat) :
    (l.filter fun c => p c.1).lookup x = if p x then l.lookup x else none := by
  induction l with
  | nil => simp
  | cons c l ih =>
    obtain ⟨y, v⟩ := c
    by_cases hx : x = y
    · subst hx
      cases hp : p x <;> simp [hp, ih]
    · have hb : (x == y) = false := by simp [hx]
      cases hp : p y <;> simp [hp, List.lookup_cons, hb, ih]

/-! ## Reads -/

theorem drawAt_write (m : Memory) (a : Nat) (bs : List Byte) (x : Nat) : (m.write a bs).drawAt x = m.drawAt x := rfl

theorem written_write (m : Memory) (a : Nat) (bs : List Byte) (x : Nat) :
    (m.write a bs).written x = if a ≤ x ∧ x < a + bs.length then bs[x - a]? else m.written x := by
  simp only [Memory.written, Memory.write, List.lookup_append, lookup_cellsAt]
  rw [lookup_filter m.cells (fun y => decide (y < a)), lookup_filter m.cells (fun y => decide (a + bs.length ≤ y))]
  rcases Nat.lt_or_ge x a with h | h
  · have : ¬ a ≤ x := by omega
    have h3 : ¬ a + bs.length ≤ x := by omega
    simp [h, this, h3]
  · have h1 : ¬ x < a := by omega
    rcases Nat.lt_or_ge x (a + bs.length) with h2 | h2
    · have h3 : ¬ a + bs.length ≤ x := by omega
      simp [h, h1, h2, h3]
    · have h3 : ¬ x < a + bs.length := by omega
      have h4 : bs[x - a]? = none := List.getElem?_eq_none (by omega)
      simp [h, h1, h2, h3, h4]

/-- A read after a write: the written byte inside the written range, the old byte outside it. -/
theorem read_write (m : Memory) (a : Nat) (bs : List Byte) (x : Nat) :
    (m.write a bs).read x = if h : a ≤ x ∧ x < a + bs.length then bs[x - a]'(by omega) else m.read x := by
  simp only [Memory.read, Memory.unlisted, drawAt_write, written_write]
  by_cases h : a ≤ x ∧ x < a + bs.length
  · simp [h, List.getElem?_eq_getElem (show x - a < bs.length by omega)]
  · simp [h]

theorem read_write_outside {m : Memory} {a x : Nat} {bs : List Byte} (h : x < a ∨ a + bs.length ≤ x) :
    (m.write a bs).read x = m.read x := by
  rw [read_write, dif_neg (by omega)]

theorem read_write_at {m : Memory} {a k : Nat} {bs : List Byte} (h : k < bs.length) :
    (m.write a bs).read (a + k) = bs[k] := by
  rw [read_write, dif_pos (by omega)]; simp

theorem find?_filter_of_imp {α : Type} (l : List α) (p q : α → Bool) (h : ∀ r ∈ l, q r = true → p r = true) :
    (l.filter p).find? q = l.find? q := by
  induction l with
  | nil => rfl
  | cons r l ih =>
    have ih := ih fun r hr => h r (List.mem_cons_of_mem _ hr)
    by_cases hq : q r = true
    · simp [h r (List.mem_cons_self ..) hq, hq]
    · by_cases hp : p r = true
      · simp [hp, hq, ih]
      · simp [hp, hq, ih]

theorem drawAt_havoc (m : Memory) (base size draw x : Nat) :
    (m.havoc base size draw).drawAt x = if inRange base size x then draw else m.drawAt x := by
  simp only [Memory.drawAt, Memory.havoc, List.find?_cons]
  by_cases h : inRange base size x = true
  · simp [h]
  · simp only [Bool.not_eq_true] at h
    simp only [h]
    rw [find?_filter_of_imp]
    · simp
    · intro r _ hr
      rw [inRange_iff] at hr
      rw [inRange_false_iff] at h
      simp only [UnspecRange.within, Bool.not_eq_true', Bool.and_eq_false_iff, decide_eq_false_iff_not]
      omega

/-- A read after a range was made UNSPEC: the free byte of that draw inside the range, the old byte outside it. -/
theorem read_havoc (m : Memory) (base size draw x : Nat) :
    (m.havoc base size draw).read x = if inRange base size x then Config.unspecByte draw x else m.read x := by
  have hw : (m.havoc base size draw).written x = if inRange base size x then none else m.written x := by
    simp only [Memory.written, Memory.havoc]
    rw [lookup_filter m.cells fun y => !inRange base size y]
    cases inRange base size x <;> simp
  simp only [Memory.read, Memory.unlisted, drawAt_havoc, hw]
  cases inRange base size x <;> simp

theorem read_havoc_inside {m : Memory} {base size draw x : Nat} (h : inRange base size x = true) :
    (m.havoc base size draw).read x = Config.unspecByte draw x := by
  rw [read_havoc, if_pos h]

theorem read_havoc_outside {m : Memory} {base size draw x : Nat} (h : inRange base size x = false) :
    (m.havoc base size draw).read x = m.read x := by
  rw [read_havoc, h]; simp

/-! ## Byte strings -/

@[simp] theorem readN_length (m : Memory) (a n : Nat) : (m.readN a n).length = n := by simp [Memory.readN]

theorem readN_getElem (m : Memory) (a n k : Nat) (h : k < (m.readN a n).length) : (m.readN a n)[k] = m.read (a + k) := by
  simp [Memory.readN]

@[simp] theorem readN_zero (m : Memory) (a : Nat) : m.readN a 0 = [] := rfl

theorem readN_congr {m m' : Memory} {a a' n : Nat} (h : ∀ k, k < n → m'.read (a' + k) = m.read (a + k)) :
    m'.readN a' n = m.readN a n := by
  apply List.ext_getElem (by simp)
  intro k h1 h2
  rw [readN_getElem, readN_getElem, h k (by simpa using h1)]

theorem readN_write_self (m : Memory) (a : Nat) (bs : List Byte) : (m.write a bs).readN a bs.length = bs := by
  apply List.ext_getElem (by simp)
  intro k h1 h2
  rw [readN_getElem, read_write_at h2]

theorem readN_write_slice (m : Memory) (a i n : Nat) (bs : List Byte) (h : i + n ≤ bs.length) :
    (m.write a bs).readN (a + i) n = (bs.drop i).take n := by
  apply List.ext_getElem (by simp; omega)
  intro k h1 h2
  have hk : k < n := by simpa using h1
  rw [readN_getElem, Nat.add_assoc, read_write_at (by omega)]
  simp

theorem readN_write_outside {m : Memory} {a x n : Nat} {bs : List Byte} (h : x + n ≤ a ∨ a + bs.length ≤ x) :
    (m.write a bs).readN x n = m.readN x n :=
  readN_congr fun k hk => read_write_outside (by omega)

theorem readN_add (m : Memory) (a i n : Nat) : m.readN a (i + n) = m.readN a i ++ m.readN (a + i) n := by
  apply List.ext_getElem (by simp)
  intro k h1 h2
  simp only [readN_length] at h1
  rw [readN_getElem]
  by_cases h : k < i
  · rw [List.getElem_append_left (by simpa using h), readN_getElem]
  · rw [List.getElem_append_right (by simp; omega), readN_getElem]
    congr 1; simp; omega

theorem readN_succ (m : Memory) (a n : Nat) : m.readN a (n + 1) = m.read a :: m.readN (a + 1) n := by
  rw [Nat.add_comm n 1, readN_add]
  simp [Memory.readN]

/-! ## The canonical form -/

theorem write_wf {m : Memory} (h : m.wf) (a : Nat) (bs : List Byte) : (m.write a bs).wf := by
  refine ⟨?_, h.2⟩
  simp only [Memory.write]
  rw [List.pairwise_append, List.pairwise_append]
  refine ⟨⟨h.1.filter _, cellsAt_pairwise a bs, ?_⟩, h.1.filter _, ?_⟩
  · intro c hc d hd
    have := mem_cellsAt hd
    simp only [List.mem_filter, decide_eq_true_eq] at hc
    omega
  · intro c hc d hd
    simp only [List.mem_append, List.mem_filter, decide_eq_true_eq] at hc hd
    rcases hc with hc | hc
    · omega
    · have := mem_cellsAt hc; omega

theorem havoc_wf {m : Memory} (h : m.wf) (base size draw : Nat) : (m.havoc base size draw).wf := by
  refine ⟨h.1.filter _, .cons ?_ (h.2.filter _)⟩
  intro r hr
  simpa using (List.mem_filter.mp hr).2

theorem writeEntries_wf {m : Memory} (h : m.wf) (b : Bank) (i : Nat) (l : List Entry) : (m.writeEntries b i l).wf := by
  induction l generalizing m i with
  | nil => exact h
  | cons e l ih => exact ih (write_wf h _ _) _

theorem allUnspec_wf (draw : Nat) : (Memory.allUnspec draw).wf := by
  simp [Memory.allUnspec, Memory.wf]

/-- Every cell after a write is a cell of the written range or one that was there. -/
theorem mem_cells_write {m : Memory} {a : Nat} {bs : List Byte} {c : Host.Cell} (h : c ∈ (m.write a bs).cells) :
    (a ≤ c.1 ∧ c.1 < a + bs.length) ∨ c ∈ m.cells := by
  simp only [Memory.write, List.mem_append, List.mem_filter] at h
  rcases h with (h | h) | h
  · exact .inr h.1
  · exact .inl (mem_cellsAt h)
  · exact .inr h.1

theorem mem_cells_havoc {m : Memory} {base size draw : Nat} {c : Host.Cell} (h : c ∈ (m.havoc base size draw).cells) :
    c ∈ m.cells := (List.mem_filter.mp h).1

theorem mem_unspec_havoc {m : Memory} {base size draw : Nat} {r : UnspecRange}
    (h : r ∈ (m.havoc base size draw).unspec) : r = ⟨base, size, draw⟩ ∨ r ∈ m.unspec := by
  simp only [Memory.havoc, List.mem_cons] at h
  exact h.imp_right fun h => (List.mem_filter.mp h).1

@[simp] theorem write_unspec (m : Memory) (a : Nat) (bs : List Byte) : (m.write a bs).unspec = m.unspec := rfl

@[simp] theorem writeEntries_unspec (m : Memory) (b : Bank) (i : Nat) (l : List Entry) :
    (m.writeEntries b i l).unspec = m.unspec := by
  induction l generalizing m i with
  | nil => rfl
  | cons e l ih => simp [Memory.writeEntries, ih]

/-! ## Entries -/

@[simp] theorem image_length (e : Entry) : e.image.length = e.payload.length + 2 := by simp [Entry.image]

theorem readEntry_write_image (m : Memory) (b : Bank) (i : Nat) (e : Entry) (h : e.payload.length ≤ 255) :
    readEntry (m.write (entryAddr b i) e.image) b i = e := by
  have h0 : (m.write (entryAddr b i) e.image).read (entryAddr b i) = e.code := by
    have := read_write_at (m := m) (a := entryAddr b i) (k := 0) (bs := e.image) (by simp)
    simpa [Entry.image] using this
  have h1 : (m.write (entryAddr b i) e.image).read (entryAddr b i + 1) = BitVec.ofNat 8 e.payload.length := by
    rw [read_write_at (by simp)]; simp [Entry.image]
  have h2 : (BitVec.ofNat 8 e.payload.length).toNat = e.payload.length := by simp; omega
  simp only [readEntry, h0, h1, h2]
  rw [readN_write_slice _ _ _ _ _ (by simp; omega)]
  simp [Entry.image]

theorem readEntry_congr {m m' : Memory} {b : Bank} {i : Nat}
    (h : ∀ k, k < 257 → m'.read (entryAddr b i + k) = m.read (entryAddr b i + k)) : readEntry m' b i = readEntry m b i := by
  have h0 := h 0 (by omega)
  have h1 := h 1 (by omega)
  simp only [Nat.add_zero] at h0
  simp only [readEntry, h0, h1]
  congr 1
  apply readN_congr
  intro k hk
  have := (m.read (entryAddr b i + 1)).isLt
  rw [Nat.add_assoc]
  exact h (2 + k) (by omega)

theorem readEntry_payload_length (m : Memory) (b : Bank) (i : Nat) : (readEntry m b i).payload.length ≤ 255 := by
  simp only [readEntry, readN_length]
  have := (m.read (entryAddr b i + 1)).isLt
  omega

theorem read_writeEntries_outside {m : Memory} {b : Bank} {i x : Nat} {l : List Entry}
    (hl : ∀ e ∈ l, e.payload.length ≤ 255)
    (h : x < entryAddr b i ∨ entryAddr b (i + l.length) ≤ x) : (m.writeEntries b i l).read x = m.read x := by
  induction l generalizing m i with
  | nil => rfl
  | cons e l ih =>
    have he := hl e (List.mem_cons_self ..)
    simp only [entryAddr, entryStride, List.length_cons] at h
    simp only [Memory.writeEntries]
    rw [ih (fun e h => hl e (List.mem_cons_of_mem _ h)) (by simp only [entryAddr, entryStride]; omega), read_write_outside]
    simp only [image_length, entryAddr, entryStride]; omega

theorem readEntry_writeEntries {m : Memory} {b : Bank} {i k : Nat} {l : List Entry}
    (hl : ∀ e ∈ l, e.payload.length ≤ 255) (hk : k < l.length) :
    readEntry (m.writeEntries b i l) b (i + k) = l[k] := by
  induction l generalizing m i k with
  | nil => cases hk
  | cons e l ih =>
    have hl' : ∀ e ∈ l, e.payload.length ≤ 255 := fun e h => hl e (List.mem_cons_of_mem _ h)
    simp only [Memory.writeEntries]
    cases k with
    | zero =>
      simp only [Nat.add_zero, List.getElem_cons_zero]
      rw [readEntry_congr (m := m.write (entryAddr b i) e.image), readEntry_write_image _ _ _ _ (hl e (List.mem_cons_self ..))]
      intro k hk
      apply read_writeEntries_outside hl'
      simp only [entryAddr, entryStride]; omega
    | succ k =>
      simp only [List.getElem_cons_succ]
      rw [show i + (k + 1) = i + 1 + k by omega]
      exact ih hl' (by simpa using hk)

theorem mem_cells_writeEntries {m : Memory} {b : Bank} {i : Nat} {l : List Entry} {c : Host.Cell}
    (hl : ∀ e ∈ l, e.payload.length ≤ 255) (h : c ∈ (m.writeEntries b i l).cells) :
    (∃ k, k < l.length ∧ entryAddr b (i + k) ≤ c.1 ∧ c.1 < entryAddr b (i + k) + 257) ∨ c ∈ m.cells := by
  induction l generalizing m i with
  | nil => exact .inr h
  | cons e l ih =>
    have he := hl e (List.mem_cons_self ..)
    rcases ih (fun e h => hl e (List.mem_cons_of_mem _ h)) h with ⟨k, hk, h1, h2⟩ | h
    · exact .inl ⟨k + 1, by simp; omega, by rw [show i + (k + 1) = i + 1 + k by omega]; exact ⟨h1, h2⟩⟩
    · rcases mem_cells_write h with h | h
      · exact .inl ⟨0, by simp, by simp only [image_length] at h; simp only [Nat.add_zero]; omega⟩
      · exact .inr h

end Sys2Proof.Machine
end

