-- ==== Sys2Proof/Laws/Codec.lean ====
section
/-! SUPPORT. What the codec functions answer: the encoder on a list it accepts and on the first entry it refuses, the
option loop on well-shaped options followed by anything, the header builder's slices, the cached message type. -/

namespace Sys2Proof.Machine

/-! ## Encoding -/

/-- The table written out for claims is the predicate the codec computes (42_optioncodec.md R160). -/
theorem lengthTable_iff (c : Byte) (n : Nat) :
    lengthTable c n = true ↔ supported c = true ∧ c ≠ endCode ∧ lenOk c n = true := by
  cases hs : supported c with
  | true =>
    simp only [supported, supportedCodes, List.contains_cons, List.contains_nil, Bool.or_false, Bool.or_eq_true, beq_iff_eq] at hs
    rcases hs with rfl | rfl | rfl | rfl | rfl | rfl | rfl | rfl | rfl | rfl | rfl | rfl | rfl | rfl | rfl <;>
      simp [lengthTable, lenOk, endCode]
  | false =>
    simp only [supported, supportedCodes, List.contains_cons, List.contains_nil, Bool.or_false, Bool.or_eq_false_iff,
      beq_eq_false_iff_ne, BitVec.ofNat_eq_ofNat] at hs
    simp [lengthTable, hs]

/-- The payloads OPTDEC accepts, row by row of 42_optioncodec.md R160 and R181, are those the codec computes. -/
theorem payloadTable_iff (c : Byte) (n : Nat) :
    ((c = 1 ∨ c = 12 ∨ c = 55 ∨ c = 108) ∨ (c = 50 ∨ c = 51 ∨ c = 54 ∨ c = 58 ∨ c = 59) ∧ n = 4 ∨ c = 53 ∧ n = 1
        ∨ c = 57 ∧ n = 2 ∨ (c = 3 ∨ c = 6) ∧ n % 4 = 0 ∨ c = 61 ∧ 1 ≤ n ∨ c = 255 ∧ n = 0)
      ↔ (c = endCode ∧ n = 0 ∨ c ≠ endCode ∧ supported c = true ∧ lenOk c n = true) := by
  by_cases h : c = 255
  · subst h; simp [endCode]
  · have h' : c ≠ endCode := h
    have ht := lengthTable_iff c n
    simp only [lengthTable, decide_eq_true_eq] at ht
    simp only [h, h', false_and, or_false, false_or, ne_eq, not_false_eq_true, true_and] at ht ⊢
    rw [← ht, or_comm]
    simp only [or_assoc]

@[simp] theorem listed_eq (c : Byte) : listed c = supported c := by
  simp [listed, supported, supportedCodes, List.contains_eq_mem]

theorem encodable_iff {e : Entry} : encodable e = true ↔
    supported e.code = true ∧ (e.code = endCode ∨ lenOk e.code e.payload.length = true) := by
  rw [encodable, Bool.or_eq_true, lengthTable_iff, beq_iff_eq]
  by_cases h : e.code = endCode
  · simp [h, endCode, supported, supportedCodes]
  · simp only [show ¬ e.code = (255 : Byte) from h, h, not_false_eq_true, ne_eq, false_or, true_and]

theorem encEntry_of_encodable {e : Entry} (h : encodable e = true) : encEntry e = .ok (wire e) := by
  rw [encodable_iff] at h
  simp only [encEntry, wire, h.1, Bool.not_true, Bool.false_eq_true, if_false]
  by_cases he : e.code = endCode
  · simp [he]
  · simp [he, h.2.resolve_left he]

theorem encEntry_of_unsupported {e : Entry} (h : supported e.code = false) : encEntry e = .error .encBadCode := by
  simp [encEntry, h]

theorem encEntry_of_badWidth {e : Entry} (h : supported e.code = true) (h' : encodable e = false) :
    encEntry e = .error .encBadWidth := by
  rw [← Bool.not_eq_true, encodable_iff, h] at h'
  simp only [true_and, not_or, Bool.not_eq_true] at h'
  simp [encEntry, h, h'.1, h'.2]

/-- What the entry encoder answers, once and for all. -/
theorem encEntry_cases (e : Entry) :
    (encodable e = true ∧ encEntry e = .ok (wire e)) ∨ (encodable e = false ∧ ∃ k, k ≠ .none ∧ encEntry e = .error k) := by
  cases h : encodable e with
  | true => exact .inl ⟨rfl, encEntry_of_encodable h⟩
  | false =>
    cases hs : supported e.code with
    | true => exact .inr ⟨rfl, _, by simp, encEntry_of_badWidth hs h⟩
    | false => exact .inr ⟨rfl, _, by simp, encEntry_of_unsupported hs⟩

@[simp] theorem wireList_nil : wireList [] = [] := rfl

@[simp] theorem wireList_cons (e : Entry) (l : List Entry) : wireList (e :: l) = wire e ++ wireList l := by
  simp [wireList]

@[simp] theorem wireList_append (l m : List Entry) : wireList (l ++ m) = wireList l ++ wireList m := by
  simp [wireList]

theorem wire_length_le {e : Entry} (h : e.payload.length ≤ 255) : (wire e).length ≤ 257 := by
  simp only [wire]; split <;> simp; omega

/-- The list encoder accepts a list of encodable entries that fits. -/
theorem encEntries_ok {used : Nat} {l : List Entry} (h : ∀ e ∈ l, encodable e = true)
    (hlen : used + (wireList l).length ≤ 4096) : encEntries used l = .ok (wireList l) := by
  induction l generalizing used with
  | nil => rfl
  | cons e l ih =>
    simp only [wireList_cons, List.length_append] at hlen
    simp only [encEntries, encEntry_of_encodable (h e (List.mem_cons_self ..)), Config.bufBytes]
    rw [if_neg (by omega), ih (fun x hx => h x (List.mem_cons_of_mem _ hx)) (by omega)]
    simp

/-- What the list encoder accepted was encodable, and its answer is the wire form, within the buffer. -/
theorem encEntries_eq_ok {used : Nat} {l : List Entry} {bs : List Byte} (hu : used ≤ 4096)
    (h : encEntries used l = .ok bs) :
    (∀ e ∈ l, encodable e = true) ∧ bs = wireList l ∧ used + (wireList l).length ≤ 4096 := by
  induction l generalizing used bs with
  | nil => simp only [encEntries, Except.ok.injEq] at h; subst h; simpa using hu
  | cons e l ih =>
    rcases encEntry_cases e with ⟨he, h1⟩ | ⟨_, k, _, h1⟩
    · simp only [encEntries, h1, Config.bufBytes] at h
      split at h
      · cases h
      · rename_i hlt
        split at h
        · cases h
        · rename_i rest hr
          simp only [Except.ok.injEq] at h
          obtain ⟨h2, h3, h4⟩ := ih (by omega) hr
          refine ⟨?_, by rw [← h, h3, wireList_cons], by simp only [wireList_cons, List.length_append]; omega⟩
          intro x hx
          rcases List.mem_cons.mp hx with rfl | hx
          · exact he
          · exact h2 x hx
    · simp only [encEntries, h1] at h; cases h

/-- The first entry the encoder refuses decides its answer. -/
theorem encEntries_first_bad {used : Nat} {pre post : List Entry} {e : Entry} {k : ErrCode}
    (h : ∀ x ∈ pre, encodable x = true) (hlen : used + (wireList pre).length ≤ 4096)
    (he : encEntry e = .error k) : encEntries used (pre ++ e :: post) = .error k := by
  induction pre generalizing used with
  | nil => simp [encEntries, he]
  | cons x l ih =>
    simp only [wireList_cons, List.length_append] at hlen
    simp only [List.cons_append, encEntries, encEntry_of_encodable (h x (List.mem_cons_self ..)), Config.bufBytes]
    rw [if_neg (by omega), ih (fun y hy => h y (List.mem_cons_of_mem _ hy)) (by omega)]

/-- An entry that passes the buffer's end gives `ENC_OVERFLOW`. -/
theorem encEntries_overflow {used : Nat} {pre post : List Entry} {e : Entry} (h : ∀ x ∈ pre, encodable x = true)
    (hlen : used + (wireList pre).length ≤ 4096) (he : encodable e = true)
    (hover : 4096 < used + (wireList pre).length + (wire e).length) :
    encEntries used (pre ++ e :: post) = .error .encOverflow := by
  induction pre generalizing used with
  | nil =>
    simp only [wireList_nil, List.length_nil, Nat.add_zero] at hover
    simp [encEntries, encEntry_of_encodable he, Config.bufBytes, hover]
  | cons x l ih =>
    simp only [wireList_cons, List.length_append] at hlen hover
    simp only [List.cons_append, encEntries, encEntry_of_encodable (h x (List.mem_cons_self ..)), Config.bufBytes]
    rw [if_neg (by omega), ih (fun y hy => h y (List.mem_cons_of_mem _ hy)) (by omega) (by omega)]

theorem encEntries_error_ne {used : Nat} {l : List Entry} {k : ErrCode} (h : encEntries used l = .error k) : k ≠ .none := by
  induction l generalizing used with
  | nil => cases h
  | cons e l ih =>
    rcases encEntry_cases e with ⟨_, h1⟩ | ⟨_, k', hk, h1⟩
    · simp only [encEntries, h1] at h
      split at h
      · cases h; simp
      · split at h
        · rename_i hr; cases h; exact ih hr
        · cases h
    · simp only [encEntries, h1] at h; cases h; exact hk

@[simp] theorem zeros_length (n : Nat) : (zeros n).length = n := by simp [zeros]

theorem pad300_length (bs : List Byte) : (pad300 bs).length = max 300 bs.length := by
  simp [pad300]; omega

/-- What the message encoder answers: the padded message of an accepted list, within the buffer, or a code. -/
theorem encMessage_cases {hdr : List Byte} (l : List Entry) (hh : hdr.length = 240) :
    (∃ bs, encMessage hdr l = .ok bs ∧ bs = pad300 (hdr ++ wireList l) ∧ bs.length ≤ 4096 ∧ ∀ e ∈ l, encodable e = true)
      ∨ ∃ k, k ≠ .none ∧ encMessage hdr l = .error k := by
  cases h : encEntries hdr.length l with
  | error k => exact .inr ⟨k, encEntries_error_ne h, by simp [encMessage, h]⟩
  | ok body =>
    obtain ⟨h1, h2, h3⟩ := encEntries_eq_ok (by omega) h
    refine .inl ⟨pad300 (hdr ++ wireList l), by simp [encMessage, h, h2], rfl, ?_, h1⟩
    rw [pad300_length, List.length_append]
    omega

/-! ## Decoding -/

theorem decErr_ne (c : Byte) : decErr c ≠ .none := by
  simp only [decErr]; split <;> (try split) <;> simp

/-- What decoding one payload answers. -/
theorem decOpt_cases (c : Byte) (p : List Byte) :
    ((c = endCode ∧ p.length = 0 ∨ c ≠ endCode ∧ supported c = true ∧ lenOk c p.length = true) ∧ decOpt c p = .ok ⟨c, p⟩)
      ∨ ∃ k, k ≠ .none ∧ decOpt c p = .error k := by
  by_cases he : c = endCode
  · subst he
    cases p with
    | nil => exact .inl ⟨.inl ⟨rfl, rfl⟩, rfl⟩
    | cons b p => exact .inr ⟨.decBadFixedLen, by simp, rfl⟩
  · cases hs : supported c with
    | false => exact .inr ⟨.decBadCode, by simp, by simp [decOpt, hs]⟩
    | true =>
      cases hl : lenOk c p.length with
      | false => exact .inr ⟨decErr c, decErr_ne c, by simp [decOpt, hs, he, hl]⟩
      | true => exact .inl ⟨.inr ⟨he, rfl, rfl⟩, by simp [decOpt, hs, he, hl]⟩

theorem wellShaped_iff {e : Entry} : wellShaped e = true ↔
    supported e.code = true ∧ e.code ≠ endCode ∧ lenOk e.code e.payload.length = true ∧ e.payload.length ≤ 255 := by
  rw [wellShaped, Bool.and_eq_true, lengthTable_iff, decide_eq_true_iff]
  simp [and_assoc]

theorem wellShaped_wire {e : Entry} (h : wellShaped e = true) : wire e = e.image := by
  simp [wire, (wellShaped_iff.mp h).2.1]

theorem wellShaped_encodable {e : Entry} (h : wellShaped e = true) : encodable e = true := by
  obtain ⟨h1, _, h3, _⟩ := wellShaped_iff.mp h
  exact encodable_iff.mpr ⟨h1, .inr h3⟩

/-- One turn of the option loop, for any room (43_messagecodec.md R223). -/
theorem scanOptions_cons (room p : Nat) (c : Byte) (rest : List Byte) :
    scanOptions room p (c :: rest) =
      if c = endCode then
        if room = 0 then .error ⟨.decOptOverflow, p⟩ else .ok ⟨[⟨endCode, []⟩], .ended, 0, p⟩
      else if supported c = false then .ok ⟨[], .unknown, c, p⟩
      else
        match rest with
        | [] => .error ⟨.decTruncLen, p⟩
        | len :: tail =>
          if lenOk c len.toNat = false then .error ⟨decErr c, p⟩
          else if tail.length < len.toNat then .error ⟨.decTruncPayload, p⟩
          else if room = 0 then .error ⟨.decOptOverflow, p⟩
          else
            match scanOptions (room - 1) (p + 2 + len.toNat) (tail.drop len.toNat) with
            | .error f => .error f
            | .ok r => .ok { r with opts := ⟨c, tail.take len.toNat⟩ :: r.opts } := by
  conv => lhs; unfold scanOptions
  cases room <;> simp only [Bool.not_eq_true'] <;> rfl

/-- The option loop reads well-shaped options one by one and goes on with the rest. -/
theorem scanOptions_wellShaped {room p : Nat} {l : List Entry} {tail : List Byte} (h : ∀ e ∈ l, wellShaped e = true)
    (hroom : l.length ≤ room) :
    scanOptions room p (wireList l ++ tail) =
      match scanOptions (room - l.length) (p + (wireList l).length) tail with
      | .error f => .error f
      | .ok r => .ok { r with opts := l ++ r.opts } := by
  induction l generalizing room p with
  | nil => simp; split <;> simp_all
  | cons e l ih =>
    have he := h e (List.mem_cons_self ..)
    obtain ⟨h1, h2, h3, h4⟩ := wellShaped_iff.mp he
    obtain ⟨room, rfl⟩ : ∃ r, room = r + 1 := ⟨room - 1, by simp only [List.length_cons] at hroom; omega⟩
    have hl : (BitVec.ofNat 8 e.payload.length).toNat = e.payload.length := by simp; omega
    simp only [wireList_cons, wellShaped_wire he, Entry.image, List.cons_append, List.append_assoc]
    rw [scanOptions]
    simp only [h2, if_false, h1, Bool.not_true, Bool.false_eq_true, hl, h3, List.length_append]
    rw [if_neg (by omega), List.drop_left, List.take_left,
      ih (fun x hx => h x (List.mem_cons_of_mem _ hx)) (by simpa using hroom)]
    simp only [List.length_cons, Nat.add_sub_add_right, List.length_append]
    rw [show p + 2 + e.payload.length + (wireList l).length = p + (e.payload.length + (wireList l).length + 1 + 1) by omega]
    cases scanOptions (room - l.length) (p + (e.payload.length + (wireList l).length + 1 + 1)) tail <;> rfl

/-- What an accepted datagram's options are: at most `room` entries, payloads of at most 255 bytes, a stop offset
within the bytes, and an unsupported code only where one stopped the loop. -/
theorem scanOptions_ok {room p : Nat} {bs : List Byte} {r : OptionScan} (h : scanOptions room p bs = .ok r) :
    r.opts.length ≤ room ∧ (∀ e ∈ r.opts, e.payload.length ≤ 255) ∧ r.stop ≤ p + bs.length ∧ r.stat ≠ .failed
      ∧ (r.stat ≠ .unknown → r.ucode = 0) := by
  induction room generalizing p bs r with
  | zero =>
    unfold scanOptions at h
    split at h
    · cases h; simp
    · rename_i hbs
      split at h
      · cases h
      · split at h
        · cases h; simp
        · split at h
          · cases h
          · split at h
            · cases h
            · split at h <;> cases h
  | succ room ih =>
    unfold scanOptions at h
    split at h
    · cases h; simp
    · split at h
      · cases h; simp
      · split at h
        · cases h; simp
        · split at h
          · cases h
          · rename_i len tail
            split at h
            · cases h
            · split at h
              · cases h
              · rename_i hlen
                dsimp only at h
                split at h
                · cases h
                · rename_i r' hr
                  cases h
                  obtain ⟨h1, h2, h3, h4, h5⟩ := ih hr
                  refine ⟨by simp; omega, ?_, ?_, h4, h5⟩
                  · intro e he
                    rcases List.mem_cons.mp he with rfl | he
                    · have := len.isLt; simp only [List.length_take]; omega
                    · exact h2 e he
                  · simp only [List.length_drop] at h3
                    simp only [List.length_cons]; omega

theorem scanOptions_error {room p : Nat} {bs : List Byte} {f : DecodeFailure} (h : scanOptions room p bs = .error f) :
    f.code ≠ .none ∧ f.stop ≤ p + bs.length := by
  have hd := decErr_ne
  induction room generalizing p bs with
  | zero =>
    unfold scanOptions at h
    split at h
    · cases h
    · split at h
      · cases h; simp
      · split at h
        · cases h
        · split at h
          · cases h; simp
          · split at h
            · cases h; simp [hd]
            · split at h <;> cases h <;> simp
  | succ room ih =>
    unfold scanOptions at h
    split at h
    · cases h
    · split at h
      · cases h
      · split at h
        · cases h
        · split at h
          · cases h; simp
          · rename_i len tail _
            split at h
            · cases h; simp [hd]
            · split at h
              · cases h; simp
              · rename_i hlen
                dsimp only at h
                split at h
                · rename_i hr
                  cases h
                  obtain ⟨h1, h2⟩ := ih hr
                  simp only [List.length_drop] at h2
                  exact ⟨h1, by simp only [List.length_cons]; omega⟩
                · cases h

/-- The decoder on a whole header with the right cookie goes on to the options. -/
theorem decodeMessage_of_header {maxOpts : Nat} {chk : Bool} {hdr rest : List Byte} (hl : hdr.length = 240)
    (hc : chk = true → hdr.drop 236 = [0x63, 0x82, 0x53, 0x63]) :
    decodeMessage maxOpts chk (hdr ++ rest) =
      match scanOptions maxOpts 240 rest with
      | .error f => .error f
      | .ok r => .ok (hdr, r) := by
  have hd : ((hdr ++ rest).drop 236).take 4 = hdr.drop 236 := by
    rw [List.drop_append_of_le_length (by omega), List.take_append_of_le_length (by simp; omega), List.take_of_length_le]
    simp; omega
  have h1 : (hdr ++ rest).drop 240 = rest := by rw [← hl, List.drop_left]
  have h2 : (hdr ++ rest).take 240 = hdr := by rw [← hl, List.take_left]
  have hck : (chk && decide (((hdr ++ rest).drop 236).take 4 ≠ cookie)) = false := by
    cases chk with
    | false => rfl
    | true => rw [hd, hc rfl]; rfl
  simp only [decodeMessage, hdrSize, h1, h2, hck]
  rw [if_neg (by simp; omega)]
  rfl

/-- What an accepted datagram gives: a whole header and what the option loop says. -/
theorem decodeMessage_ok {maxOpts : Nat} {chk : Bool} {bs hdr : List Byte} {r : OptionScan}
    (h : decodeMessage maxOpts chk bs = .ok (hdr, r)) :
    hdr.length = 240 ∧ 240 ≤ bs.length ∧ scanOptions maxOpts 240 (bs.drop 240) = .ok r := by
  simp only [decodeMessage, hdrSize] at h
  split at h
  · cases h
  · split at h
    · cases h
    · split at h
      · cases h
      · cases h; rename_i hlen _ _ hs
        exact ⟨by simp; omega, by omega, hs⟩

theorem decodeMessage_error {maxOpts : Nat} {chk : Bool} {bs : List Byte} {f : DecodeFailure}
    (h : decodeMessage maxOpts chk bs = .error f) : f.code ≠ .none ∧ f.stop ≤ max 236 bs.length := by
  simp only [decodeMessage, hdrSize] at h
  split at h
  · cases h; simp
  · split at h
    · cases h; exact ⟨by simp, Nat.le_max_left ..⟩
    · split at h
      · rename_i hr; cases h
        obtain ⟨h1, h2⟩ := scanOptions_error hr
        simp only [List.length_drop] at h2
        exact ⟨h1, by omega⟩
      · cases h

/-! ## Building -/

@[simp] theorem bytes32_length (v : Word) : (bytes32 v).length = 4 := rfl

@[simp] theorem bytes16_length (v : Half) : (bytes16 v).length = 2 := rfl

@[simp] theorem macBytes_length (s : State) : s.macBytes.length = 6 := rfl

theorem hdrBuild_length {xid : Word} {secs : Half} {ci mac : List Byte} {gi : Word} (hc : ci.length = 4)
    (hm : mac.length = 6) : (hdrBuild xid secs ci mac gi).length = 240 := by
  simp [hdrBuild, hc, hm, cookie]

/-! ## The message type -/

theorem mtypeOf_last {pre post : List Entry} {v : Byte} (h : ∀ e ∈ post, ¬ (e.code = 53 ∧ e.payload.length = 1)) :
    mtypeOf (pre ++ ⟨53, [v]⟩ :: post) = ⟨v, true⟩ := by
  have h1 : post.reverse.find? (fun e => e.code == 53#8 && e.payload.length == 1) = none := by
    rw [List.find?_eq_none]
    intro e he
    simpa using h e (List.mem_reverse.mp he)
  simp [mtypeOf, List.find?_append, h1]

theorem mtypeOf_none {l : List Entry} (h : ∀ e ∈ l, ¬ (e.code = 53 ∧ e.payload.length = 1)) : mtypeOf l = ⟨0, false⟩ := by
  have h1 : l.reverse.find? (fun e => e.code == 53#8 && e.payload.length == 1) = none := by
    rw [List.find?_eq_none]
    intro e he
    simpa using h e (List.mem_reverse.mp he)
  simp [mtypeOf, h1]

theorem mtypeOf_absent {l : List Entry} (h : (mtypeOf l).present = false) : (mtypeOf l).val = 0 := by
  simp only [mtypeOf] at h ⊢
  split <;> simp_all

end Sys2Proof.Machine
end

