-- ==== Sys2Proof/Laws/Exec.lean ====
section
/-! SUPPORT. What running a command can do: the common checks, the completion, the frames of the shared operations, and
the whole message a commit leaves. -/

namespace Sys2Proof.Machine

/-- What a command does behind its common checks. -/
def bodyOf : Instr → State → State
  | .xidgen => xidgenBody
  | .b2u16 => b2u16Body
  | .b2u32 => b2u32Body
  | .u16tb => u16tbBody
  | .u32tb => u32tbBody
  | .optenc b idx => optencBody b idx
  | .optdec b idx c => optdecBody b idx c
  | .msgenc => msgencBody
  | .msgdec => msgdecBody
  | .blddisc => blddiscBody
  | .bldreq => bldreqBody
  | .blddecl => blddeclBody
  | .bldrel => bldrelBody

/-- Every command is its body behind its checks. -/
theorem exec_eq (i : Instr) (s : State) : exec i s = checked i s (bodyOf i) := by cases i <;> rfl

theorem checked_of_none {i : Instr} {s : State} {body : State → State} (h : commonCheck i s = none) :
    checked i s body = .next (body s) := by simp [checked, h]

theorem checked_of_some {i : Instr} {s : State} {body : State → State} {k : ErrCode} (h : commonCheck i s = some k) :
    checked i s body = .next (fail k s) := by simp [checked, h]

/-- A command answers a next state, and it is one of two: a failed check's, or its body's. -/
theorem exec_cases (i : Instr) (s : State) :
    (∃ k, k ≠ .none ∧ commonCheck i s = some k ∧ exec i s = .next (fail k s))
      ∨ (commonCheck i s = none ∧ exec i s = .next (bodyOf i s)) := by
  rw [exec_eq]
  cases h : commonCheck i s with
  | none => exact .inr ⟨rfl, checked_of_none h⟩
  | some k =>
    refine .inl ⟨k, ?_, rfl, checked_of_some h⟩
    rintro rfl
    simp only [commonCheck] at h
    split at h
    · simp at h
    · split at h
      · simp at h
      · split at h <;> simp at h

/-- What a passed check says: RXLEN within the buffer, the counts within `MAX_OPTS`, the index in range. -/
theorem commonCheck_none_iff {i : Instr} {s : State} :
    commonCheck i s = none ↔
      (usesRx i = true → s.rxlen.toNat ≤ 4096) ∧ (∀ b ∈ banksOf i, s.cnt b ≤ s.maxOpts) ∧ badIndex i s = false := by
  have h1 : (usesRx i && decide (Config.bufBytes < s.rxlen.toNat)) = true ↔ ¬ (usesRx i = true → s.rxlen.toNat ≤ 4096) := by
    simp [Config.bufBytes]
  have h2 : ((banksOf i).any fun b => decide (s.maxOpts < s.cnt b)) = true ↔ ¬ ∀ b ∈ banksOf i, s.cnt b ≤ s.maxOpts := by
    simp
  simp only [commonCheck]
  split
  · rename_i h; simp only [h1] at h; simp [h]
  · rename_i h; rw [h1, Decidable.not_not] at h
    split
    · rename_i h'; rw [h2] at h'; simp only [reduceCtorEq, false_iff]; exact fun hh => h' hh.2.1
    · rename_i h'; rw [h2, Decidable.not_not] at h'
      split
      · rename_i h3; simp [h3]
      · rename_i h3; simp only [true_iff]; exact ⟨h, h', by simpa using h3⟩

/-! ## Completion -/

theorem ended_complete (k : ErrCode) (s t : State) (h : s.cmdovr = t.cmdovr) : Ended k t (complete k s) :=
  ⟨rfl, rfl, rfl, rfl, h⟩

/-- A failed check, or a command that fails before it writes, changes nothing but STATUS. -/
theorem frame_fail (k : ErrCode) (s : State) : Frame k [] noBytes s (fail k s) := by
  refine ⟨⟨rfl, rfl, rfl, rfl, rfl⟩, ?_, fun _ _ => rfl, rfl, rfl, rfl, rfl⟩
  intro r hr
  cases r <;> first | (exfalso; revert hr; decide) | rfl

theorem failsOnly_of_check {k : ErrCode} {i : Instr} {s : State} (h : commonCheck i s = some k) : FailsOnly k i s :=
  ⟨fail k s, by rw [exec_eq, checked_of_some h], frame_fail k s, rfl⟩

theorem failsOnly_of_body {k : ErrCode} {i : Instr} {s : State} (h : commonCheck i s = none)
    (hb : bodyOf i s = fail k s) : FailsOnly k i s :=
  ⟨fail k s, by rw [exec_eq, checked_of_none h, hb], frame_fail k s, rfl⟩

theorem answers_body {i : Instr} {s : State} {P : State → Prop} (h : commonCheck i s = none) (hp : P (bodyOf i s)) :
    Answers (exec i s) P := ⟨_, by rw [exec_eq, checked_of_none h], hp⟩

/-! ## Output to TXBUF -/

/-- A finished output to TXBUF: its bytes, TXLEN, and nothing else. -/
theorem encoded_emitTx {s : State} {bs : List Byte} (h : bs.length ≤ 4096) : Encoded bs s (finish (s.emitTx bs)) := by
  refine ⟨readN_write_self .., ?_, rfl, ⟨rfl, rfl, rfl, rfl, rfl⟩, ?_, ?_, rfl, rfl, rfl, rfl⟩
  · simp; omega
  · intro r hr
    cases r <;> first | (exfalso; revert hr; decide) | rfl
  · intro a ha
    rw [inRange_false_iff] at ha
    exact read_write_outside (by omega)

/-- A finished message in TXBUF: its bytes, TXLEN, free bytes above them, and nothing else. -/
theorem encodedMessage_emit {s : State} {bs : List Byte} (h : bs.length ≤ 4096) :
    EncodedMessage bs s (emitMessage s (.ok bs)) := by
  refine ⟨readN_write_self .., ?_, rfl, ⟨⟨rfl, rfl, rfl, rfl, rfl⟩, ?_, ?_, rfl, rfl, rfl, rfl⟩, ?_⟩
  · show (BitVec.ofNat 13 bs.length).toNat = bs.length
    simp; omega
  · intro r hr
    cases r <;> first | (exfalso; revert hr; decide) | rfl
  · intro a ha
    have := inRange_false_iff.mp ha
    exact (read_write_outside (by simp only [Config.bufBytes] at *; omega)).trans (read_havoc_outside ha)
  · intro a h1 h2
    exact (read_write_outside (by omega)).trans
      (read_havoc_inside (inRange_iff.mpr ⟨by omega, h2⟩))

/-- A failed output to TXBUF. -/
theorem encodeFailed_encFail (k : ErrCode) (s : State) : EncodeFailed k s (encFail k s) := by
  refine ⟨rfl, rfl, ⟨rfl, rfl, rfl, rfl, rfl⟩, ?_, ?_, rfl, rfl, rfl, rfl⟩
  · intro r hr
    cases r <;> first | (exfalso; revert hr; decide) | rfl
  · intro a ha
    exact read_havoc_outside ha

/-! ## Entries and messages -/

theorem rxBytes_length (s : State) : s.rxBytes.length = s.rxlen.toNat := by simp [State.rxBytes]

theorem hdrBytes_length (s : State) : s.hdrBytes.length = 240 := by simp [State.hdrBytes]

/-- A slice of HDR is that slice of the image. -/
theorem hdrSlice_eq (t : State) (i n : Nat) (h : i + n ≤ 240) : t.hdrSlice i n = (t.hdrBytes.drop i).take n := by
  simp only [State.hdrSlice, State.hdrBytes, hdrSize]
  apply List.ext_getElem (by simp; omega)
  intro k h1 h2
  simp only [readN_length] at h1
  simp only [List.getElem_take, List.getElem_drop, readN_getElem, Nat.add_assoc]

/-- Storing an entry: it reads back, and no byte outside its 257 changes. -/
theorem storeEntry_reads {s : State} {b : Bank} {i : Nat} {e : Entry} (h : e.payload.length ≤ 255) :
    readEntry (s.storeEntry b i e).mem b i = e
      ∧ KeepsBytes (inRange (entryAddr b i) entrySize) s (s.storeEntry b i e) := by
  refine ⟨?_, fun a ha => ?_⟩
  · simp only [State.storeEntry, writeMem_mem, readEntry_write_image _ _ _ _ h]
  · simp only [State.storeEntry, writeMem_mem, havocMem_mem]
    rw [read_write_outside, read_havoc_outside ha]
    rw [inRange_false_iff] at ha
    simp only [entrySize, image_length] at *
    omega

theorem bankList_length (s : State) (b : Bank) : (s.bankList b).length = s.cnt b := by simp [State.bankList]

theorem bankList_payload (s : State) (b : Bank) : ∀ e ∈ s.bankList b, e.payload.length ≤ 255 := by
  intro e he
  simp only [State.bankList, List.mem_map] at he
  obtain ⟨i, _, rfl⟩ := he
  exact readEntry_payload_length ..

/-- HDR and bank 0 after a commit: the image and the list that were committed, and every other byte as before. -/
theorem storeBank0_reads {s : State} {hdr : List Byte} {l : List Entry} (hh : hdr.length = 240)
    (hl : l.length ≤ s.maxOpts) (hp : ∀ e ∈ l, e.payload.length ≤ 255) :
    ((s.writeMem hdrBase hdr).storeBank0 l).mem.readN hdrBase 240 = hdr
      ∧ (∀ k (h : k < l.length), readEntry ((s.writeMem hdrBase hdr).storeBank0 l).mem .bank0 k = l[k])
      ∧ KeepsBytes (messageBytes s.maxOpts) s ((s.writeMem hdrBase hdr).storeBank0 l) := by
  refine ⟨?_, ?_, ?_⟩
  · rw [storeBank0_mem, writeMem_mem]
    conv => rhs; rw [← readN_write_self s.mem hdrBase hdr, hh]
    apply readN_congr
    intro k hk
    rw [read_writeEntries_outside hp (by simp only [entryAddr, optBase, hdrBase]; omega), read_havoc_outside]
    rw [inRange_false_iff]; simp only [optBase, hdrBase]; omega
  · intro k h
    have := readEntry_writeEntries (m := (s.writeMem hdrBase hdr).mem.havoc (optBase .bank0) (entryStride * s.maxOpts)
      (s.writeMem hdrBase hdr).draws) (b := .bank0) (i := 0) hp h
    simpa using this
  · intro a ha
    simp only [messageBytes, Bool.or_eq_false_iff, inBank, inRange_false_iff, optBase, entryStride, hdrBase, hdrSize] at ha
    rw [storeBank0_mem, writeMem_mem,
      read_writeEntries_outside hp (by simp only [entryAddr, optBase, entryStride, Nat.zero_add]; omega),
      read_havoc_outside, read_write_outside (by simp only [hdrBase]; omega)]
    rw [inRange_false_iff]; simp only [optBase, entryStride, writeMem_maxOpts]; omega

theorem bankList_of_reads {t : State} {b : Bank} {l : List Entry} (hc : t.cnt b = l.length)
    (h : ∀ k (h : k < l.length), readEntry t.mem b k = l[k]) : t.bankList b = l := by
  apply List.ext_getElem (by simp [State.bankList, hc])
  intro k h1 h2
  simp only [State.bankList, List.getElem_map, List.getElem_range]
  exact h k h2

theorem keepsBytes_commit {s t : State} {hdr : List Byte} {l : List Entry}
    (h : KeepsBytes (messageBytes s.maxOpts) s ((s.writeMem hdrBase hdr).storeBank0 l))
    (ht : t.mem = ((s.writeMem hdrBase hdr).storeBank0 l).mem) : KeepsBytes (messageBytes s.maxOpts) s t := by
  intro a ha
  rw [ht]
  exact h a ha

/-- What a finished builder leaves. -/
theorem builtList_commit {s : State} {hdr : List Byte} {l : List Entry} (hm : s.maxOpts ≤ 64) (hh : hdr.length = 240)
    (hl : l.length ≤ s.maxOpts) (hp : ∀ e ∈ l, e.payload.length ≤ 255) :
    BuiltList s (finish (commitMessage hdr l s)) l ∧ (finish (commitMessage hdr l s)).hdrBytes = hdr := by
  obtain ⟨h1, h2, h3⟩ := storeBank0_reads hh hl hp
  have hmem : (finish (commitMessage hdr l s)).mem = ((s.writeMem hdrBase hdr).storeBank0 l).mem := by simp
  have ho : (finish (commitMessage hdr l s)).optcnt0.toNat = l.length := by simp; omega
  refine ⟨⟨bankList_of_reads (by simpa [State.cnt] using ho) (by rw [hmem]; exact h2), ho, by simp, by simp,
    by simp [Ended], ?_, keepsBytes_commit h3 hmem, by simp [KeepsModel]⟩, by rw [State.hdrBytes, hmem]; exact h1⟩
  intro r hr
  cases r <;> first | (exfalso; revert hr; decide) | simp [readReg, State.ctrlWord, State.paramWord]

/-- How a builder ends: it refuses a list that would pass `MAX_OPTS` before it writes, or commits it whole. -/
theorem build_cases {s : State} {hdr : List Byte} {l : List Entry} (hm : s.maxOpts ≤ 64) (hh : hdr.length = 240)
    (hp : ∀ e ∈ l, e.payload.length ≤ 255) :
    (s.maxOpts < l.length ∧ build hdr l s = fail .bldOverflow s)
      ∨ (l.length ≤ s.maxOpts ∧ BuiltList s (build hdr l s) l ∧ (build hdr l s).hdrBytes = hdr) := by
  by_cases h : s.maxOpts < l.length
  · exact .inl ⟨h, if_pos h⟩
  · rw [build, if_neg h]
    exact .inr ⟨Nat.le_of_not_lt h, builtList_commit hm hh (Nat.le_of_not_lt h) hp⟩

/-- What an accepted datagram leaves. -/
theorem decodedAs_commit {s : State} {hdr : List Byte} {r : OptionScan} (hm : s.maxOpts ≤ 64) (hh : hdr.length = 240)
    (hl : r.opts.length ≤ s.maxOpts) (hp : ∀ e ∈ r.opts, e.payload.length ≤ 255) (hs : r.stop ≤ 4096) :
    DecodedAs s (decCommit hdr r s) hdr r.opts r.stat r.ucode r.stop := by
  obtain ⟨h1, h2, h3⟩ := storeBank0_reads hh hl hp
  have hmem : (decCommit hdr r s).mem = ((s.writeMem hdrBase hdr).storeBank0 r.opts).mem := by simp
  have ho : (decCommit hdr r s).optcnt0.toNat = r.opts.length := by simp; omega
  refine ⟨by rw [State.hdrBytes, hmem]; exact h1,
    bankList_of_reads (by simpa [State.cnt] using ho) (by rw [hmem]; exact h2), ho, by simp, by simp, by simp, by simp,
    by simp; omega, by simp [Ended], ?_, keepsBytes_commit h3 hmem, by simp [KeepsModel]⟩
  intro r hr
  cases r <;> first | (exfalso; revert hr; decide) | simp [readReg, State.ctrlWord, State.paramWord]

/-- What a discarded datagram leaves. -/
theorem discardedAs_decFail {s : State} {f : DecodeFailure} (hs : f.stop ≤ 4096) :
    DiscardedAs s (decFail f s) f.code f.stop := by
  refine ⟨rfl, rfl, rfl, rfl, rfl, ?_, ⟨rfl, rfl, rfl, rfl, rfl⟩, ?_, ?_, rfl, rfl, rfl, rfl⟩
  · show (BitVec.ofNat 13 f.stop).toNat = f.stop
    simp; omega
  · intro q hq
    cases q <;> first | (exfalso; revert hq; decide) | rfl
  · intro a ha
    simp only [messageBytes, Bool.or_eq_false_iff] at ha
    show ((s.mem.havoc hdrBase hdrSize s.draws).havoc (optBase .bank0) (entryStride * s.maxOpts) (s.draws + 1)).read a = _
    rw [read_havoc_outside ha.2, read_havoc_outside ha.1]

end Sys2Proof.Machine
end

