-- ==== Sys2Proof/Laws/Bus.lean ====
section
/-! SUPPORT. What one step serves, what the bus does at a register, at a stored byte and at a reserved location, and the
bits of STATUS. -/

namespace Sys2Proof.Machine

/-! ## Who moves -/

/-- The engine's step. -/
theorem step_engine {s : State} (h : EngineTurn s) : step s = engineTurn s.popped := by
  rcases h with h | h
  · simp only [step, takeTurn, State.popped, h]
    congr 1; cases s; simp_all
  · cases hi : s.inbox with
    | nil => simp [hi] at h
    | cons x r => simp [hi] at h; subst h; simp [step, takeTurn, State.popped, hi, serve]

/-- The step that serves an input. -/
theorem step_cons {s : State} {x : Input} {r : List Input} (h : s.inbox = x :: r) : step s = serve x s.popped := by
  simp [step, takeTurn, h, State.popped]

@[simp] theorem popped_busy (s : State) : s.popped.busy = s.busy := rfl
@[simp] theorem popped_readReg (s : State) (r : Reg) : readReg s.popped r = readReg s r := by cases r <;> rfl

theorem busy_of_none {s : State} (h : s.pend = none) : s.busy = false := by simp [State.busy, h]
theorem busy_of_some {s : State} {w : Word} (h : s.pend = some w) : s.busy = true := by simp [State.busy, h]

/-- A step answers a next state, and it is the idle engine's, the engine's completion, a command's, or an input's. -/
theorem engineTurn_cases (s : State) :
    (s.pend = none ∧ engineTurn s = .next s)
      ∨ (∃ w, s.pend = some w ∧ s.taint = true ∧ engineTurn s = .next (finishTainted (decode w) s))
      ∨ (∃ w e, s.pend = some w ∧ s.taint = false ∧ decode w = .error e ∧ engineTurn s = .next (fail .illegalCmd s))
      ∨ ∃ w i, s.pend = some w ∧ s.taint = false ∧ decode w = .ok i ∧ engineTurn s = exec i s := by
  cases hp : s.pend with
  | none => exact .inl ⟨rfl, by simp [engineTurn, hp]⟩
  | some w =>
    cases ht : s.taint with
    | true => exact .inr (.inl ⟨w, rfl, rfl, by simp [engineTurn, hp, runCommand, ht]⟩)
    | false =>
      cases hd : decode w with
      | error e => exact .inr (.inr (.inl ⟨w, e, rfl, rfl, hd, by simp [engineTurn, hp, runCommand, ht, hd]⟩))
      | ok i => exact .inr (.inr (.inr ⟨w, i, rfl, rfl, hd, by simp [engineTurn, hp, runCommand, ht, hd]⟩))

/-! ## Registers and bytes on the bus -/

@[simp] theorem regAt_offset (r : Reg) : regAt r.offset = some r := by cases r <;> rfl

theorem offset_lt (r : Reg) : r.offset ≤ 0xFF ∧ r.offset % 4 = 0 := by cases r <;> decide

@[simp] theorem inRegs_offset (r : Reg) : inRegs r.offset = true := by cases r <;> rfl

@[simp] theorem legalAccess_offset (r : Reg) : legalAccess r.offset 4 = true := by cases r <;> rfl

theorem legalAccess_byte {a : Nat} (h : 0x100 ≤ a) (h' : a < 0x20000) : legalAccess a 1 = true := by
  simp [legalAccess, addressSpace, h, h']

theorem inRegs_byte {a : Nat} (h : 0x100 ≤ a) : inRegs a = false := by simp [inRegs]; omega

theorem regAt_eq_some {a : Nat} {r : Reg} (h : regAt a = some r) : a = r.offset := by
  have := List.find?_some h
  simpa using (beq_iff_eq.mp this).symm

theorem regAt_reserved {a : Nat} (h : 0x048 ≤ a) : regAt a = none := by
  cases hr : regAt a with
  | none => rfl
  | some r =>
    have := regAt_eq_some hr
    subst this
    exfalso; revert h; cases r <;> decide

/-- What a read can do: a bus error, a free value of an unstable location while BUSY, or the location's value. -/
theorem hostRead_cases (a n : Nat) (s : State) :
    (legalAccess a n = false ∧ hostRead a n s = busError s)
      ∨ (legalAccess a n = true ∧ s.busy = true ∧ ∃ x, hostRead a n s = { s.drawn with resp := .data x })
      ∨ (legalAccess a n = true ∧ hostRead a n s = { s with resp := .data (readLocation s a) }) := by
  unfold hostRead
  cases legalAccess a n with
  | false => exact .inl ⟨rfl, rfl⟩
  | true =>
    cases hb : s.busy && !stableLocation a with
    | true => exact .inr (.inl ⟨rfl, by simp_all, _, rfl⟩)
    | false => exact .inr (.inr ⟨rfl, rfl⟩)

/-- What a write can do: a bus error, a hazard while BUSY, or the location's update. -/
theorem hostWrite_cases (a n : Nat) (v : Word) (s : State) :
    (legalAccess a n = false ∧ hostWrite a n v s = busError s)
      ∨ (legalAccess a n = true ∧ s.busy = true ∧ hazardWrite s a v = true
          ∧ hostWrite a n v s = { hazard a s with resp := .ack })
      ∨ (legalAccess a n = true ∧ (s.busy = false ∨ hazardWrite s a v = false)
          ∧ hostWrite a n v s = { writeLocation a v s with resp := .ack }) := by
  unfold hostWrite
  cases legalAccess a n with
  | false => exact .inl ⟨rfl, rfl⟩
  | true =>
    cases hb : s.busy <;> cases hz : hazardWrite s a v
    · exact .inr (.inr ⟨rfl, .inl rfl, rfl⟩)
    · exact .inr (.inr ⟨rfl, .inl rfl, rfl⟩)
    · exact .inr (.inr ⟨rfl, .inr rfl, rfl⟩)
    · exact .inr (.inl ⟨rfl, rfl, rfl, rfl⟩)

/-- Whether a byte of the address space is storage, window by window (20_memory.md R61, R65, R66). -/
theorem isStorage_iff {n a : Nat} : isStorage n a = true ↔
    (0x100 ≤ a ∧ a < 0x1F0) ∨ (0x1000 ≤ a ∧ a < 0x3000) ∨ (0x8000 ≤ a ∧ a < 0x8000 + 512 * n ∧ (a - 0x8000) % 512 < 257)
      ∨ (0x10000 ≤ a ∧ a < 0x10000 + 512 * n ∧ (a - 0x10000) % 512 < 257) := by
  have h1 : inRange hdrBase hdrSize a = true ↔ 0x100 ≤ a ∧ a < 0x1F0 := inRange_iff
  have h2 : inRange rxBase Config.bufBytes a = true ↔ 0x1000 ≤ a ∧ a < 0x2000 := inRange_iff
  have h3 : inRange txBase Config.bufBytes a = true ↔ 0x2000 ≤ a ∧ a < 0x3000 := inRange_iff
  have h4 : inEntry n .bank0 a = true ↔ 0x8000 ≤ a ∧ a < 0x8000 + 512 * n ∧ (a - 0x8000) % 512 < 257 := by
    rw [inEntry, Bool.and_eq_true, decide_eq_true_eq, inBank, inRange_iff, and_assoc]; exact Iff.rfl
  have h5 : inEntry n .bank1 a = true ↔ 0x10000 ≤ a ∧ a < 0x10000 + 512 * n ∧ (a - 0x10000) % 512 < 257 := by
    rw [inEntry, Bool.and_eq_true, decide_eq_true_eq, inBank, inRange_iff, and_assoc]; exact Iff.rfl
  rw [isStorage, Bool.or_eq_true, Bool.or_eq_true, Bool.or_eq_true, Bool.or_eq_true, h1, h2, h3, h4, h5]
  omega

theorem isStorage_entry {n i k : Nat} (b : Bank) (hi : i < n) (hk : k < 257) : isStorage n (entryAddr b i + k) = true := by
  rw [isStorage_iff]
  cases b <;> simp only [entryAddr, optBase, entryStride] <;> omega

/-- Which byte writes are forbidden while BUSY: those to storage. -/
theorem hazardWrite_byte {s : State} {a : Nat} (v : Word) (h : 0x100 ≤ a) : hazardWrite s a v = isStorage s.maxOpts a := by
  simp only [hazardWrite, inRegs_byte h, Bool.false_eq_true, if_false]

/-- A write to a byte that is no storage is acknowledged and ignored, BUSY or not (20_memory.md R65). -/
theorem hostWrite_reserved {s : State} {a : Nat} (v : Word) (h : 0x100 ≤ a) (h' : a < 0x20000)
    (hs : isStorage s.maxOpts a = false) : hostWrite a 1 v s = { s with resp := .ack } := by
  simp only [hostWrite, legalAccess_byte h h', hazardWrite_byte v h, hs, writeLocation, inRegs_byte h, Bool.and_false,
    Bool.not_true, Bool.false_eq_true, if_false]

theorem isStorage_lt {n a : Nat} (hn : n ≤ 64) (h : isStorage n a = true) : 0x100 ≤ a ∧ a < 0x20000 := by
  rw [isStorage_iff] at h; omega

/-! ## Plain register writes -/

@[simp] theorem storeReg_done (r : Reg) (v : Word) (s : State) : (storeReg r v s).done = s.done := by cases r <;> rfl
@[simp] theorem storeReg_err (r : Reg) (v : Word) (s : State) : (storeReg r v s).err = s.err := by cases r <;> rfl
@[simp] theorem storeReg_cmdovr (r : Reg) (v : Word) (s : State) : (storeReg r v s).cmdovr = s.cmdovr := by cases r <;> rfl
@[simp] theorem storeReg_mvalid (r : Reg) (v : Word) (s : State) : (storeReg r v s).mvalid = s.mvalid := by cases r <;> rfl
@[simp] theorem storeReg_errcode (r : Reg) (v : Word) (s : State) : (storeReg r v s).errcode = s.errcode := by cases r <;> rfl
@[simp] theorem storeReg_cmd (r : Reg) (v : Word) (s : State) : (storeReg r v s).cmd = s.cmd := by cases r <;> rfl
@[simp] theorem storeReg_pend (r : Reg) (v : Word) (s : State) : (storeReg r v s).pend = s.pend := by cases r <;> rfl
@[simp] theorem storeReg_txlen (r : Reg) (v : Word) (s : State) : (storeReg r v s).txlen = s.txlen := by cases r <;> rfl
@[simp] theorem storeReg_mtype (r : Reg) (v : Word) (s : State) : (storeReg r v s).mtype = s.mtype := by cases r <;> rfl
@[simp] theorem storeReg_dinfo (r : Reg) (v : Word) (s : State) : (storeReg r v s).dinfo = s.dinfo := by cases r <;> rfl
@[simp] theorem storeReg_maxOpts (r : Reg) (v : Word) (s : State) : (storeReg r v s).maxOpts = s.maxOpts := by cases r <;> rfl
@[simp] theorem storeReg_mem (r : Reg) (v : Word) (s : State) : (storeReg r v s).mem = s.mem := by cases r <;> rfl
@[simp] theorem storeReg_faults (r : Reg) (v : Word) (s : State) : (storeReg r v s).faults = s.faults := by cases r <;> rfl
@[simp] theorem storeReg_taint (r : Reg) (v : Word) (s : State) : (storeReg r v s).taint = s.taint := by cases r <;> rfl
@[simp] theorem storeReg_draws (r : Reg) (v : Word) (s : State) : (storeReg r v s).draws = s.draws := by cases r <;> rfl
@[simp] theorem storeReg_inbox (r : Reg) (v : Word) (s : State) : (storeReg r v s).inbox = s.inbox := by cases r <;> rfl
@[simp] theorem storeReg_resp (r : Reg) (v : Word) (s : State) : (storeReg r v s).resp = s.resp := by cases r <;> rfl

/-- A plain write changes no other register. -/
theorem storeReg_other {r q : Reg} (v : Word) (s : State) (h : q ≠ r) : readReg (storeReg r v s) q = readReg s q := by
  cases r <;> first | rfl | (cases q <;> first | exact absurd rfl h | rfl)

/-- Away from CMD, STATUS and a soft reset a register write is a plain one. -/
theorem writeReg_plain {r : Reg} {v : Word} (s : State) (h1 : r ≠ .cmd) (h2 : r ≠ .status)
    (h3 : r = .ctrl → v.getLsbD 1 = false) : writeReg r v s = storeReg r v s := by
  cases r <;>
    first
      | rfl
      | exact absurd rfl h1
      | exact absurd rfl h2
      | simp only [writeReg, writeCtrl, h3 rfl, Bool.false_eq_true, if_false]

/-- What a register write can do: a reset, the acknowledgement of STATUS, a command accepted or dropped, or a plain
write. -/
theorem writeReg_cases (r : Reg) (v : Word) (s : State) :
    (r = .ctrl ∧ v.getLsbD 1 = true ∧ writeReg r v s = resetBlock s)
      ∨ (r = .status ∧ writeReg r v s = writeStatus v s)
      ∨ (r = .cmd ∧ s.busy = true ∧ writeReg r v s = { s with cmdovr := true })
      ∨ (r = .cmd ∧ s.busy = false ∧ writeReg r v s = acceptCommand v s)
      ∨ (r ≠ .cmd ∧ r ≠ .status ∧ writeReg r v s = storeReg r v s) := by
  by_cases h1 : r = .cmd
  · subst h1
    cases hb : s.busy with
    | true => exact .inr (.inr (.inl ⟨rfl, rfl, by simp [writeReg, writeCmd, hb]⟩))
    | false => exact .inr (.inr (.inr (.inl ⟨rfl, rfl, by simp [writeReg, writeCmd, hb]⟩)))
  · by_cases h2 : r = .status
    · subst h2; exact .inr (.inl ⟨rfl, rfl⟩)
    · by_cases h3 : r = .ctrl ∧ v.getLsbD 1 = true
      · exact .inl ⟨h3.1, h3.2, by rw [h3.1]; simp only [writeReg, writeCtrl, h3.2, if_true]⟩
      · refine .inr (.inr (.inr (.inr ⟨h1, h2, writeReg_plain s h1 h2 fun h => ?_⟩)))
        cases hv : v.getLsbD 1 with
        | false => rfl
        | true => exact absurd ⟨h, hv⟩ h3

/-- A legal write to a register, where no hazard stands against it. -/
theorem hostWrite_reg {r : Reg} {v : Word} {s : State} (h : (s.busy && hazardReg s v r) = false) :
    hostWrite r.offset 4 v s = { writeReg r v s with resp := .ack } := by
  simp only [hostWrite, legalAccess_offset, hazardWrite, writeLocation, inRegs_offset, regAt_offset, if_true, h, Bool.not_true,
    Bool.false_eq_true, if_false]

/-- A read of a register, while idle or of a stable one. -/
theorem hostRead_reg {r : Reg} {s : State} (h : (s.busy && !stableReg r) = false) :
    hostRead r.offset 4 s = { s with resp := .data (readReg s r) } := by
  simp only [hostRead, legalAccess_offset, stableLocation, readLocation, inRegs_offset, regAt_offset, if_true, h, Bool.not_true,
    Bool.false_eq_true, if_false, Bool.true_and]

/-! ## A tainted completion (log 7) -/

/-- Free outputs touch no input, no mark, no parameter and not CMDOVR. -/
theorem havocOutputs_keeps (i : Instr) (s : State) :
    (havocOutputs i s).inbox = s.inbox ∧ (havocOutputs i s).cmdovr = s.cmdovr ∧ (havocOutputs i s).maxOpts = s.maxOpts
      ∧ (havocOutputs i s).faults = s.faults := by
  cases i with
  | optdec b x c => simp only [havocOutputs, havocEntry]; split <;> simp
  | _ => simp [havocOutputs, havocTx, havocMessage]

theorem finishTainted_keeps (d : Except Illegal Instr) (s : State) :
    (finishTainted d s).inbox = s.inbox ∧ (finishTainted d s).cmdovr = s.cmdovr
      ∧ (finishTainted d s).maxOpts = s.maxOpts ∧ (finishTainted d s).faults = s.faults := by
  cases d with
  | error e => simp [finishTainted]
  | ok i => simp [finishTainted, havocOutputs_keeps i s]

theorem finishTainted_ends (d : Except Illegal Instr) (s : State) :
    (finishTainted d s).pend = none ∧ (finishTainted d s).done = true ∧ (finishTainted d s).taint = false := by
  simp [finishTainted]

theorem freedBytes_havoc {d : Nat} {s t : State} {base size : Nat} (hd : d ≤ s.draws)
    (h : ∀ a, inRange base size a = true → t.mem.read a = (s.mem.havoc base size s.draws).read a) :
    FreedBytes d (inRange base size) t :=
  ⟨s.draws, hd, fun a ha => (h a ha).trans (read_havoc_inside ha)⟩

theorem freedMessage_havoc (s : State) : FreedMessage s.draws (havocMessage s) := by
  refine ⟨freedBytes_havoc (Nat.le_refl _) fun a ha => ?_, freedBytes_havoc (s := s.havocMem hdrBase hdrSize) (by simp) fun a _ => rfl,
    ⟨_, ?_, rfl⟩, ⟨_, ?_, rfl⟩, ⟨_, ?_, rfl⟩⟩
  · exact read_havoc_outside (inRange_false_iff.mpr (by rw [inRange_iff] at ha; simp only [optBase, hdrBase, hdrSize] at *; omega))
  all_goals simp [State.havocBank]; omega

/-- Free outputs are free: each output of the command is read from a draw not used before. -/
theorem havocOutputs_frees (i : Instr) (s : State) : FreedOutputs s.draws i (havocOutputs i s) := by
  have tx : FreedTx s.draws (havocTx s) := ⟨freedBytes_havoc (Nat.le_refl _) fun _ _ => rfl, ⟨_, Nat.le_refl _, rfl⟩⟩
  cases i with
  | xidgen => exact ⟨_, Nat.le_refl _, rfl⟩
  | b2u16 => exact ⟨_, Nat.le_refl _, rfl⟩
  | b2u32 => exact ⟨_, Nat.le_refl _, rfl⟩
  | u16tb => exact tx
  | u32tb => exact tx
  | optenc b x => exact tx
  | msgenc => exact tx
  | msgdec => exact ⟨freedMessage_havoc s, _, by simp [havocMessage, State.havocBank]; omega, rfl⟩
  | blddisc => exact freedMessage_havoc s
  | bldreq => exact freedMessage_havoc s
  | blddecl => exact freedMessage_havoc s
  | bldrel => exact freedMessage_havoc s
  | optdec b x c =>
    simp only [FreedOutputs, havocOutputs, havocEntry]
    split
    · refine ⟨fun _ => freedBytes_havoc (Nat.le_refl _) fun _ _ => ?_, (s.havocMem (entryAddr b x) entrySize).draws, by simp, ?_⟩
      · cases b <;> rfl
      · cases b <;> rfl
    · rename_i h
      refine ⟨fun h' => absurd ?_ h, s.draws, Nat.le_refl _, ?_⟩
      · cases b <;> exact h'
      · cases b <;> rfl

/-- The freed outputs are a matter of the output fields alone. -/
theorem freedOutputs_congr {d : Nat} {i : Instr} {t u : State} (h : FreedOutputs d i t) (h1 : u.mem = t.mem)
    (h2 : u.xidr = t.xidr) (h3 : u.bcval = t.bcval) (h4 : u.txlen = t.txlen) (h5 : u.optcnt0 = t.optcnt0)
    (h6 : u.optcnt1 = t.optcnt1) (h7 : u.mtype = t.mtype) (h8 : u.mvalid = t.mvalid) (h9 : u.dinfo = t.dinfo)
    (h10 : u.maxOpts = t.maxOpts) : FreedOutputs d i u := by
  have hc : ∀ b, u.cnt b = t.cnt b := fun b => by cases b <;> simp [State.cnt, h5, h6]
  cases i <;>
    simpa only [FreedOutputs, FreedTx, FreedMessage, FreedBytes, h1, h2, h3, h4, h5, h7, h8, h9, h10, hc] using h

/-- A tainted completion frees ERR, ERRCODE and every output. -/
theorem finishTainted_frees (i : Instr) (s : State) :
    FreedOutputs s.draws i (finishTainted (.ok i) s)
      ∧ Freed s.draws ((finishTainted (.ok i) s).err, (finishTainted (.ok i) s).errcode)
          fun x => (x.getLsbD 8, ErrCode.ofFree (x.setWidth 8)) := by
  have hd : s.draws ≤ (havocOutputs i s).draws := by
    cases i with
    | optdec b x c => simp only [havocOutputs, havocEntry]; split <;> simp; omega
    | _ => simp [havocOutputs, havocTx, havocMessage, State.havocBank] <;> omega
  exact ⟨freedOutputs_congr (havocOutputs_frees i s) rfl rfl rfl rfl rfl rfl rfl rfl rfl rfl,
    (havocOutputs i s).draws, hd, rfl⟩

/-! ## STATUS (10_state.md R24) -/

theorem statusWord_busy (s : State) : s.statusWord.getLsbD 0 = s.busy := by
  simp only [State.statusWord]
  erw [BitVec.getLsbD_append]
  simp

theorem statusWord_done (s : State) : s.statusWord.getLsbD 1 = s.done := by unfold State.statusWord; grind
theorem statusWord_err (s : State) : s.statusWord.getLsbD 2 = s.err := by unfold State.statusWord; grind
theorem statusWord_cmdovr (s : State) : s.statusWord.getLsbD 3 = s.cmdovr := by unfold State.statusWord; grind
theorem statusWord_mvalid (s : State) : s.statusWord.getLsbD 4 = s.mvalid := by unfold State.statusWord; grind

theorem statusWord_errcode (s : State) : s.statusWord.extractLsb' 8 8 = s.errcode.toByte := by
  apply BitVec.eq_of_getLsbD_eq
  intro i hi
  simp only [BitVec.getLsbD_extractLsb', State.statusWord]
  grind

end Sys2Proof.Machine
end

