-- ==== Sys2Proof/Laws/Decode.lean ====
section
/-! SUPPORT. The fields of a word and the word of given fields are inverse, and what a row of the opcode table says of a
word in terms of its fields. -/

namespace Sys2Proof

theorem cmdFields_cmdWord (f : CmdFields) : cmdFields (cmdWord f) = f := by
  obtain ⟨r, b, i, c, o⟩ := f
  simp only [cmdFields, cmdWord, CmdFields.mk.injEq]
  refine ⟨?_, ?_, ?_, ?_, ?_⟩
  all_goals
    apply BitVec.eq_of_getLsbD_eq
    intro k hk
    simp only [BitVec.getLsbD_extractLsb', BitVec.getLsbD_append]
    grind

theorem cmdWord_cmdFields (w : Word) : cmdWord (cmdFields w) = w := by
  apply BitVec.eq_of_getLsbD_eq
  intro k hk
  simp only [cmdFields, cmdWord, BitVec.getLsbD_extractLsb', BitVec.getLsbD_append]
  grind

theorem cmdWord_inj {f g : CmdFields} (h : cmdWord f = cmdWord g) : f = g := by
  rw [← cmdFields_cmdWord f, h, cmdFields_cmdWord]

theorem cmdWord_and (f g : CmdFields) :
    cmdWord f &&& cmdWord g =
      cmdWord ⟨f.rsv &&& g.rsv, f.bank &&& g.bank, f.idx &&& g.idx, f.code &&& g.code, f.opc &&& g.opc⟩ := by
  apply BitVec.eq_of_getLsbD_eq
  intro k hk
  simp only [cmdWord, BitVec.getLsbD_and, BitVec.getLsbD_append]
  grind

theorem bankBit_bankOfBit (b : BitVec 1) : bankBit (bankOfBit b) = b := by
  revert b; decide

theorem bankOfBit_bankBit (b : Bank) : bankOfBit (bankBit b) = b := by cases b <;> rfl

/-- A row whose mask covers the whole word holds of exactly one word. -/
theorem row_full (w m : Word) : w &&& 0xFFFFFFFF#32 = m ↔ w = m := by
  have : (0xFFFFFFFF#32) = BitVec.allOnes 32 := by decide
  rw [this, BitVec.and_allOnes]

/-- OPTENC's row (30_encoding.md R93), field by field. -/
theorem row_optenc (w : Word) : w &&& 0xFE00FFFF#32 = 0x10#32 ↔
    (cmdFields w).rsv = 0 ∧ (cmdFields w).code = 0 ∧ (cmdFields w).opc = 0x10 := by
  have hm : (0xFE00FFFF#32) = cmdWord ⟨0x7F, 0, 0, 0xFF, 0xFF⟩ := by decide
  have hv : (0x10#32) = cmdWord ⟨0, 0, 0, 0, 0x10⟩ := by decide
  have h7 : ∀ x : BitVec 7, x &&& 127#7 = x := by decide
  have h8 : ∀ x : BitVec 8, x &&& 255#8 = x := by decide
  rw [hm, hv]
  conv => lhs; lhs; rw [← cmdWord_cmdFields w]
  rw [cmdWord_and]
  constructor
  · intro h
    have := cmdWord_inj h
    simpa [h7, h8] using this
  · rintro ⟨h1, h2, h3⟩
    simp [h1, h2, h3, h8]

/-- OPTDEC's row (30_encoding.md R93), field by field. -/
theorem row_optdec (w : Word) : w &&& 0xFE0000FF#32 = 0x11#32 ↔
    (cmdFields w).rsv = 0 ∧ (cmdFields w).opc = 0x11 := by
  have hm : (0xFE0000FF#32) = cmdWord ⟨0x7F, 0, 0, 0, 0xFF⟩ := by decide
  have hv : (0x11#32) = cmdWord ⟨0, 0, 0, 0, 0x11⟩ := by decide
  have h7 : ∀ x : BitVec 7, x &&& 127#7 = x := by decide
  have h8 : ∀ x : BitVec 8, x &&& 255#8 = x := by decide
  rw [hm, hv]
  conv => lhs; lhs; rw [← cmdWord_cmdFields w]
  rw [cmdWord_and]
  constructor
  · intro h
    have := cmdWord_inj h
    simpa [h7, h8] using this
  · rintro ⟨h1, h3⟩
    simp [h1, h3, h8]

/-- What the decoder's list of plain commands answers: the opcode's command, whose fields are the opcode alone. -/
theorem plainCommand_some {o : Byte} {i : Instr} (h : plainCommand o = some i) :
    fieldsOf i = ⟨0, 0, 0, 0, o⟩ ∧ i.wellFormed = true ∧ rowMask i = 0xFFFFFFFF#32 ∧ rowMatch i = encode i
      ∧ Machine.OperandsRead (encode i) i := by
  simp only [plainCommand] at h
  repeat' split at h
  all_goals first
    | (cases h; subst_vars; exact ⟨rfl, rfl, rfl, by decide, trivial⟩)
    | cases h

end Sys2Proof
end

