-- ==== Sys2Proof/Laws/PerInstr.lean ====
section
/-! SUPPORT. Per instruction: its word matches its own row of the opcode table (30_encoding.md R93). -/

/-- The word of a well-formed command matches its row of the opcode table. -/
def Sys2Proof.Laws.EncodeMatchesRow.Statement (i : Sys2Proof.Instr) : Prop :=
  i.wellFormed = true →
    Sys2Proof.encode i &&& Sys2Proof.rowMask i = Sys2Proof.rowMatch i

namespace Sys2Proof.Laws.EncodeMatchesRow

theorem xidgen : Statement (.xidgen) := fun _ => by decide

theorem b2u16 : Statement (.b2u16) := fun _ => by decide

theorem b2u32 : Statement (.b2u32) := fun _ => by decide

theorem u16tb : Statement (.u16tb) := fun _ => by decide

theorem u32tb : Statement (.u32tb) := fun _ => by decide

theorem optenc (bank : Bank) (idx : Nat) : Statement (.optenc bank idx) := fun _ =>
  (row_optenc _).mpr (by simp [encode, cmdFields_cmdWord, fieldsOf])

theorem optdec (bank : Bank) (idx : Nat) (code : Byte) : Statement (.optdec bank idx code) := fun _ =>
  (row_optdec _).mpr (by simp [encode, cmdFields_cmdWord, fieldsOf])

theorem msgenc : Statement (.msgenc) := fun _ => by decide

theorem msgdec : Statement (.msgdec) := fun _ => by decide

theorem blddisc : Statement (.blddisc) := fun _ => by decide

theorem bldreq : Statement (.bldreq) := fun _ => by decide

theorem blddecl : Statement (.blddecl) := fun _ => by decide

theorem bldrel : Statement (.bldrel) := fun _ => by decide

end Sys2Proof.Laws.EncodeMatchesRow
end

