-- ==== Sys2Proof/Tests/Slice0.lean ====
section
/-! SUPPORT. Tests: ill-formed terms, words written out from 30_encoding.md, one step on small states from the vectors of
95_test_vectors.md, and for every statement with hypotheses a state that meets them. -/

namespace Sys2Proof.Tests
open Sys2Proof.Machine

/-! ## States -/

/-- One field of the state a step answers. -/
def after {α : Type} (o : Host.Outcome State Fault Refusal) (f : State → α) : Option α :=
  match o with
  | .next t => some (f t)
  | .fault _ => none
  | .refused _ => none

/-- STATUS as the host reads it after the step. -/
def statusAfter (o : Host.Outcome State Fault Refusal) : Option Word := after o fun t => readReg t .status

/-- The reset state with `bs` in RXBUF and its length in RXLEN. -/
def withRx (bs : List Byte) : State :=
  { State.reset with mem := State.reset.mem.write rxBase bs, rxlen := BitVec.ofNat 13 bs.length }

/-- The state with the list `l` in a bank. -/
def withBank (b : Bank) (l : List Entry) (s : State) : State :=
  ({ s with mem := s.mem.writeEntries b 0 l }).setCnt b (BitVec.ofNat 8 l.length)

/-- `H0` of 95_test_vectors.md: 236 zero bytes and the cookie. -/
def h0 : List Byte := List.replicate 236 0 ++ [0x63, 0x82, 0x53, 0x63]

/-- The state with `H0` in HDR. -/
def withH0 (s : State) : State := { s with mem := s.mem.write hdrBase h0 }

/-- The state with a word in flight. -/
def inFlight (w : Word) (s : State) : State := { s with pend := some w, cmd := w }

/-- The state with inputs to serve. -/
def inputs (l : List Input) (s : State) : State := { s with inbox := l }

/-! ## Ill-formed terms -/

theorem test_wellFormed_refuses_optenc_index : (Instr.optenc .bank0 256).wellFormed = false := by decide
theorem test_wellFormed_refuses_optdec_index : (Instr.optdec .bank1 256 53).wellFormed = false := by decide
theorem test_wellFormed_accepts_last_index : (Instr.optdec .bank1 255 255).wellFormed = true := by decide

/-! ## Words, bit by bit from 30_encoding.md R90 and R93: RSV BANK IDX CODE OPC -/

theorem test_decode_xidgen : decode (0b0000000#7 ++ 0b0#1 ++ 0x00#8 ++ 0x00#8 ++ 0b00000001#8) = .ok .xidgen := rfl
theorem test_decode_b2u16 : decode (0b0000000#7 ++ 0b0#1 ++ 0x00#8 ++ 0x00#8 ++ 0b00000010#8) = .ok .b2u16 := rfl
theorem test_decode_b2u32 : decode (0b0000000#7 ++ 0b0#1 ++ 0x00#8 ++ 0x00#8 ++ 0b00000011#8) = .ok .b2u32 := rfl
theorem test_decode_u16tb : decode (0b0000000#7 ++ 0b0#1 ++ 0x00#8 ++ 0x00#8 ++ 0b00000100#8) = .ok .u16tb := rfl
theorem test_decode_u32tb : decode (0b0000000#7 ++ 0b0#1 ++ 0x00#8 ++ 0x00#8 ++ 0b00000101#8) = .ok .u32tb := rfl
theorem test_decode_optenc :
    decode (0b0000000#7 ++ 0b1#1 ++ 0b00000010#8 ++ 0x00#8 ++ 0b00010000#8) = .ok (.optenc .bank1 2) := rfl
theorem test_decode_optdec :
    decode (0b0000000#7 ++ 0b0#1 ++ 0b00000011#8 ++ 0b00110010#8 ++ 0b00010001#8) = .ok (.optdec .bank0 3 50) := rfl
theorem test_decode_msgenc : decode (0b0000000#7 ++ 0b0#1 ++ 0x00#8 ++ 0x00#8 ++ 0b00100000#8) = .ok .msgenc := rfl
theorem test_decode_msgdec : decode (0b0000000#7 ++ 0b0#1 ++ 0x00#8 ++ 0x00#8 ++ 0b00100001#8) = .ok .msgdec := rfl
theorem test_decode_blddisc : decode (0b0000000#7 ++ 0b0#1 ++ 0x00#8 ++ 0x00#8 ++ 0b00110000#8) = .ok .blddisc := rfl
theorem test_decode_bldreq : decode (0b0000000#7 ++ 0b0#1 ++ 0x00#8 ++ 0x00#8 ++ 0b00110001#8) = .ok .bldreq := rfl
theorem test_decode_blddecl : decode (0b0000000#7 ++ 0b0#1 ++ 0x00#8 ++ 0x00#8 ++ 0b00110010#8) = .ok .blddecl := rfl
theorem test_decode_bldrel : decode (0b0000000#7 ++ 0b0#1 ++ 0x00#8 ++ 0x00#8 ++ 0b00110011#8) = .ok .bldrel := rfl

/-- LC1, LC2, LC3, O44, O45. -/
theorem test_decode_refuses :
    decode 0x00000000 = .error .unknownOpcode ∧ decode 0x00000006 = .error .unknownOpcode
      ∧ decode 0x00010001 = .error .unusedField ∧ decode 0x00000110 = .error .unusedField
      ∧ decode 0x02000010 = .error .reservedBits := ⟨rfl, rfl, rfl, rfl, rfl⟩

/-- P7's line `exec OPTDEC code=54 idx=0 bank=1`. -/
theorem test_encode_optdec : encode (.optdec .bank1 0 54) = 0x01003611 := by decide

/-! ## The host's hooks -/

theorem test_table_word : decodeTableWord 32 0x01003611 = some (.optdec .bank1 0 54) := by decide
theorem test_fetch_word_runs : statusAfter (step (State.reset.withFetchWord 32 0x30)) = some 0x0012 := by decide
theorem test_fetch_word_illegal : statusAfter (step (State.reset.withFetchWord 32 0x6)) = some 0x0106 := by decide

/-! ## ByteCodec -/

/-- B16. -/
theorem test_xidgen : after (exec .xidgen State.reset) (·.xidr) = some (Config.entropy 1) := rfl
theorem test_xidgen_status : statusAfter (exec .xidgen State.reset) = some 0x0002 := by decide
/-- B2. -/
theorem test_b2u16_short : after (exec .b2u16 (withRx [0xAB])) (·.bcval) = some 0xAB := by decide
/-- B5. -/
theorem test_b2u16_prefix : after (exec .b2u16 (withRx [1, 2, 3, 4, 5])) (·.bcval) = some 0x0102 := by decide
/-- B8. -/
theorem test_b2u32_short : after (exec .b2u32 (withRx [0x12, 0x34, 0x56])) (·.bcval) = some 0 := by decide
/-- B11. -/
theorem test_b2u32_prefix : after (exec .b2u32 (withRx [1, 2, 3, 4, 5])) (·.bcval) = some 0x01020304 := by decide
/-- B13. -/
theorem test_u16tb :
    after (exec .u16tb { State.reset with bcval := 0xFFFF05DC }) (fun t => (t.mem.readN txBase 2, t.txlen))
      = some ([0x05, 0xDC], 2) := by decide
/-- B15. -/
theorem test_u32tb :
    after (exec .u32tb { State.reset with bcval := 0x80000001 }) (fun t => (t.mem.readN txBase 4, t.txlen))
      = some ([0x80, 0, 0, 1], 4) := by decide

/-! ## OptionCodec -/

/-- O24. -/
theorem test_optdec_client_id :
    after (exec (.optdec .bank1 0 61) (withRx [1, 0, 0, 0, 0, 0, 1])) (fun t => (t.bankList .bank1, readReg t .status))
      = some ([⟨61, [1, 0, 0, 0, 0, 0, 1]⟩], 0x0002) := by decide
/-- O6. -/
theorem test_optdec_bad_chunk :
    after (exec (.optdec .bank1 0 3) (withRx [1, 2, 3, 4, 5])) (fun t => (readReg t .status, t.optcnt1))
      = some (0x1406, 0) := by decide
/-- O22, encoded. -/
theorem test_optenc_renewal :
    after (exec (.optenc .bank1 0) (withBank .bank1 [⟨58, [0, 0, 0xA8, 0xC0]⟩] State.reset))
      (fun t => t.mem.readN txBase t.txlen.toNat) = some [0x3A, 4, 0, 0, 0xA8, 0xC0] := by decide
/-- O39. -/
theorem test_optenc_bad_width :
    after (exec (.optenc .bank0 0) (withBank .bank0 [⟨50, [1, 2, 3]⟩] State.reset)) (fun t => (readReg t .status, t.txlen))
      = some (0x2106, 0) := by decide

/-! ## MessageCodec -/

/-- E3. -/
theorem test_msgenc_pads :
    after (exec .msgenc (withH0 (withBank .bank0 [⟨53, [1]⟩, ⟨255, []⟩] State.reset)))
      (fun t => (t.txlen, t.mem.readN (txBase + 236) 9)) = some (300, [0x63, 0x82, 0x53, 0x63, 0x35, 1, 1, 0xFF, 0]) := by
  decide +kernel
/-- E6. -/
theorem test_msgenc_first_bad :
    after (exec .msgenc (withH0 (withBank .bank0 [⟨50, [1, 2, 3]⟩, ⟨7, [0]⟩] State.reset)))
      (fun t => (readReg t .status, t.txlen)) = some (0x2106, 0) := by decide +kernel
/-- M20. -/
theorem test_msgdec_unknown :
    after (exec .msgdec (withRx (h0 ++ [0x37, 0x00, 0x0F, 0x01, 0x02])))
      (fun t => (readReg t .status, t.bankList .bank0, readReg t .mtype, readReg t .dinfo))
      = some (0x0012, [⟨55, []⟩], 0x000, 0x00F20F02) := by decide +kernel
/-- M5. -/
theorem test_msgdec_bad_chunk :
    after (exec .msgdec (withRx (h0 ++ [0x03, 0x05, 0x01, 0x02, 0x03, 0x04, 0x05, 0xFF])))
      (fun t => (readReg t .status, t.optcnt0, readReg t .dinfo)) = some (0x1406, 0, 0x00F00004) := by decide +kernel

/-! ## Builders -/

/-- BD1. -/
theorem test_blddisc :
    after (exec .blddisc State.reset) (fun t => (readReg t .status, t.bankList .bank0, readReg t .mtype))
      = some (0x0012, [⟨53, [1]⟩, ⟨55, [1, 3, 6, 0x0F, 0x2E, 0x6C, 0x72, 0x77, 0x79, 0xFC]⟩, ⟨255, []⟩], 0x101) := by decide +kernel
/-- BD4. -/
theorem test_blddisc_count : statusAfter (exec .blddisc { State.reset with optcnt1 := 65 }) = some 0x0306 := by decide +kernel
/-- BD5. -/
theorem test_bldreq_no_offer : statusAfter (exec .bldreq State.reset) = some 0x3006 := by decide +kernel
/-- BD6, on `H0` as the offer: the first option 54 is kept, the seconds go from 0 to 1. -/
theorem test_bldreq :
    after (exec .bldreq (withH0 { withBank .bank0 [⟨53, [5]⟩, ⟨54, [1, 1, 1, 1]⟩, ⟨54, [2, 2, 2, 2]⟩] State.reset with mvalid := true }))
      (fun t => ((t.bankList .bank0).drop 2, t.hdrSlice 8 2, readReg t .mtype))
      = some ([⟨50, [0, 0, 0, 0]⟩, ⟨54, [1, 1, 1, 1]⟩, ⟨255, []⟩], [0, 1], 0x103) := by decide +kernel
/-- BD7. -/
theorem test_blddecl :
    after (exec .blddecl { State.reset with pTgtip := 0x0A000005 })
      (fun t => ((t.bankList .bank0).drop 2, t.hdrSlice 12 4, readReg t .mtype))
      = some ([⟨50, [0x0A, 0, 0, 5]⟩, ⟨255, []⟩], [0, 0, 0, 0], 0x104) := by decide +kernel
/-- P4. -/
theorem test_bldrel :
    after (exec .bldrel { State.reset with pTgtip := 0x0A000005, pGiaddr := 0x0A000001, pMac0 := 0x02001122, pMac1 := 0x3344 })
      (fun t => (t.hdrSlice 12 4, t.hdrSlice 24 10, readReg t .mtype))
      = some ([0x0A, 0, 0, 5], [0x0A, 0, 0, 1, 0x02, 0, 0x11, 0x22, 0x33, 0x44], 0x107) := by decide +kernel

/-! ## The host's side -/

/-- LC5. -/
theorem test_command_overrun :
    after (step (inputs [.write 0x00C 4 0x20] (inFlight 1 State.reset))) (fun t => (t.cmd, t.pend, readReg t .status))
      = some (1, some 1, 0x0009) := by decide
/-- LC8. -/
theorem test_bus_error :
    after (step (inputs [.write 0x004 1 1] State.reset)) (fun t => (t.faults.hostBusError, t.resp, t.ie))
      = some (true, .error, false) := by decide
/-- LC7. -/
theorem test_hazard :
    after (step (inputs [.write 0x1000 1 0x12] (inFlight 1 State.reset))) (fun t => (t.faults.hostHazard, t.taint))
      = some (true, true) := by decide
/-- 20_memory.md R65: a reserved byte of an entry below MAX_OPTS ignores the write, BUSY or not. -/
theorem test_reserved_entry_byte :
    after (step (inputs [.write 0x8101 1 0x12] (inFlight 1 State.reset))) (fun t => (t.faults.hostHazard, t.taint, t.resp))
      = some (false, false, .ack) := by decide
/-- LC9. -/
theorem test_soft_reset :
    after (step (inputs [.write 0x004 4 2] (inFlight 1 { State.reset with xidr := 7 }))) (fun t => (t.pend, t.done, t.xidr))
      = some (none, false, 0) := by decide
/-- LC4. -/
theorem test_acknowledge :
    after (step (inputs [asmAck] { fail .illegalCmd State.reset with ie := true })) (fun t => (readReg t .status, t.irq))
      = some (0x0104, false) := by decide

/-! ## Witnesses: states that meet the hypotheses of the statements -/

theorem withRx_bytes {bs : List Byte} (h : bs.length ≤ 4096) :
    (withRx bs).rxBytes = bs ∧ (withRx bs).rxlen.toNat = bs.length := by
  have hl : (BitVec.ofNat 13 bs.length).toNat = bs.length := by simp; omega
  exact ⟨by simp only [State.rxBytes, withRx, hl, readN_write_self], hl⟩

theorem withBank_list {b : Bank} {l : List Entry} {s : State} (h : l.length ≤ 255) (hp : ∀ e ∈ l, e.payload.length ≤ 255) :
    (withBank b l s).bankList b = l ∧ (withBank b l s).cnt b = l.length := by
  have hl : (BitVec.ofNat 8 l.length).toNat = l.length := by simp; omega
  have hc : (withBank b l s).cnt b = l.length := by cases b <;> exact hl
  refine ⟨bankList_of_reads hc fun k hk => ?_, hc⟩
  have := readEntry_writeEntries (m := s.mem) (b := b) (i := 0) hp hk
  simpa [withBank] using this

theorem withBank_maxOpts (b : Bank) (l : List Entry) (s : State) : (withBank b l s).maxOpts = s.maxOpts := by cases b <;> rfl

theorem reset_paramOk : ParamOk State.reset := ⟨by decide, by decide⟩

theorem withRx_paramOk (bs : List Byte) : ParamOk (withRx bs) := reset_paramOk

theorem no_row_of_six (i : Instr) : (6#32) &&& rowMask i ≠ rowMatch i := by
  cases i
  case optenc b x => exact (by decide : (6#32) &&& 0xFE00FFFF#32 ≠ 0x10#32)
  case optdec b x c => exact (by decide : (6#32) &&& 0xFE0000FF#32 ≠ 0x11#32)
  all_goals decide

/-- A list that fills the buffer to its last byte: 15 host names of 255 bytes and an entry of one byte on the wire. -/
def fullList : List Entry := List.replicate 15 ⟨12, List.replicate 255 0x41⟩ ++ [⟨255, []⟩]

/-- One byte too many. -/
def overList : List Entry := List.replicate 15 ⟨12, List.replicate 255 0x41⟩ ++ [⟨12, []⟩]

theorem witness_DecodeOfEncodeIsIdentity :
    (Instr.optenc .bank0 0).wellFormed = true ∧ (Instr.optdec .bank1 255 255).wellFormed = true := by decide

theorem witness_EncodeOfDecodeIsIdentity : decode 0x01FFFF11 = .ok (.optdec .bank1 255 255) := rfl

theorem witness_DecodeFollowsOpcodeTable :
    ((0x01FF0010#32) &&& rowMask (.optenc .bank0 0) = rowMatch (.optenc .bank0 0)
      ∧ (0x01FF0010#32) &&& rowMask (.optenc .bank1 255) = rowMatch (.optenc .bank1 255))
    ∧ ∀ i : Instr, (6#32) &&& rowMask i ≠ rowMatch i := ⟨by decide, no_row_of_six⟩

theorem witness_StepRunsLatchedCommand :
    (EngineTurn (inFlight 0x30 State.reset) ∧ EngineTurn (inputs [.engine] (inFlight 0x30 State.reset)))
      ∧ (inFlight 0x30 State.reset).pend = some 0x30 ∧ (inFlight 0x30 State.reset).taint = false
      ∧ decode 0x30 = .ok .blddisc := ⟨⟨.inl rfl, .inr rfl⟩, rfl, rfl, rfl⟩

theorem witness_IllegalWordCompletesWithIllegalCmd :
    EngineTurn (inFlight 6 State.reset) ∧ (inFlight 6 State.reset).pend = some 6 ∧ (inFlight 6 State.reset).taint = false
      ∧ ∀ i : Instr, (6#32) &&& rowMask i ≠ rowMatch i := ⟨.inl rfl, rfl, rfl, no_row_of_six⟩

theorem witness_IdleEngineDoesNothing : State.reset.pend = none ∧ EngineTurn State.reset := ⟨rfl, .inl rfl⟩

theorem witness_CmdWriteIsAcceptedWhileIdle :
    (inputs [.write 0x00C 4 1, .engine] State.reset).inbox = .write 0x00C 4 1 :: [.engine]
      ∧ (inputs [.write 0x00C 4 1, .engine] State.reset).pend = none := ⟨rfl, rfl⟩

theorem witness_CmdWriteWhileBusyIsDropped :
    ((inputs [.write 0x00C 4 2] (inFlight 1 State.reset)).inbox = .write 0x00C 4 2 :: []
      ∧ (inputs [.write 0x00C 4 2] (inFlight 1 State.reset)).pend = some 1)
    ∧ ∃ s t : State, s.cmdovr = true ∧ step s = .next t ∧ ∀ x, s.inbox.head? = some x → ¬ clearsCmdOvr x := by
  refine ⟨⟨rfl, rfl⟩, inputs [.write 0x008 4 0x2] { State.reset with cmdovr := true }, _, rfl, rfl, ?_⟩
  intro x hx
  cases hx
  rintro (h | ⟨v, h, hv⟩ | ⟨v, h, _⟩)
  · cases h
  · cases h; revert hv; decide
  · cases h

/-- A command in flight behind a status read; one that a soft reset abandons. -/
theorem witness_EveryAcceptedCommandCompletes :
    (∃ s f : State, s.pend = some 1 ∧ core.run (s.inbox.length + 1) s = .next f ∧ FaultFree f
      ∧ ∀ x ∈ s.inbox.take 2, ¬ resetsBlock x)
    ∧ ∃ s f : State, s.pend = some 1 ∧ core.run (s.inbox.length + 1) s = .next f ∧ FaultFree f
      ∧ ∃ x ∈ s.inbox.take 1, resetsBlock x := by
  refine ⟨⟨inputs [.read 0x008 4] (inFlight 1 State.reset), _, rfl, rfl, rfl, ?_⟩,
    ⟨inputs [.reset] (inFlight 1 State.reset), _, rfl, rfl, rfl, .reset, by decide, .inl rfl⟩⟩
  intro x hx
  obtain rfl : x = .read 0x008 4 := by simpa [inputs] using hx
  rintro (h | ⟨v, h, _⟩) <;> cases h

theorem witness_CommonChecksInOrder :
    4096 < ({ State.reset with rxlen := 4097 }).rxlen.toNat
    ∧ (State.reset.maxOpts < ({ State.reset with optcnt0 := 65 }).cnt .bank0 ∧ State.reset.rxlen.toNat ≤ 4096)
    ∧ State.reset.maxOpts < ({ State.reset with optcnt1 := 65 }).cnt .bank1
    ∧ (State.reset.cnt .bank0 ≤ State.reset.maxOpts ∧ State.reset.cnt .bank0 ≤ 0 ∧ State.reset.cnt .bank0 < 1)
    ∧ (({ State.reset with optcnt1 := 64 }).cnt .bank1 ≤ State.reset.maxOpts ∧ State.reset.maxOpts ≤ 64) := by decide

theorem witness_CommandsWriteOnlyTheirOutputs :
    ∃ s t : State, exec .bldrel s = .next t ∧ exec .u16tb s = .next (u16tbBody s) ∧ writesMvalid .u16tb = false :=
  ⟨State.reset, _, rfl, rfl, rfl⟩

theorem witness_B2uReads :
    ({ State.reset with rxlen := 4096 }).rxlen.toNat ≤ 4096 ∧ 4096 < ({ State.reset with rxlen := 4097 }).rxlen.toNat
      ∧ State.reset.rxlen.toNat < 4 := by decide

theorem witness_ByteConversionsRoundTrip :
    ∃ s t u t' u' : State, exec .u32tb s = .next t ∧ u.rxlen = 4 ∧ (∀ k, k < 4 → u.mem.read (0x1000 + k) = t.mem.read (0x2000 + k))
      ∧ exec .u16tb s = .next t' ∧ u'.rxlen = 2 ∧ ∀ k, k < 2 → u'.mem.read (0x1000 + k) = t'.mem.read (0x2000 + k) :=
  ⟨{ State.reset with bcval := 0x12345678 }, _, withRx [0x12, 0x34, 0x56, 0x78], _, withRx [0x56, 0x78], rfl, rfl,
    by decide, rfl, rfl, by decide⟩

/-- The last entry of a full bank, and the first of a bank of one. -/
theorem witness_OptencEncodesEntry :
    ∃ s u : State, s.cnt .bank1 ≤ s.maxOpts ∧ 63 < s.cnt .bank1 ∧ encodable (readEntry s.mem .bank1 63) = true
      ∧ 0 < u.cnt .bank0 ∧ u.cnt .bank0 ≤ u.maxOpts ∧ encodable (readEntry u.mem .bank0 0) = true :=
  ⟨{ State.reset with mem := State.reset.mem.writeEntries .bank1 63 [⟨61, [7]⟩], optcnt1 := 64 },
    withBank .bank0 [⟨255, [1, 2]⟩] State.reset, by decide⟩

theorem witness_OptencRefusesBadEntry :
    ∃ s : State, s.cnt .bank0 ≤ s.maxOpts ∧ 1 < s.cnt .bank0 ∧ listed (readEntry s.mem .bank0 0).code = false
      ∧ listed (readEntry s.mem .bank0 1).code = true ∧ encodable (readEntry s.mem .bank0 1) = false :=
  ⟨withBank .bank0 [⟨0, []⟩, ⟨61, []⟩] State.reset, by decide⟩

/-- Append at the last index and replace, and a length for each row of R160's table: its only one, or its least and its
greatest. -/
theorem witness_OptdecStoresEntry :
    (∃ s : State, ParamOk s ∧ s.cnt .bank1 ≤ s.maxOpts ∧ 63 ≤ s.cnt .bank1 ∧ 63 < s.maxOpts)
    ∧ (∃ s : State, ParamOk s ∧ s.cnt .bank0 ≤ s.maxOpts ∧ 0 < s.cnt .bank0)
    ∧ ∀ n ∈ [0, 1, 2, 4, 252, 255], ∃ s : State, ParamOk s ∧ s.rxlen.toNat = n ∧ s.rxlen.toNat ≤ 255
        ∧ (n = 252 → s.rxlen.toNat % 4 = 0) := by
  refine ⟨⟨{ State.reset with optcnt1 := 63 }, reset_paramOk, by decide⟩,
    ⟨{ State.reset with optcnt0 := 64 }, reset_paramOk, by decide⟩, fun n hn => ?_⟩
  refine ⟨{ State.reset with rxlen := BitVec.ofNat 13 n }, reset_paramOk, ?_⟩
  revert n
  decide

theorem witness_OptdecRefusesBadPayload :
    ∃ s0 s1 s3 s4096 s256 s255 : State,
      (∀ s ∈ [s0, s1, s3, s4096, s256, s255], s.cnt .bank0 ≤ s.maxOpts ∧ 0 ≤ s.cnt .bank0 ∧ 0 < s.maxOpts)
      ∧ (255 < s256.rxlen.toNat ∧ 255 < s4096.rxlen.toNat ∧ s4096.rxlen.toNat ≤ 4096)
      ∧ (s255.rxlen.toNat ≤ 255 ∧ (0 : Byte) ∉ ([1, 3, 6, 12, 50, 51, 53, 54, 55, 57, 58, 59, 61, 108, 255] : List Byte))
      ∧ (s1.rxlen.toNat ≠ 0 ∧ s3.rxlen.toNat ≠ 4 ∧ s0.rxlen.toNat ≠ 1 ∧ s1.rxlen.toNat ≠ 2 ∧ s3.rxlen.toNat % 4 ≠ 0)
      ∧ s0.rxlen.toNat = 0 :=
  ⟨State.reset, { State.reset with rxlen := 1 }, { State.reset with rxlen := 3 }, { State.reset with rxlen := 4096 },
    { State.reset with rxlen := 256 }, { State.reset with rxlen := 255 }, by decide⟩

theorem witness_OptionRoundTrip :
    ∃ s t : State, ParamOk s ∧ exec (.optdec .bank1 0 53) s = .next t ∧ t.errcode = .none :=
  ⟨withRx [9], _, withRx_paramOk _, rfl, rfl⟩

/-- A list that fills the buffer. -/
theorem witness_MsgencWritesPaddedMessage :
    ∃ s : State, s.cnt .bank0 ≤ s.maxOpts ∧ (∀ e ∈ s.bankList .bank0, encodable e = true)
      ∧ 240 + (wireList (s.bankList .bank0)).length = 4096 := by
  have h := withBank_list (b := .bank0) (l := fullList) (s := State.reset) (by decide) (by decide +kernel)
  refine ⟨withBank .bank0 fullList State.reset, ?_, ?_, ?_⟩
  · rw [h.2]; decide
  · rw [h.1]; decide +kernel
  · rw [h.1]; decide +kernel

theorem witness_MsgencReportsFirstBadEntry :
    (∃ s : State, s.cnt .bank0 ≤ s.maxOpts ∧ s.bankList .bank0 = [⟨53, [1]⟩] ++ ⟨7, [0]⟩ :: [⟨61, []⟩] ∧ encodable ⟨53, [1]⟩ = true
      ∧ listed 7 = false)
    ∧ (∃ s : State, s.cnt .bank0 ≤ s.maxOpts ∧ s.bankList .bank0 = [] ++ ⟨61, []⟩ :: [⟨7, [0]⟩] ∧ listed 61 = true
      ∧ encodable ⟨61, []⟩ = false)
    ∧ ∃ (s : State) (pre : List Entry) (e : Entry), s.cnt .bank0 ≤ s.maxOpts ∧ s.bankList .bank0 = pre ++ e :: []
      ∧ (∀ x ∈ pre, encodable x = true) ∧ 240 + (wireList pre).length ≤ 4096 ∧ encodable e = true
      ∧ 240 + (wireList pre).length + (wire e).length = 4097 := by
  have h := withBank_list (b := .bank0) (l := overList) (s := State.reset) (by decide) (by decide +kernel)
  refine ⟨⟨withBank .bank0 [⟨53, [1]⟩, ⟨7, [0]⟩, ⟨61, []⟩] State.reset, by decide +kernel⟩,
    ⟨withBank .bank0 [⟨61, []⟩, ⟨7, [0]⟩] State.reset, by decide +kernel⟩,
    ⟨withBank .bank0 overList State.reset, overList.take 15, ⟨12, []⟩, ?_, h.1.trans (by decide +kernel), by decide +kernel⟩⟩
  rw [h.2]; decide

/-- A datagram of the header and `l`, and then `tail`. -/
def datagram (l : List Entry) (tail : List Byte) : List Byte := h0 ++ wireList l ++ tail

theorem datagram_ok {l : List Entry} {tail : List Byte} (h : (datagram l tail).length ≤ 4096) :
    ParamOk (withRx (datagram l tail)) ∧ (withRx (datagram l tail)).rxlen.toNat ≤ 4096 ∧ h0.length = 240
      ∧ (withRx (datagram l tail)).rxBytes = h0 ++ wireList l ++ tail ∧ h0.drop 236 = [0x63, 0x82, 0x53, 0x63] :=
  ⟨withRx_paramOk _, by rw [(withRx_bytes h).2]; exact h, by decide +kernel, (withRx_bytes h).1, by decide +kernel⟩

/-- A full list and nothing after it; 63 entries and an End; an unsupported code. `datagram_ok` gives the other
hypotheses. -/
theorem witness_MsgdecParsesWireFormat :
    ((datagram (List.replicate 64 ⟨12, []⟩) []).length ≤ 4096 ∧ (datagram (List.replicate 63 ⟨12, []⟩) (255 :: [9])).length ≤ 4096
      ∧ (datagram [⟨53, [2]⟩] (15 :: [1])).length ≤ 4096)
    ∧ (∀ e ∈ List.replicate 64 (⟨12, []⟩ : Entry) ++ [⟨53, [2]⟩], wellShaped e = true)
    ∧ (List.replicate 64 (⟨12, []⟩ : Entry)).length ≤ State.reset.maxOpts
    ∧ (List.replicate 63 (⟨12, []⟩ : Entry)).length < State.reset.maxOpts ∧ listed 15 = false := by decide +kernel

theorem witness_MsgdecDiscardsBadHeader :
    (∃ s : State, s.rxlen.toNat ≤ 4096 ∧ s.rxlen.toNat < 240)
    ∧ ∃ s : State, s.rxlen.toNat ≤ 4096 ∧ 240 ≤ s.rxlen.toNat ∧ s.chkCookie = true
        ∧ (s.rxBytes.drop 236).take 4 ≠ [0x63, 0x82, 0x53, 0x63] :=
  ⟨⟨{ State.reset with rxlen := 239 }, by decide⟩,
    ⟨{ withRx (List.replicate 240 0) with chkCookie := true }, by decide +kernel⟩⟩

/-- Every clause, after no option and after a full list. -/
theorem witness_MsgdecDiscardsMalformedOption :
    ((datagram (List.replicate 64 ⟨12, []⟩) (255 :: [])).length ≤ 4096 ∧ (datagram (List.replicate 64 ⟨12, []⟩) (12 :: 0 :: [])).length ≤ 4096
      ∧ (datagram [] (53 :: [])).length ≤ 4096 ∧ (datagram [] (61 :: 0 :: [])).length ≤ 4096
      ∧ (datagram [] (12 :: 5 :: [0x41])).length ≤ 4096)
    ∧ (∀ e ∈ List.replicate 64 (⟨12, []⟩ : Entry), wellShaped e = true)
    ∧ (List.replicate 64 (⟨12, []⟩ : Entry)).length = State.reset.maxOpts
    ∧ (listed 255 = true ∧ listed 53 = true ∧ listed 61 = true ∧ listed 12 = true)
    ∧ (lengthTable 61 (0#8).toNat = false ∧ lengthTable 12 (5#8).toNat = true ∧ [(0x41 : Byte)].length < (5#8).toNat
      ∧ lengthTable 12 (0#8).toNat = true ∧ (0#8).toNat ≤ ([] : List Byte).length) := by decide +kernel

theorem witness_RxReadersDependOnValidPrefixOnly :
    ∃ (s : State) (m : Memory), m ≠ s.mem ∧ ∀ k, k < s.rxlen.toNat → m.read (rxBase + k) = s.mem.read (rxBase + k) :=
  ⟨withRx [1, 2], (withRx [1, 2]).mem.write (rxBase + 2) [9], by decide, by decide⟩

theorem witness_MtypeMirrorsLastOption53_present :
    ∃ s t : State, ParamOk s ∧ exec .blddisc s = .next t ∧ t.errcode = .none
      ∧ t.bankList .bank0 = [] ++ ⟨53, [1]⟩ :: [prlOpt, endOpt]
      ∧ ∀ e ∈ [prlOpt, endOpt], ¬ (e.code = 53 ∧ e.payload.length = 1) :=
  ⟨State.reset, blddiscBody State.reset, reset_paramOk, rfl, rfl, by decide +kernel, by decide⟩

theorem witness_MtypeMirrorsLastOption53_absent :
    ∃ s t : State, ParamOk s ∧ exec .msgdec s = .next t ∧ t.errcode = .none
      ∧ ∀ e ∈ t.bankList .bank0, ¬ (e.code = 53 ∧ e.payload.length = 1) := by
  refine ⟨withRx h0, msgdecBody (withRx h0), withRx_paramOk _, ?_, ?_, ?_⟩
  · have h : (withRx h0).rxlen.toNat ≤ 4096 := by rw [(withRx_bytes (by decide +kernel)).2]; decide +kernel
    rw [exec_eq]
    exact checked_of_none (commonCheck_none_iff.mpr ⟨fun _ => h, by simp [banksOf], rfl⟩)
  · decide +kernel
  · decide +kernel

/-- Banks that leave exactly the room a builder needs, and one entry more. -/
theorem witness_Builders :
    ParamOk State.reset
    ∧ ({ State.reset with optcnt1 := 61 }).cnt .bank1 + 3 = State.reset.maxOpts
    ∧ ({ State.reset with optcnt1 := 60 }).cnt .bank1 + 4 = State.reset.maxOpts
    ∧ (({ State.reset with optcnt1 := 62 }).cnt .bank1 ≤ State.reset.maxOpts
      ∧ State.reset.maxOpts + 1 = ({ State.reset with optcnt1 := 62 }).cnt .bank1 + 3)
    ∧ (({ State.reset with optcnt1 := 61 }).cnt .bank1 ≤ State.reset.maxOpts
      ∧ State.reset.maxOpts + 1 = ({ State.reset with optcnt1 := 61 }).cnt .bank1 + 4) := ⟨reset_paramOk, by decide⟩

theorem requestOptions_length_of_empty_offer {s : State} (h : s.cnt .bank0 = 0) :
    (requestOptions s).length = s.cnt .bank1 + 4 := by
  have : s.bankList .bank0 = [] := List.eq_nil_of_length_eq_zero (by rw [bankList_length, h])
  simp [requestOptions, this, bankList_length]

theorem witness_BldreqBuildsRequestFromOffer :
    (∃ s : State, ParamOk s ∧ s.cnt .bank0 ≤ s.maxOpts ∧ s.cnt .bank1 ≤ s.maxOpts ∧ s.mvalid = true
      ∧ (requestOptions s).length = s.maxOpts)
    ∧ ∃ s : State, s.cnt .bank0 ≤ s.maxOpts ∧ s.cnt .bank1 ≤ s.maxOpts ∧ s.mvalid = true
      ∧ s.maxOpts + 1 = (requestOptions s).length :=
  ⟨⟨{ State.reset with optcnt1 := 60, mvalid := true }, reset_paramOk, by decide, by decide, rfl,
      requestOptions_length_of_empty_offer (s := { State.reset with optcnt1 := 60, mvalid := true }) rfl⟩,
    ⟨{ State.reset with optcnt1 := 61, mvalid := true }, by decide, by decide, rfl,
      (requestOptions_length_of_empty_offer (s := { State.reset with optcnt1 := 61, mvalid := true }) rfl).symm⟩⟩

theorem witness_BldreqNeedsHeldMessage :
    State.reset.cnt .bank0 ≤ State.reset.maxOpts ∧ State.reset.cnt .bank1 ≤ State.reset.maxOpts ∧ State.reset.mvalid = false := by
  decide

theorem witness_RelayAddressIsPropagated :
    ∃ s t u : State, ParamOk s ∧ exec .bldrel s = .next t ∧ t.errcode = .none ∧ exec .msgenc t = .next u ∧ u.errcode = .none :=
  ⟨{ State.reset with pGiaddr := 0x0A000001 }, bldrelBody { State.reset with pGiaddr := 0x0A000001 },
    msgencBody (bldrelBody { State.reset with pGiaddr := 0x0A000001 }), reset_paramOk, rfl, by decide +kernel,
    (by rw [exec_eq]; exact checked_of_none (by decide +kernel)), by decide +kernel⟩

/-- A Discover of the reset state, encoded to 300 bytes, and a state that received them. -/
theorem witness_MessageRoundTrip :
    ∃ s t u v : State, ParamOk s ∧ exec .blddisc s = .next t ∧ t.errcode = .none
      ∧ (∀ e ∈ s.bankList .bank1, encodable e = true ∧ e.code ≠ 255) ∧ exec .msgenc t = .next u ∧ u.errcode = .none
      ∧ v.rxlen = u.txlen ∧ v.maxOpts = s.maxOpts
      ∧ ∀ k, k < u.txlen.toNat → v.mem.read (rxBase + k) = u.mem.read (txBase + k) := by
  let u := msgencBody (blddiscBody State.reset)
  have hu : u.txlen.toNat ≤ 4096 := by decide +kernel
  refine ⟨State.reset, blddiscBody State.reset, u, withRx (u.mem.readN txBase u.txlen.toNat), reset_paramOk, rfl,
    by decide +kernel, by decide, (by rw [exec_eq]; exact checked_of_none (by decide +kernel)), by decide +kernel, ?_, rfl, ?_⟩
  · apply BitVec.eq_of_toNat_eq
    rw [(withRx_bytes (by simpa using hu)).2, readN_length]
  · intro k hk
    have h := (withRx_bytes (bs := u.mem.readN txBase u.txlen.toNat) (by simpa using hu)).1
    have h2 := (withRx_bytes (bs := u.mem.readN txBase u.txlen.toNat) (by simpa using hu)).2
    simp only [State.rxBytes, h2, readN_length] at h
    rw [← readN_getElem _ _ u.txlen.toNat k (by simpa using hk), ← readN_getElem u.mem txBase u.txlen.toNat k (by simpa using hk)]
    simp only [h]

/-- Each kind of location at its first and last address. -/
theorem witness_IdleReadReturnsLocation :
    ((inputs [.read 0x044 4] State.reset).inbox = .read 0x044 4 :: [] ∧ State.reset.pend = none ∧ ParamOk State.reset)
    ∧ (Reg.offset .id = 0x000 ∧ Reg.offset .param = 0x044 ∧ 0x048 ≤ 0x0FC ∧ 0x0FC < 0x100 ∧ 0x0FC % 4 = 0)
    ∧ (239 < 240 ∧ 4095 < 4096 ∧ 63 < 64 ∧ 0x1FF < 0x200) := ⟨⟨rfl, rfl, reset_paramOk⟩, by decide, by decide⟩

theorem witness_BusyReadsAreHarmless :
    (inputs [.read 0x010 4] (inFlight 1 State.reset)).inbox = .read 0x010 4 :: [] ∧ (inFlight 1 State.reset).pend = some 1
      ∧ legalAccess 0x010 4 = true ∧ legalAccess 0x1FFFF 1 = true ∧ 0x044 = Reg.offset .param := ⟨rfl, rfl, by decide⟩

theorem witness_RejectedAccessIsBusError :
    0x20000 ≤ 0x20000 ∧ (0x0FF < 0x100 ∧ ¬ (4 = 4 ∧ 0x0FF % 4 = 0)) ∧ (0x100 ≤ 0x100 ∧ 4 ≠ 1)
      ∧ (inputs [.write 0x100 4 7] State.reset).inbox = .write 0x100 4 7 :: [] := by decide

theorem witness_FaultMarksAreSticky :
    (∃ s t : State, step s = .next t ∧ s.faults.has .hostHazard = true)
    ∧ ∃ s t : State, ¬ FaultFree s ∧ core.run 2 s = .next t ∧ t.inbox = [] ∧ t.pend = none :=
  ⟨⟨inputs [.reset] { State.reset with faults := ⟨false, true⟩ }, _, rfl, rfl⟩,
    ⟨inputs [.reset] { State.reset with faults := ⟨false, true⟩ }, _, by unfold FaultFree; decide, rfl, rfl, rfl⟩⟩

theorem witness_IdleByteWriteIsStored :
    (∃ s : State, s.inbox = .write 0x17F00 1 7 :: [] ∧ s.pend = none ∧ ParamOk s
      ∧ 63 < s.maxOpts ∧ 256 < 257 ∧ 0x17F00 = entryAddr .bank1 63 + 256 ∧ 0x1EF = 0x100 + 239 ∧ 0x2FFF = 0x2000 + 4095)
    ∧ (∃ s : State, s.inbox = .write 0x17F01 1 7 :: [] ∧ s.pend = none ∧ ParamOk s
      ∧ 63 < 64 ∧ 257 < 0x200 ∧ 257 ≤ 257 ∧ 0x17F01 = entryAddr .bank1 63 + 257)
    ∧ ∃ s : State, s.inbox = .write 0x8400 1 7 :: [] ∧ s.pend = none ∧ ParamOk s ∧ s.maxOpts ≤ 2
      ∧ 0x8400 = entryAddr .bank0 2 + 0 :=
  ⟨⟨inputs [.write 0x17F00 1 7] State.reset, rfl, rfl, reset_paramOk, by decide⟩,
    ⟨inputs [.write 0x17F01 1 7] State.reset, rfl, rfl, reset_paramOk, by decide⟩,
    ⟨inputs [.write 0x8400 1 7] { State.reset with maxOpts := 2 }, rfl, rfl, ⟨by decide, by decide⟩, by decide⟩⟩

theorem witness_IdleRegisterWriteKeepsItsBits :
    ((inputs [.write (Reg.offset .ctrl) 4 0xFFFFFFFD] State.reset).inbox = .write (Reg.offset .ctrl) 4 0xFFFFFFFD :: []
      ∧ State.reset.pend = none ∧ Reg.ctrl ≠ .cmd ∧ Reg.ctrl ≠ .status ∧ (0xFFFFFFFD#32).getLsbD 1 = false)
    ∧ ((inputs [.write 0x0FC 4 7] State.reset).inbox = .write 0x0FC 4 7 :: [] ∧ 0x048 ≤ 0x0FC ∧ 0x0FC < 0x100 ∧ 0x0FC % 4 = 0) := by
  decide

theorem witness_StatusWriteClearsOnlyDoneAndCmdovr :
    (inputs [.write 0x008 4 0xFFFFFFFF] State.reset).inbox = .write 0x008 4 0xFFFFFFFF :: [] := rfl

theorem witness_ResetLeavesResetValues :
    (inputs [.reset] (inFlight 1 State.reset)).inbox = .reset :: []
      ∧ (inputs [.write 0x004 4 0xFFFFFFFF] (inFlight 1 State.reset)).inbox = .write 0x004 4 0xFFFFFFFF :: []
      ∧ (0xFFFFFFFF#32).getLsbD 1 = true := by decide

/-- Each kind of forbidden write, at the ends of its range. -/
theorem witness_BusyOperandWriteIsMarked :
    ((inputs [.write 0x010 4 7] (inFlight 1 State.reset)).inbox = .write 0x010 4 7 :: [] ∧ (inFlight 1 State.reset).pend = some 1)
      ∧ 0x010 = Reg.offset .rxlen ∧ ((4#32).getLsbD 1 = false ∧ (4#32).getLsbD 2 ≠ State.reset.chkCookie)
      ∧ 0x1EF = 0x100 + 239 ∧ 0x2FFF = 0x2000 + 4095
      ∧ (63 < State.reset.maxOpts ∧ State.reset.maxOpts ≤ 64 ∧ 0x17F00 = entryAddr .bank1 63 + 256) := by decide

theorem witness_BusyAllowedWritesAreDefined :
    ((inputs [.write 0x004 4 1] (inFlight 1 State.reset)).inbox = .write 0x004 4 1 :: [] ∧ (inFlight 1 State.reset).pend = some 1)
      ∧ ((1#32).getLsbD 1 = false ∧ (1#32).getLsbD 2 = State.reset.chkCookie) ∧ State.reset.maxOpts ≤ 64
      ∧ (0x1F0 ≤ 0x1F0 ∧ 0x048 ≤ 0x048 ∧ 0x048 % 4 = 0)
      ∧ (({ State.reset with maxOpts := 2 }).maxOpts ≤ 2 ∧ 2 < 64 ∧ 0x8400 = entryAddr .bank0 2 + 0)
      ∧ (257 ≤ 257 ∧ 257 < 0x200 ∧ 0x17F01 = entryAddr .bank1 63 + 257) := by decide

theorem witness_InterruptFollowsCompletion :
    (∃ s t : State, exec .xidgen s = .next t)
    ∧ (∃ s t : State, s.pend = some 6 ∧ EngineTurn s ∧ step s = .next t)
    ∧ (∃ s t : State, step s = .next t ∧ s.inbox = .write 0x008 4 2 :: [] ∧ (2#32).getLsbD 1 = true)
    ∧ ∃ s t : State, step s = .next t ∧ s.inbox = .write 0x00C 4 1 :: [] ∧ s.pend = none :=
  ⟨⟨State.reset, _, rfl⟩, ⟨inFlight 6 State.reset, _, rfl, .inl rfl, rfl⟩,
    ⟨inputs [.write 0x008 4 2] State.reset, _, rfl, rfl, by decide⟩,
    ⟨inputs [.write 0x00C 4 1] State.reset, _, rfl, rfl, rfl⟩⟩

theorem witness_TypedViewsReadTheirValues :
    (List.replicate 63 (0x0A000001#32)).length ≤ 63 ∧ [(1 : Byte)].length ≠ 4 ∧ [(1 : Byte), 2, 3].length < 4
      ∧ 8 ≤ (8 : Byte).toNat ∧ ({ State.reset with mtype := ⟨5, true⟩ }).mtype.present = true
      ∧ State.reset.mtype.present = false := by decide

theorem witness_LoadRxLoadsBuffer :
    ∃ (s : State) (bs : List Byte), s.pend = none ∧ bs.length = 4096 ∧ s.inbox = asmLoadRx bs ++ [] ∧ FaultFree s :=
  ⟨inputs (asmLoadRx (List.replicate 4096 1) ++ []) State.reset, List.replicate 4096 1, rfl, List.length_replicate, rfl, rfl⟩

theorem witness_StepKeepsInvariant : ∃ s t : State, Inv s ∧ step s = .next t ∧ s.pend = some 0x30 := by
  refine ⟨inFlight 0x30 State.reset, _, ?_, rfl, rfl⟩
  refine ⟨reset_paramOk, allUnspec_wf 0, ?_, ?_, ?_, ?_, ?_, ?_, ?_, ?_, ?_, ?_⟩
  all_goals simp [inFlight, State.reset, Memory.allUnspec]

theorem witness_RegisterWordsAreLaidOut :
    ParamOk { State.reset with maxOpts := 1 } ∧ ParamOk State.reset ∧ (0 < 8 ∧ 16 ≤ 16) :=
  ⟨⟨by decide, by decide⟩, reset_paramOk, by decide⟩

end Sys2Proof.Tests
end

section
/-! PROOFS. What each command's body can do, said once: the lists the builders put together, and the ways each command
ends behind its common checks. -/

namespace Sys2Proof.Machine

/-! ## What the builders put together -/

theorem mem_firstWith {c : Byte} {l : List Entry} {e : Entry} (h : e ∈ firstWith c l) : e ∈ l := by
  unfold firstWith at h
  split at h
  · rename_i x hx
    obtain rfl := List.mem_singleton.mp h
    exact List.mem_of_find?_eq_some hx
  · cases h

/-- Payloads that fit the length byte (10_state.md R42). -/
def PayloadsFit (l : List Entry) : Prop := ∀ e ∈ l, e.payload.length ≤ 255

theorem payloadsFit_append {l m : List Entry} (hl : PayloadsFit l) (hm : PayloadsFit m) : PayloadsFit (l ++ m) :=
  fun e he => (List.mem_append.mp he).elim (hl e) (hm e)

theorem payloadsFit_firstWith (c : Byte) {l : List Entry} (hl : PayloadsFit l) : PayloadsFit (firstWith c l) :=
  fun e he => hl e (mem_firstWith he)

theorem payloadsFit_endOpt : PayloadsFit [endOpt] := by simp [PayloadsFit, endOpt]

/-- The options every built message but DISCOVER begins with. -/
theorem payloadsFit_address (t : Byte) {a : List Byte} (ha : a.length = 4) :
    PayloadsFit [typeOpt t, prlOpt, ripOpt a] := by
  simp [PayloadsFit, typeOpt, prlOpt, ripOpt, ha]

theorem payloadsFit_discoverList {x : List Entry} (hx : PayloadsFit x) : PayloadsFit (discoverList x) :=
  payloadsFit_append (payloadsFit_append (by simp [PayloadsFit, typeOpt, prlOpt]) hx) payloadsFit_endOpt

theorem payloadsFit_requestList {yi : List Byte} {offer x : List Entry} (hy : yi.length = 4) (ho : PayloadsFit offer)
    (hx : PayloadsFit x) : PayloadsFit (requestList yi offer x) :=
  payloadsFit_append (payloadsFit_append (payloadsFit_append (payloadsFit_append (payloadsFit_address 3 hy) hx)
    (payloadsFit_firstWith 54 ho)) (payloadsFit_firstWith 61 ho)) payloadsFit_endOpt

theorem payloadsFit_addressList (t : Byte) (ip : Word) {x : List Entry} (hx : PayloadsFit x) :
    PayloadsFit (addressList t ip x) :=
  payloadsFit_append (payloadsFit_append (payloadsFit_address t (bytes32_length ip)) hx) payloadsFit_endOpt

/-! ## What each command's body can do -/

theorem optencBody_cases (b : Bank) (idx : Nat) (s : State) :
    (∃ bs : List Byte, bs.length ≤ 4096 ∧ optencBody b idx s = finish (s.emitTx bs))
      ∨ ∃ k, optencBody b idx s = encFail k s := by
  rcases encEntry_cases (readEntry s.mem b idx) with ⟨-, h⟩ | ⟨-, k, -, h⟩
  · have := wire_length_le (readEntry_payload_length s.mem b idx)
    exact .inl ⟨wire (readEntry s.mem b idx), by omega, by rw [optencBody, h]; rfl⟩
  · exact .inr ⟨k, by rw [optencBody, h]; rfl⟩

theorem msgencBody_cases (s : State) :
    (∃ bs : List Byte, bs.length ≤ 4096 ∧ msgencBody s = emitMessage s (.ok bs))
      ∨ ∃ k, msgencBody s = encFail k s := by
  rcases encMessage_cases (s.bankList .bank0) (hdrBytes_length s) with ⟨bs, h, -, hl, -⟩ | ⟨k, -, h⟩
  · exact .inl ⟨bs, hl, by rw [msgencBody, h]⟩
  · exact .inr ⟨k, by rw [msgencBody, h]; rfl⟩

theorem optdecBody_cases (b : Bank) (idx : Nat) (c : Byte) (s : State) :
    (∃ k, optdecBody b idx c s = fail k s)
      ∨ ∃ e : Entry, e.payload.length ≤ 255 ∧ optdecBody b idx c s = finish (placeEntry b idx e s) := by
  unfold optdecBody
  split
  · exact .inl ⟨_, rfl⟩
  · rename_i hr
    rcases decOpt_cases c s.rxBytes with ⟨-, h⟩ | ⟨k, -, h⟩
    · exact .inr ⟨⟨c, s.rxBytes⟩, by rw [rxBytes_length]; omega, by rw [h]⟩
    · exact .inl ⟨k, by rw [h]⟩

/-- MSGDEC discards the message or commits a whole one; every offset lies within RXBUF. -/
theorem msgdecBody_cases {s : State} (hr : s.rxlen.toNat ≤ 4096) :
    (∃ f : DecodeFailure, f.stop ≤ 4096 ∧ msgdecBody s = decFail f s)
      ∨ ∃ hdr r, hdr.length = 240 ∧ r.opts.length ≤ s.maxOpts ∧ PayloadsFit r.opts ∧ r.stop ≤ 4096
          ∧ (r.stat ≠ .unknown → r.ucode = 0) ∧ msgdecBody s = decCommit hdr r s := by
  have hl := rxBytes_length s
  cases hd : decodeMessage s.maxOpts s.chkCookie s.rxBytes with
  | error f =>
    obtain ⟨-, hstop⟩ := decodeMessage_error hd
    exact .inl ⟨f, by omega, by rw [msgdecBody, hd]⟩
  | ok p =>
    obtain ⟨hdr, r⟩ := p
    obtain ⟨hh, hb, hs⟩ := decodeMessage_ok hd
    obtain ⟨ho, hp, hstop, -, hu⟩ := scanOptions_ok hs
    rw [List.length_drop] at hstop
    exact .inr ⟨hdr, r, hh, ho, hp, by omega, hu, by rw [msgdecBody, hd]⟩

/-- A builder fails before it writes, or commits a whole message. -/
def BuildsOrFails (s t : State) : Prop :=
  (∃ k, t = fail k s)
    ∨ ∃ hdr l, hdr.length = 240 ∧ l.length ≤ s.maxOpts ∧ PayloadsFit l ∧ t = finish (commitMessage hdr l s)

theorem buildsOrFails_build {s : State} {hdr : List Byte} {l : List Entry} (hh : hdr.length = 240)
    (hp : PayloadsFit l) : BuildsOrFails s (build hdr l s) := by
  unfold build
  split
  · exact .inl ⟨_, rfl⟩
  · rename_i hl
    exact .inr ⟨hdr, l, hh, Nat.le_of_not_lt hl, hp, rfl⟩

theorem hdrFromRegs_length (s : State) {ci : List Byte} (hc : ci.length = 4) : (s.hdrFromRegs ci).length = 240 :=
  hdrBuild_length hc (macBytes_length s)

theorem hdrFromOffer_length (s : State) : s.hdrFromOffer.length = 240 := hdrBuild_length rfl (readN_length ..)

theorem blddiscBody_cases (s : State) : BuildsOrFails s (blddiscBody s) :=
  buildsOrFails_build (hdrFromRegs_length s rfl) (payloadsFit_discoverList (bankList_payload s .bank1))

theorem bldreqBody_cases (s : State) : BuildsOrFails s (bldreqBody s) := by
  unfold bldreqBody
  split
  · exact .inl ⟨_, rfl⟩
  · exact buildsOrFails_build (hdrFromOffer_length s)
      (payloadsFit_requestList (readN_length ..) (bankList_payload s .bank0) (bankList_payload s .bank1))

theorem blddeclBody_cases (s : State) : BuildsOrFails s (blddeclBody s) :=
  buildsOrFails_build (hdrFromRegs_length s rfl) (payloadsFit_addressList 4 s.pTgtip (bankList_payload s .bank1))

theorem bldrelBody_cases (s : State) : BuildsOrFails s (bldrelBody s) :=
  buildsOrFails_build (hdrFromRegs_length s rfl) (payloadsFit_addressList 7 s.pTgtip (bankList_payload s .bank1))

end Sys2Proof.Machine
end

section
/-! PROOFS. The invariant under each shared operation, and so under every step (O55). -/

namespace Sys2Proof.Machine

/-! ## The invariant under each named operation -/

/-- Addresses `a .. a + n` of storage, byte by byte. -/
def StorageRange (maxOpts a n : Nat) : Prop := ∀ x, a ≤ x → x < a + n → isStorage maxOpts x = true

theorem storageRange_hdr (n : Nat) : StorageRange n hdrBase hdrSize := by
  intro x h1 h2
  rw [isStorage_iff]; simp only [hdrBase, hdrSize] at h1 h2; omega

theorem storageRange_tx {n k : Nat} (h : k ≤ 4096) : StorageRange n txBase k := by
  intro x h1 h2
  rw [isStorage_iff]; simp only [txBase] at h1 h2; omega

theorem storageRange_entry {n i : Nat} (b : Bank) (h : i < n) : StorageRange n (entryAddr b i) entrySize := by
  intro x h1 h2
  obtain ⟨k, rfl⟩ := Nat.exists_eq_add_of_le h1
  exact isStorage_entry b h (by simp only [entrySize] at h2; omega)

/-- Bytes written within storage keep the invariant. -/
theorem inv_writeMem {s : State} (h : Inv s) {a : Nat} {bs : List Byte} (ha : StorageRange s.maxOpts a bs.length) :
    Inv (s.writeMem a bs) :=
  { h with
    memWf := write_wf h.memWf a bs
    stored := fun c hc => (mem_cells_write hc).elim (fun hr => ha c.1 hr.1 hr.2) (h.stored c)
    fresh := h.fresh }

theorem inv_havocMem {s : State} (h : Inv s) (a n : Nat) : Inv (s.havocMem a n) :=
  { h with
    memWf := havoc_wf h.memWf a n s.draws
    stored := fun c hc => h.stored c (mem_cells_havoc hc)
    fresh := fun r hr => by
      rcases mem_unspec_havoc hr with rfl | hr
      · exact Nat.lt_succ_self _
      · exact Nat.lt_succ_of_lt (h.fresh r hr) }

theorem inv_drawn {s : State} (h : Inv s) : Inv s.drawn :=
  { h with fresh := fun r hr => Nat.lt_succ_of_lt (h.fresh r hr) }

theorem inv_complete {s : State} (h : Inv s) (k : ErrCode) : Inv (complete k s) :=
  { h with
    busy := fun hp => absurd rfl hp
    latch := fun _ hp => by cases hp
    taint := fun ht => by cases ht
    err := fun _ => rfl }

theorem inv_storeReg {s : State} (h : Inv s) (r : Reg) (v : Word) : Inv (storeReg r v s) := by
  cases r <;> exact { h with }

theorem inv_setCnt {s : State} (h : Inv s) (b : Bank) (v : Byte) : Inv (s.setCnt b v) := by
  cases b <;> exact { h with }

theorem inv_resetBlock {s : State} (h : Inv s) : Inv (resetBlock s) where
  param := h.param
  memWf := allUnspec_wf s.draws
  stored := fun c hc => by cases hc
  fresh := fun r hr => by
    obtain rfl : r = ⟨0, 0x20000, s.draws⟩ := by simpa [Memory.allUnspec] using hr
    exact Nat.lt_succ_self _
  busy := fun hp => absurd rfl hp
  latch := fun _ hp => by cases hp
  taint := fun ht => by cases ht
  err := fun _ => rfl
  txlen := fun _ => Nat.zero_le _
  doff := fun _ => Nat.zero_le _
  mtype := fun _ _ => rfl
  ucode := fun _ _ => rfl

theorem inv_emitTx {s : State} (h : Inv s) {bs : List Byte} (hl : bs.length ≤ 4096) : Inv (s.emitTx bs) :=
  { inv_writeMem h (storageRange_tx hl) with
    txlen := fun _ => Nat.le_trans (Nat.mod_le _ _) hl }

theorem inv_encFail {s : State} (h : Inv s) (k : ErrCode) : Inv (encFail k s) :=
  inv_complete (s := { s.havocMem txBase Config.bufBytes with txlen := 0 })
    { inv_havocMem h txBase Config.bufBytes with txlen := fun _ => Nat.zero_le _ } k

theorem inv_storeEntry {s : State} (h : Inv s) {b : Bank} {i : Nat} {e : Entry} (hi : i < s.maxOpts)
    (he : e.payload.length ≤ 255) : Inv (s.storeEntry b i e) :=
  inv_writeMem (inv_havocMem h (entryAddr b i) entrySize) fun x h1 h2 =>
    storageRange_entry b hi x h1 (by simp only [image_length] at h2; simp only [entrySize]; omega)

theorem inv_placeEntry {s : State} (h : Inv s) {b : Bank} {i : Nat} {e : Entry} (hi : i < s.maxOpts)
    (he : e.payload.length ≤ 255) : Inv (placeEntry b i e s) := by
  have hs := inv_storeEntry (b := b) h hi he
  unfold placeEntry
  split
  · exact inv_setCnt hs b _
  · exact hs

theorem inv_storeBank0 {s : State} (h : Inv s) {l : List Entry} (hl : l.length ≤ s.maxOpts)
    (hp : PayloadsFit l) : Inv (s.storeBank0 l) :=
  have h' : Inv (s.havocBank .bank0) := inv_havocMem h _ _
  { h' with
    memWf := writeEntries_wf h'.memWf .bank0 0 l
    stored := fun c hc => by
      rcases mem_cells_writeEntries hp hc with ⟨k, hk, h1, h2⟩ | hc
      · exact storageRange_entry (n := s.maxOpts) .bank0 (by omega) c.1 h1 h2
      · exact h'.stored c hc
    fresh := fun r hr => h'.fresh r (writeEntries_unspec (s.havocBank .bank0).mem .bank0 0 l ▸ hr) }

theorem inv_commitMessage {s : State} (h : Inv s) {hdr : List Byte} {l : List Entry} (hh : hdr.length = 240)
    (hl : l.length ≤ s.maxOpts) (hp : PayloadsFit l) : Inv (commitMessage hdr l s) :=
  have hw : Inv (s.writeMem hdrBase hdr) := inv_writeMem h (hh ▸ storageRange_hdr s.maxOpts)
  { inv_storeBank0 hw hl hp with
    mtype := fun _ => mtypeOf_absent }

theorem inv_decCommit {s : State} (h : Inv s) {hdr : List Byte} {r : OptionScan} (hh : hdr.length = 240)
    (hl : r.opts.length ≤ s.maxOpts) (hp : PayloadsFit r.opts) (hs : r.stop ≤ 4096)
    (hu : r.stat ≠ .unknown → r.ucode = 0) : Inv (decCommit hdr r s) :=
  inv_complete (s := { commitMessage hdr r.opts s with dinfo := ⟨r.stat, r.ucode, BitVec.ofNat 13 r.stop⟩ })
    { inv_commitMessage h hh hl hp with
      doff := fun _ => Nat.le_trans (Nat.mod_le _ _) hs
      ucode := fun _ => hu } .none

theorem inv_decFail {s : State} (h : Inv s) {f : DecodeFailure} (hs : f.stop ≤ 4096) : Inv (decFail f s) :=
  inv_complete (s := { (s.havocMem hdrBase hdrSize).havocBank .bank0 with
      optcnt0 := 0, mtype := ⟨0, false⟩, mvalid := false, dinfo := ⟨.failed, 0, BitVec.ofNat 13 f.stop⟩ })
    { inv_havocMem (inv_havocMem h hdrBase hdrSize) (optBase .bank0) (entryStride * s.maxOpts) with
      doff := fun _ => Nat.le_trans (Nat.mod_le _ _) hs
      mtype := fun _ _ => rfl
      ucode := fun _ _ => rfl } f.code

/-! ## The invariant under a command -/

theorem inv_buildsOrFails {s t : State} (h : Inv s) (ht : BuildsOrFails s t) : Inv t := by
  rcases ht with ⟨k, rfl⟩ | ⟨hdr, l, hh, hl, hp, rfl⟩
  · exact inv_complete h k
  · exact inv_complete (inv_commitMessage h hh hl hp) .none

theorem inv_bodyOf {i : Instr} {s : State} (h : Inv s) (hc : commonCheck i s = none) : Inv (bodyOf i s) := by
  obtain ⟨hrx, -, hidx⟩ := commonCheck_none_iff.mp hc
  cases i with
  | xidgen => exact inv_complete (s := { s.drawn with xidr := Config.entropy s.draws }) { inv_drawn h with } .none
  | b2u16 => exact inv_complete (s := { s with bcval := u16OfBytes s.rxBytes }) { h with } .none
  | b2u32 => exact inv_complete (s := { s with bcval := u32OfBytes s.rxBytes }) { h with } .none
  | u16tb => exact inv_complete (inv_emitTx h (by simp)) .none
  | u32tb => exact inv_complete (inv_emitTx h (by simp)) .none
  | optenc b idx =>
    rcases optencBody_cases b idx s with ⟨bs, hl, ht⟩ | ⟨k, ht⟩ <;> rw [bodyOf, ht]
    · exact inv_complete (inv_emitTx h hl) .none
    · exact inv_encFail h k
  | optdec b idx c =>
    have hi : idx < s.maxOpts := by simp [badIndex] at hidx; omega
    rcases optdecBody_cases b idx c s with ⟨k, ht⟩ | ⟨e, he, ht⟩ <;> rw [bodyOf, ht]
    · exact inv_complete h k
    · exact inv_complete (inv_placeEntry h hi he) .none
  | msgenc =>
    rcases msgencBody_cases s with ⟨bs, hl, ht⟩ | ⟨k, ht⟩ <;> rw [bodyOf, ht]
    · exact inv_complete (inv_emitTx (inv_havocMem h txBase Config.bufBytes) hl) .none
    · exact inv_encFail h k
  | msgdec =>
    rcases msgdecBody_cases (hrx rfl) with ⟨f, hs, ht⟩ | ⟨hdr, r, hh, hl, hp, hs, hu, ht⟩ <;> rw [bodyOf, ht]
    · exact inv_decFail h hs
    · exact inv_decCommit h hh hl hp hs hu
  | blddisc => exact inv_buildsOrFails h (blddiscBody_cases s)
  | bldreq => exact inv_buildsOrFails h (bldreqBody_cases s)
  | blddecl => exact inv_buildsOrFails h (blddeclBody_cases s)
  | bldrel => exact inv_buildsOrFails h (bldrelBody_cases s)

theorem inv_exec {i : Instr} {s t : State} (h : Inv s) (ht : exec i s = .next t) : Inv t := by
  rcases exec_cases i s with ⟨k, -, -, he⟩ | ⟨hc, he⟩ <;> (rw [he] at ht; cases ht)
  · exact inv_complete h k
  · exact inv_bodyOf h hc

/-! ## The invariant under a hazard (70_reset_and_hazards.md R312): with the mark set the status clauses say nothing -/

/-- Once a hazard is marked, the storage and the latch carry the invariant; every status field is free. -/
theorem inv_of_hazard {s t : State} (h : Inv s) (hz : t.faults.hostHazard = true) (hmax : t.maxOpts = s.maxOpts)
    (hmem : t.mem = s.mem) (hdraws : s.draws ≤ t.draws) (hpend : t.pend = s.pend) (hdone : t.done = s.done)
    (hcmd : t.cmd = s.cmd) : Inv t :=
  have off : t.faults.hostHazard ≠ false := by simp [hz]
  { param := by unfold ParamOk; rw [hmax]; exact h.param
    memWf := by rw [hmem]; exact h.memWf
    stored := by rw [hmem, hmax]; exact h.stored
    fresh := by rw [hmem]; exact fun r hr => Nat.lt_of_lt_of_le (h.fresh r hr) hdraws
    busy := by rw [hpend, hdone]; exact h.busy
    latch := by rw [hpend, hcmd]; exact h.latch
    taint := fun _ => hz
    err := fun hf => absurd hf off
    txlen := fun hf => absurd hf off
    doff := fun hf => absurd hf off
    mtype := fun hf => absurd hf off
    ucode := fun hf => absurd hf off }

theorem inv_havocTx {s : State} (h : Inv s) (hz : s.faults.hostHazard = true) : Inv (havocTx s) :=
  inv_of_hazard (inv_havocMem h txBase Config.bufBytes) hz rfl rfl (Nat.le_succ _) rfl rfl rfl

theorem inv_havocMessage {s : State} (h : Inv s) (hz : s.faults.hostHazard = true) : Inv (havocMessage s) :=
  inv_of_hazard (inv_havocMem (inv_havocMem h hdrBase hdrSize) (optBase .bank0) (entryStride * s.maxOpts)) hz rfl rfl
    (Nat.le_succ _) rfl rfl rfl

theorem inv_havocEntry {s : State} (h : Inv s) (b : Bank) (idx : Nat) : Inv (havocEntry b idx s) := by
  unfold havocEntry
  split
  · exact inv_drawn (inv_setCnt (inv_havocMem h _ _) b _)
  · exact inv_drawn (inv_setCnt h b _)

theorem inv_havocOutputs {s : State} (h : Inv s) (hz : s.faults.hostHazard = true) (i : Instr) :
    Inv (havocOutputs i s) := by
  cases i with
  | xidgen => exact inv_drawn (inv_storeReg h .xidr _)
  | b2u16 => exact inv_drawn (inv_storeReg h .bcval _)
  | b2u32 => exact inv_drawn (inv_storeReg h .bcval _)
  | optdec b idx c => exact inv_havocEntry h b idx
  | msgdec => exact inv_of_hazard (inv_havocMessage h hz) hz rfl rfl (Nat.le_succ _) rfl rfl rfl
  | u16tb | u32tb | optenc | msgenc => exact inv_havocTx h hz
  | blddisc | bldreq | blddecl | bldrel => exact inv_havocMessage h hz

/-- The completion of a command with free outputs `t`. -/
theorem inv_finishTainted {s : State} (h : Inv s) (hz : s.faults.hostHazard = true) (d : Except Illegal Instr) :
    Inv (finishTainted d s) := by
  have free {t : State} (k : ErrCode) (e : Bool) (ht : Inv t) (hz : t.faults.hostHazard = true) :
      Inv { (complete k t).drawn with err := e } :=
    inv_of_hazard (inv_complete ht k) hz rfl rfl (Nat.le_succ _) rfl rfl rfl
  cases d with
  | error e => exact free _ _ h hz
  | ok i =>
    obtain ⟨-, -, -, hf⟩ := havocOutputs_keeps i s
    exact free _ _ (inv_havocOutputs h hz i) (hf ▸ hz)

theorem inv_engineTurn {s t : State} (h : Inv s) (ht : engineTurn s = .next t) : Inv t := by
  rcases engineTurn_cases s with ⟨-, he⟩ | ⟨w, -, htaint, he⟩ | ⟨w, e, -, -, -, he⟩ | ⟨w, i, -, -, -, he⟩ <;>
    rw [he] at ht
  · cases ht; exact h
  · cases ht; exact inv_finishTainted h (h.taint htaint) _
  · cases ht; exact inv_complete h .illegalCmd
  · exact inv_exec h ht

/-! ## The invariant under an access of the host -/

theorem inv_resp {s : State} (h : Inv s) (r : BusResponse) : Inv { s with resp := r } := { h with }

theorem inv_busError {s : State} (h : Inv s) : Inv (busError s) := { h with }

theorem inv_hostRead {s : State} (h : Inv s) (a n : Nat) : Inv (hostRead a n s) := by
  rcases hostRead_cases a n s with ⟨-, he⟩ | ⟨-, -, x, he⟩ | ⟨-, he⟩ <;> rw [he]
  · exact inv_busError h
  · exact inv_resp (inv_drawn h) _
  · exact inv_resp h _

theorem inv_havocLocation {s : State} (h : Inv s) (a : Nat) : Inv (havocLocation a s) := by
  unfold havocLocation
  split
  · split
    · exact inv_drawn (inv_storeReg h _ _)
    · exact h
  · split
    · exact inv_havocMem h a 1
    · exact h

theorem inv_markHazard {s : State} (h : Inv s) : Inv { s.mark .hostHazard with taint := true } :=
  inv_of_hazard h rfl rfl rfl (Nat.le_refl _) rfl rfl rfl

theorem inv_hazard {s : State} (h : Inv s) (a : Nat) : Inv (hazard a s) := inv_markHazard (inv_havocLocation h a)

theorem inv_writeReg {s : State} (h : Inv s) (r : Reg) (v : Word) : Inv (writeReg r v s) := by
  rcases writeReg_cases r v s with ⟨-, -, he⟩ | ⟨-, he⟩ | ⟨-, -, he⟩ | ⟨-, -, he⟩ | ⟨-, -, he⟩ <;> rw [he]
  · exact inv_resetBlock h
  · exact { h with busy := fun hp => by simp [writeStatus, h.busy hp] }
  · exact { h with }
  · exact { h with busy := fun _ => rfl, latch := fun _ hp => Option.some.inj hp }
  · exact inv_storeReg h r v

theorem inv_writeLocation {s : State} (h : Inv s) (a : Nat) (v : Word) : Inv (writeLocation a v s) := by
  unfold writeLocation
  split
  · split
    · exact inv_writeReg h _ v
    · exact h
  · split
    · rename_i hs
      exact inv_writeMem h fun x h1 h2 => by
        obtain rfl : x = a := by simp only [List.length_singleton] at h2; omega
        exact hs
    · exact h

theorem inv_hostWrite {s : State} (h : Inv s) (a n : Nat) (v : Word) : Inv (hostWrite a n v s) := by
  rcases hostWrite_cases a n v s with ⟨-, he⟩ | ⟨-, -, -, he⟩ | ⟨-, -, he⟩ <;> rw [he]
  · exact inv_busError h
  · exact inv_resp (inv_hazard h a) .ack
  · exact inv_resp (inv_writeLocation h a v) .ack

theorem inv_serve {s t : State} {x : Input} (h : Inv s) (ht : serve x s = .next t) : Inv t := by
  cases x with
  | read a n => cases ht; exact inv_hostRead h a n
  | write a n v => cases ht; exact inv_hostWrite h a n v
  | reset => cases ht; exact inv_resetBlock h
  | engine => exact inv_engineTurn h ht

/-- Settles O55: by the input served, each shared operation keeping the invariant. -/
theorem stepKeepsInvariant : Obligations.StepKeepsInvariant := by
  intro s t h ht
  have hp : Inv s.popped := { h with }
  cases hi : s.inbox with
  | nil => exact inv_engineTurn hp (step_engine (.inl hi) ▸ ht)
  | cons x rest => exact inv_serve hp (step_cons hi ▸ ht)

end Sys2Proof.Machine
end

section
/-! PROOFS. The frame of each shared operation, and so of every command (O14). -/

namespace Sys2Proof.Machine

/-! ## The frame of each shared operation -/

theorem frame_mono {k : ErrCode} {regs regs' : List Reg} {stored stored' : Nat → Bool} {s t : State}
    (h : Frame k regs stored s t) (hr : regs ⊆ regs') (hb : ∀ a, stored' a = false → stored a = false) :
    Frame k regs' stored' s t := by
  obtain ⟨hend, hregs, hbytes, hmodel⟩ := h
  exact ⟨hend, fun r hn => hregs r fun hm => hn (List.cons_subset_cons .status hr hm),
    fun a ha => hbytes a (hb a ha), hmodel⟩

/-- A completion writes no register but STATUS. -/
theorem readReg_complete (k : ErrCode) (s : State) {r : Reg} (h : r ≠ .status) :
    readReg (complete k s) r = readReg s r := by
  cases r with
  | status => exact absurd rfl h
  | _ => rfl

@[simp] theorem readReg_drawn (s : State) (r : Reg) : readReg s.drawn r = readReg s r := by cases r <;> rfl

@[simp] theorem readReg_storeEntry (s : State) (b : Bank) (i : Nat) (e : Entry) (r : Reg) :
    readReg (s.storeEntry b i e) r = readReg s r := by cases r <;> rfl

theorem readReg_setCnt (s : State) {b : Bank} (v : Byte) {r : Reg} (h : r ≠ cntReg b) :
    readReg (s.setCnt b v) r = readReg s r := by
  cases b with
  | bank0 =>
    cases r with
    | optcnt0 => exact absurd rfl h
    | _ => rfl
  | bank1 =>
    cases r with
    | optcnt1 => exact absurd rfl h
    | _ => rfl

theorem readReg_commitMessage (hdr : List Byte) (l : List Entry) (s : State) {r : Reg}
    (h : r ∉ [.status, .optcnt0, .mtype]) : readReg (commitMessage hdr l s) r = readReg s r := by
  cases r with
  | status | optcnt0 | mtype => simp at h
  | _ => simp [readReg, State.ctrlWord, State.paramWord]

/-- A command that finishes after a change of registers and bytes has that change for its frame. -/
theorem frame_finish {regs : List Reg} {stored : Nat → Bool} {s t : State} (hc : t.cmdovr = s.cmdovr)
    (hr : KeepsRegs (.status :: regs) s t) (hb : KeepsBytes stored s t) (hm : KeepsModel s t) :
    Frame .none regs stored s (finish t) := by
  refine ⟨ended_complete .none t s hc, fun r hn => ?_, hb, hm⟩
  exact (readReg_complete .none t (List.ne_of_not_mem_cons hn)).trans (hr r hn)

theorem frame_storeReg (r : Reg) (v : Word) (s : State) : Frame .none [r] noBytes s (finish (storeReg r v s)) :=
  frame_finish (by simp) (fun q hq => storeReg_other v s (List.ne_of_not_mem_cons (List.not_mem_of_not_mem_cons hq)))
    (fun a _ => by simp) (by simp [KeepsModel])

theorem frame_drawn {k : ErrCode} {regs : List Reg} {stored : Nat → Bool} {s t : State}
    (h : Frame k regs stored s t) : Frame k regs stored s t.drawn := by
  obtain ⟨hend, hregs, hbytes, hmodel⟩ := h
  exact ⟨hend, fun r hr => (readReg_drawn t r).trans (hregs r hr), hbytes, hmodel⟩

theorem frame_placeEntry {s : State} (b : Bank) (i : Nat) {e : Entry} (he : e.payload.length ≤ 255) :
    Frame .none [cntReg b] (inRange (entryAddr b i) entrySize) s (finish (placeEntry b i e s)) := by
  obtain ⟨-, hb⟩ := storeEntry_reads (s := s) (b := b) (i := i) he
  unfold placeEntry
  split
  · exact frame_finish (by simp)
      (fun r hr => by
        rw [readReg_setCnt _ _ (List.ne_of_not_mem_cons (List.not_mem_of_not_mem_cons hr)), readReg_storeEntry])
      (fun a ha => by rw [setCnt_mem]; exact hb a ha) (by simp [KeepsModel])
  · exact frame_finish rfl (fun r _ => readReg_storeEntry s b i e r) hb ⟨rfl, rfl, rfl, rfl⟩

@[simp] theorem placeEntry_mvalid (b : Bank) (i : Nat) (e : Entry) (s : State) :
    (placeEntry b i e s).mvalid = s.mvalid := by
  unfold placeEntry
  split <;> simp

theorem keepsBytes_commitMessage {s : State} {hdr : List Byte} {l : List Entry} (hh : hdr.length = 240)
    (hl : l.length ≤ s.maxOpts) (hp : PayloadsFit l) :
    KeepsBytes (messageBytes s.maxOpts) s (commitMessage hdr l s) := by
  obtain ⟨-, -, hb⟩ := storeBank0_reads hh hl hp
  exact keepsBytes_commit hb (commitMessage_mem hdr l s)

theorem frame_commitMessage {s : State} {hdr : List Byte} {l : List Entry} (hh : hdr.length = 240)
    (hl : l.length ≤ s.maxOpts) (hp : PayloadsFit l) :
    Frame .none [.optcnt0, .mtype] (messageBytes s.maxOpts) s (finish (commitMessage hdr l s)) :=
  frame_finish (by simp) (fun _ hr => readReg_commitMessage hdr l s hr) (keepsBytes_commitMessage hh hl hp)
    (by simp [KeepsModel])

theorem readReg_setDInfo (s : State) (d : DInfo) {r : Reg} (h : r ≠ .dinfo) :
    readReg { s with dinfo := d } r = readReg s r := by
  cases r with
  | dinfo => exact absurd rfl h
  | _ => rfl

theorem frame_decCommit {s : State} {hdr : List Byte} {r : OptionScan} (hh : hdr.length = 240)
    (hl : r.opts.length ≤ s.maxOpts) (hp : PayloadsFit r.opts) :
    Frame .none [.optcnt0, .mtype, .dinfo] (messageBytes s.maxOpts) s (decCommit hdr r s) := by
  have hb := keepsBytes_commitMessage hh hl hp
  rw [decCommit]
  refine frame_finish (by simp) (fun q hq => ?_) hb (by simp [KeepsModel])
  simp only [List.mem_cons, List.not_mem_nil, or_false, not_or] at hq
  obtain ⟨h1, h2, h3, h4⟩ := hq
  rw [readReg_setDInfo (commitMessage hdr r.opts s) _ h4, readReg_commitMessage hdr r.opts s (by simp [h1, h2, h3])]

/-! ## The frame of a command (10_state.md R46) -/

/-- The command ended and wrote nothing but the outputs its row lists. -/
def WritesOutputs (i : Instr) (s t : State) : Prop :=
  (∃ k, Frame k (outputRegs i) (outputBytes s.maxOpts i) s t) ∧ (writesMvalid i = false → t.mvalid = s.mvalid)

theorem writesOutputs_fail (i : Instr) (k : ErrCode) (s : State) : WritesOutputs i s (fail k s) :=
  ⟨⟨k, frame_mono (frame_fail k s) (List.nil_subset _) fun _ _ => rfl⟩, fun _ => rfl⟩

theorem writesOutputs_buildsOrFails {i : Instr} {s t : State} (hr : outputRegs i = [.optcnt0, .mtype])
    (hb : outputBytes s.maxOpts i = messageBytes s.maxOpts) (hv : writesMvalid i = true) (ht : BuildsOrFails s t) :
    WritesOutputs i s t := by
  rcases ht with ⟨k, rfl⟩ | ⟨hdr, l, hh, hl, hp, rfl⟩
  · exact writesOutputs_fail i k s
  · exact ⟨⟨.none, by rw [hr, hb]; exact frame_commitMessage hh hl hp⟩, fun h => by simp [hv] at h⟩

theorem bodyOf_writesOutputs {i : Instr} {s : State} (hc : commonCheck i s = none) :
    WritesOutputs i s (bodyOf i s) := by
  obtain ⟨hrx, -, -⟩ := commonCheck_none_iff.mp hc
  cases i with
  | xidgen => exact ⟨⟨.none, frame_drawn (frame_storeReg .xidr _ s)⟩, fun _ => rfl⟩
  | b2u16 => exact ⟨⟨.none, frame_storeReg .bcval _ s⟩, fun _ => rfl⟩
  | b2u32 => exact ⟨⟨.none, frame_storeReg .bcval _ s⟩, fun _ => rfl⟩
  | u16tb =>
    obtain ⟨-, -, hv, hf⟩ := encoded_emitTx (s := s) (bs := bytes16 (s.bcval.extractLsb' 0 16)) (by simp)
    exact ⟨⟨.none, hf⟩, fun _ => hv⟩
  | u32tb =>
    obtain ⟨-, -, hv, hf⟩ := encoded_emitTx (s := s) (bs := bytes32 s.bcval) (by simp)
    exact ⟨⟨.none, hf⟩, fun _ => hv⟩
  | optenc b idx =>
    rcases optencBody_cases b idx s with ⟨bs, hl, ht⟩ | ⟨k, ht⟩ <;> rw [bodyOf, ht]
    · obtain ⟨-, -, hv, hf⟩ := encoded_emitTx (s := s) hl
      refine ⟨⟨.none, frame_mono hf (List.Subset.refl _) fun a ha => ?_⟩, fun _ => hv⟩
      rw [outputBytes, inRange_false_iff] at ha
      exact inRange_false_iff.mpr (ha.imp_right fun h => Nat.le_trans (Nat.add_le_add_left hl _) h)
    · obtain ⟨-, hv, hf⟩ := encodeFailed_encFail k s
      exact ⟨⟨k, hf⟩, fun _ => hv⟩
  | optdec b idx c =>
    rcases optdecBody_cases b idx c s with ⟨k, ht⟩ | ⟨e, he, ht⟩ <;> rw [bodyOf, ht]
    · exact writesOutputs_fail _ k s
    · exact ⟨⟨.none, by cases b <;> exact frame_placeEntry _ idx he⟩, fun _ => by simp⟩
  | msgenc =>
    rcases msgencBody_cases s with ⟨bs, hl, ht⟩ | ⟨k, ht⟩ <;> rw [bodyOf, ht]
    · obtain ⟨-, -, hv, hf, -⟩ := encodedMessage_emit (s := s) hl
      exact ⟨⟨.none, hf⟩, fun _ => hv⟩
    · obtain ⟨-, hv, hf⟩ := encodeFailed_encFail k s
      exact ⟨⟨k, hf⟩, fun _ => hv⟩
  | msgdec =>
    refine ⟨?_, fun h => by cases h⟩
    rcases msgdecBody_cases (hrx rfl) with ⟨f, hs, ht⟩ | ⟨hdr, r, hh, hl, hp, -, -, ht⟩ <;> rw [bodyOf, ht]
    · obtain ⟨-, -, -, -, -, -, hf⟩ := discardedAs_decFail (s := s) hs
      exact ⟨f.code, hf⟩
    · exact ⟨.none, frame_decCommit hh hl hp⟩
  | blddisc => exact writesOutputs_buildsOrFails rfl rfl rfl (blddiscBody_cases s)
  | bldreq => exact writesOutputs_buildsOrFails rfl rfl rfl (bldreqBody_cases s)
  | blddecl => exact writesOutputs_buildsOrFails rfl rfl rfl (blddeclBody_cases s)
  | bldrel => exact writesOutputs_buildsOrFails rfl rfl rfl (bldrelBody_cases s)

theorem exec_writesOutputs {i : Instr} {s t : State} (ht : exec i s = .next t) : WritesOutputs i s t := by
  rcases exec_cases i s with ⟨k, -, -, he⟩ | ⟨hc, he⟩ <;> (rw [he] at ht; cases ht)
  · exact writesOutputs_fail i k s
  · exact bodyOf_writesOutputs hc

/-- Settles O14: the frame of each command's body, whichever way it ends. -/
theorem commandsWriteOnlyTheirOutputs : Obligations.CommandsWriteOnlyTheirOutputs := by
  intro i s t ht
  obtain ⟨⟨k, -, hregs, hbytes, hmodel⟩, hv⟩ := exec_writesOutputs ht
  exact ⟨hregs, hbytes, hmodel, hv⟩

end Sys2Proof.Machine
end

section
/-! PROOFS. The words of the registers, field by field (O57). -/

namespace Sys2Proof.Machine

/-! ## The words of the registers, bit by bit -/

/-- A register word that ends in a bit: that bit, and the rest above it. -/
theorem getLsbD_append_ofBool {n : Nat} (x : BitVec n) (b : Bool) (k : Nat) :
    (x ++ BitVec.ofBool b).getLsbD k = if k = 0 then b else x.getLsbD (k - 1) := by
  rw [BitVec.append_ofBool, BitVec.getLsbD_concat]

/-- CTRL (10_state.md R23). -/
theorem ctrlWord_getLsbD (s : State) (k : Nat) :
    s.ctrlWord.getLsbD k = if k = 0 then s.ie else if k = 2 then s.chkCookie else false := by
  have h : s.ctrlWord.getLsbD k
      = if k = 0 then s.ie else (0#29 ++ BitVec.ofBool s.chkCookie ++ BitVec.ofBool false).getLsbD (k - 1) :=
    getLsbD_append_ofBool _ _ k
  rw [h, getLsbD_append_ofBool, getLsbD_append_ofBool, BitVec.getLsbD_zero]
  grind

/-- STATUS away from ERRCODE (10_state.md R24). -/
theorem statusWord_getLsbD_of_ge (s : State) {k : Nat} (h5 : 5 ≤ k) (hk : k < 8 ∨ 16 ≤ k) :
    s.statusWord.getLsbD k = false := by
  have peel {n : Nat} (x : BitVec n) (b : Bool) {j : Nat} (hj : 0 < j) :
      (x ++ BitVec.ofBool b).getLsbD j = x.getLsbD (j - 1) := by
    rw [getLsbD_append_ofBool, if_neg (by omega)]
  have h : s.statusWord.getLsbD k = (0#16 ++ s.errcode.toByte ++ 0#3).getLsbD (k - 1 - 1 - 1 - 1 - 1) :=
    (peel _ _ (by omega)).trans <| (peel _ _ (by omega)).trans <| (peel _ _ (by omega)).trans <|
      (peel _ _ (by omega)).trans (peel _ _ (by omega))
  rw [h, BitVec.getLsbD_append, BitVec.getLsbD_append, BitVec.getLsbD_zero, BitVec.getLsbD_zero]
  split
  · rfl
  · rw [if_neg (by omega)]

theorem mtypeWord_val (m : MType) : m.word.extractLsb' 0 8 = m.val := BitVec.extractLsb'_append_eq_right

theorem mtypeWord_present (m : MType) : m.word.getLsbD 8 = m.present := by
  have h : m.word.getLsbD 8 = (0#23 ++ BitVec.ofBool m.present).getLsbD 0 := BitVec.getLsbD_append
  rw [h, getLsbD_append_ofBool, if_pos rfl]

theorem mtypeWord_reserved (m : MType) : m.word.extractLsb' 9 23 = 0 :=
  (BitVec.extractLsb'_append_eq_of_le (by decide)).trans BitVec.extractLsb'_append_eq_left

theorem dinfoWord_dstat (d : DInfo) : d.word.extractLsb' 0 3 = d.dstat.bits := BitVec.extractLsb'_append_eq_right

/-- What DINFO holds from bit 8 on. -/
theorem dinfoWord_high (d : DInfo) {i n : Nat} (h : 8 ≤ i) :
    d.word.extractLsb' i n = (0#3 ++ d.doff ++ d.ucode).extractLsb' (i - 3 - 5) n :=
  (BitVec.extractLsb'_append_eq_of_le (by omega)).trans (BitVec.extractLsb'_append_eq_of_le (by omega))

theorem dinfoWord_low_reserved (d : DInfo) : d.word.extractLsb' 3 5 = 0 :=
  (BitVec.extractLsb'_append_eq_of_le (by decide)).trans BitVec.extractLsb'_append_eq_right

theorem dinfoWord_ucode (d : DInfo) : d.word.extractLsb' 8 8 = d.ucode :=
  (dinfoWord_high d (by decide)).trans BitVec.extractLsb'_append_eq_right

theorem dinfoWord_doff (d : DInfo) : d.word.extractLsb' 16 13 = d.doff :=
  (dinfoWord_high d (by decide)).trans <| (BitVec.extractLsb'_append_eq_of_le (by decide)).trans
    BitVec.extractLsb'_append_eq_right

theorem dinfoWord_reserved (d : DInfo) : d.word.extractLsb' 29 3 = 0 :=
  (dinfoWord_high d (by decide)).trans <| (BitVec.extractLsb'_append_eq_of_le (by decide)).trans
    BitVec.extractLsb'_append_eq_left

theorem paramWord_maxOpts (s : State) : s.paramWord.extractLsb' 0 8 = BitVec.ofNat 8 s.maxOpts :=
  BitVec.extractLsb'_append_eq_right

/-- PARAM above MAX_OPTS is the same word in every state (10_state.md R37). -/
theorem paramWord_high (s : State) {i n : Nat} (h : 8 ≤ i) :
    s.paramWord.extractLsb' i n = (0#3 ++ 0x1000#13 ++ 0#8).extractLsb' (i - 8) n :=
  BitVec.extractLsb'_append_eq_of_le h

/-- Settles O57: each word is cut at its fields' borders. -/
theorem registerWordsAreLaidOut : Obligations.RegisterWordsAreLaidOut := by
  intro s
  refine ⟨rfl, rfl, ?ctrl, ?status, ?errcode, ?rxlen, ?txlen, rfl, rfl, rfl, ?mac1, ?secs, rfl, rfl, ?cnt0, ?cnt1,
    mtypeWord_val _, mtypeWord_present _, mtypeWord_reserved _, ?dstat, dinfoWord_low_reserved _, dinfoWord_ucode _,
    dinfoWord_doff _, dinfoWord_reserved _, ?maxOpts, (paramWord_high s (by decide)).trans (by decide),
    (paramWord_high s (by decide)).trans (by decide), (paramWord_high s (by decide)).trans (by decide)⟩
  case ctrl =>
    intro k
    refine (ctrlWord_getLsbD s k).trans ?_
    match k with
    | 0 | 1 | 2 => rfl
    | k + 3 => rfl
  case status =>
    intro k hk
    match k, hk with
    | 0, _ => exact statusWord_busy s
    | 1, _ => exact statusWord_done s
    | 2, _ => exact statusWord_err s
    | 3, _ => exact statusWord_cmdovr s
    | 4, _ => exact statusWord_mvalid s
    | k + 5, hk => exact statusWord_getLsbD_of_ge s (by omega) hk
  case errcode => exact (statusWord_errcode s).trans (by cases s.errcode <;> rfl)
  case dstat => exact (dinfoWord_dstat s.dinfo).trans (by cases s.dinfo.dstat <;> rfl)
  case maxOpts =>
    intro ⟨_, hm⟩
    refine (congrArg BitVec.toNat (paramWord_maxOpts s)).trans ?_
    rw [BitVec.toNat_ofNat, Nat.mod_eq_of_lt (by omega)]
  all_goals exact BitVec.toNat_setWidth_of_le (by decide)

end Sys2Proof.Machine
end

section
/-! PROOFS. The host's accesses to registers, and its reads while idle (O8, O41, O46, O47). -/

namespace Sys2Proof.Machine

/-! ## A register written by the host -/

/-- The step that serves a legal register write. -/
theorem step_write_reg {s : State} {r : Reg} {v : Word} {rest : List Input} (h : s.inbox = .write r.offset 4 v :: rest)
    (hb : (s.busy && hazardReg s v r) = false) : step s = .next { writeReg r v s.popped with resp := .ack } :=
  (step_cons h).trans (congrArg Host.Outcome.next (hostWrite_reg (s := s.popped) hb))

theorem popped_inbox_of {s : State} {x : Input} {rest : List Input} (h : s.inbox = x :: rest) :
    s.popped.inbox = rest := by
  simp [State.popped, h]

/-- A response on the bus is no register. -/
@[simp] theorem readReg_resp (s : State) (x : BusResponse) (r : Reg) :
    readReg { s with resp := x } r = readReg s r := by
  cases r <;> rfl

theorem readReg_acceptCommand (v : Word) (s : State) {r : Reg} (h : r ∉ [.status, .cmd]) :
    readReg (acceptCommand v s) r = readReg s r := by
  cases r with
  | status | cmd => simp at h
  | _ => rfl

theorem readReg_writeStatus (v : Word) (s : State) {r : Reg} (h : r ≠ .status) :
    readReg (writeStatus v s) r = readReg s r := by
  cases r with
  | status => exact absurd rfl h
  | _ => rfl

/-- Settles O8: the write reaches `acceptCommand`. -/
theorem cmdWriteIsAcceptedWhileIdle : Obligations.CmdWriteIsAcceptedWhileIdle := by
  intro s v rest hi hp
  have hw : writeReg .cmd v s.popped = acceptCommand v s.popped := by
    simp only [writeReg, writeCmd, popped_busy, busy_of_none hp, Bool.false_eq_true, if_false]
  have hs : step s = .next { acceptCommand v s.popped with resp := .ack } := by
    rw [step_write_reg (r := .cmd) hi (by rw [busy_of_none hp]; rfl), hw]
  refine ⟨_, hs, rfl, rfl, rfl, rfl, rfl, rfl, rfl, statusWord_busy _, fun r hr => ?_, fun _ _ => rfl, rfl, rfl,
    popped_inbox_of hi⟩
  rw [readReg_resp, readReg_acceptCommand v _ hr, popped_readReg]

/-- Settles O47: the write reaches `writeStatus`, BUSY or not. -/
theorem statusWriteClearsOnlyDoneAndCmdovr : Obligations.StatusWriteClearsOnlyDoneAndCmdovr := by
  intro s v rest hi
  refine ⟨_, step_write_reg (r := .status) hi (Bool.and_false _), rfl, rfl, rfl, rfl, rfl, rfl, fun r hr => ?_,
    fun _ _ => rfl, rfl, popped_inbox_of hi⟩
  rw [readReg_resp]
  exact (readReg_writeStatus v _ (List.ne_of_not_mem_cons hr)).trans (popped_readReg s r)

/-- The bits of a register that a plain write stores (10_state.md R23 to R37). -/
def writableBits : Reg → Word
  | .ctrl => 0x5
  | .rxlen => 0x1FFF
  | .pMac1 | .pSecs => 0xFFFF
  | .optcnt0 | .optcnt1 => 0xFF
  | .xidr | .bcval | .pMac0 | .pGiaddr | .pTgtip => 0xFFFFFFFF
  | .id | .status | .cmd | .txlen | .mtype | .dinfo | .param => 0

theorem ctrlWord_storeReg (v : Word) (s : State) : (storeReg .ctrl v s).ctrlWord = v &&& 0x5 := by
  have h5 : ∀ k < 32, (0x5 : Word).getLsbD k = (decide (k = 0) || decide (k = 2)) := by decide
  apply BitVec.eq_of_getLsbD_eq
  intro k hk
  rw [ctrlWord_getLsbD, BitVec.getLsbD_and, h5 k hk]
  by_cases h0 : k = 0
  · subst h0; simp [storeReg]
  · by_cases h2 : k = 2
    · subst h2; simp [storeReg]
    · simp [h0, h2]

/-- A truncated register reads back the written bits below its width. -/
theorem setWidth_setWidth_eq_and (v : Word) {w : Nat} (hw : w < 32) :
    (v.setWidth w).setWidth 32 = v &&& BitVec.ofNat 32 (2 ^ w - 1) := by
  have hlt : 2 ^ w - 1 < 2 ^ 32 :=
    Nat.lt_of_le_of_lt (Nat.sub_le _ _) (Nat.pow_lt_pow_right (by decide) hw)
  apply BitVec.eq_of_toNat_eq
  rw [BitVec.toNat_and, BitVec.toNat_ofNat, Nat.mod_eq_of_lt hlt, Nat.and_two_pow_sub_one_eq_mod,
    BitVec.toNat_setWidth_of_le (Nat.le_of_lt hw), BitVec.toNat_setWidth]

/-- What a plain write leaves in each register: its read-write bits of the written word. -/
theorem readReg_storeReg (r : Reg) (v : Word) (s : State) :
    readReg (storeReg r v s) r = if writableBits r = 0 then readReg s r else v &&& writableBits r := by
  have full : v = v &&& 0xFFFFFFFF#32 := (BitVec.and_allOnes (x := v)).symm
  cases r with
  | ctrl => exact ctrlWord_storeReg v s
  | rxlen => exact setWidth_setWidth_eq_and v (w := 13) (by decide)
  | pMac1 => exact setWidth_setWidth_eq_and v (w := 16) (by decide)
  | pSecs => exact setWidth_setWidth_eq_and v (w := 16) (by decide)
  | optcnt0 => exact setWidth_setWidth_eq_and v (w := 8) (by decide)
  | optcnt1 => exact setWidth_setWidth_eq_and v (w := 8) (by decide)
  | xidr | bcval | pMac0 | pGiaddr | pTgtip => exact full
  | id | status | cmd | txlen | mtype | dinfo | param => rfl


/-! ## Reserved offsets and reads while idle -/

theorem legalAccess_reserved_reg {a : Nat} (h : a < 0x100) (h4 : a % 4 = 0) : legalAccess a 4 = true := by
  simp [legalAccess, inRegs, addressSpace, h4]; omega

theorem inRegs_of_lt {a : Nat} (h : a < 0x100) : inRegs a = true := by simp [inRegs]; omega

/-- While idle a legal read answers the location and a legal write is its update. -/
theorem step_read_idle {s : State} {a n : Nat} {rest : List Input} (hi : s.inbox = .read a n :: rest)
    (hp : s.pend = none) (hl : legalAccess a n = true) :
    step s = .next { s.popped with resp := .data (readLocation s.popped a) } := by
  rw [step_cons hi]
  show Host.Outcome.next (hostRead a n s.popped) = _
  simp only [hostRead, hl, popped_busy, busy_of_none hp, Bool.not_true, Bool.false_and, Bool.false_eq_true, if_false]

theorem step_write_idle {s : State} {a n : Nat} {v : Word} {rest : List Input} (hi : s.inbox = .write a n v :: rest)
    (hp : s.pend = none) (hl : legalAccess a n = true) :
    step s = .next { writeLocation a v s.popped with resp := .ack } := by
  rw [step_cons hi]
  show Host.Outcome.next (hostWrite a n v s.popped) = _
  simp only [hostWrite, hl, popped_busy, busy_of_none hp, Bool.not_true, Bool.false_and, Bool.false_eq_true, if_false]

@[simp] theorem readLocation_offset (s : State) (r : Reg) : readLocation s r.offset = readReg s r := by
  simp [readLocation]

theorem readLocation_reserved_reg (s : State) {a : Nat} (h : 0x048 ≤ a) (h' : a < 0x100) : readLocation s a = 0 := by
  simp [readLocation, inRegs_of_lt h', regAt_reserved h]

theorem writeLocation_reserved_reg (v : Word) (s : State) {a : Nat} (h : 0x048 ≤ a) (h' : a < 0x100) :
    writeLocation a v s = s := by
  simp [writeLocation, inRegs_of_lt h', regAt_reserved h]

/-- A byte location holds the stored byte, or 0 where it is reserved (20_memory.md R61, R65). -/
theorem readLocation_byte (s : State) {a : Nat} (h : 0x100 ≤ a) :
    readLocation s a = if isStorage s.maxOpts a then (s.mem.read a).setWidth 32 else 0 := by
  simp [readLocation, inRegs_byte h]

/-- A byte of an entry's slot is storage exactly for a defined byte of an entry below `MAX_OPTS` (20_memory.md R66). -/
theorem isStorage_entryAddr {n i k : Nat} (b : Bank) (hn : n ≤ 64) (hi : i < 64) (hk : k < 0x200) :
    isStorage n (entryAddr b i + k) = true ↔ i < n ∧ k < 257 := by
  rw [isStorage_iff]
  cases b <;> simp only [entryAddr, optBase, entryStride] <;> omega

theorem entryAddr_bounds (b : Bank) {i k : Nat} (hi : i < 64) (hk : k < 0x200) :
    0x100 ≤ entryAddr b i + k ∧ entryAddr b i + k < 0x20000 := by
  cases b <;> simp only [entryAddr, optBase, entryStride] <;> omega

/-- Settles O41: an idle read is `readLocation`, window by window. -/
theorem idleReadReturnsLocation : Obligations.IdleReadReturnsLocation := by
  intro s a n rest hi hp ⟨_, hmax⟩
  have byte (h : 0x100 ≤ a) (h' : a < 0x20000) (hn : n = 1) : step s = .next { s.popped with
      resp := .data (if isStorage s.maxOpts a then (s.mem.read a).setWidth 32 else 0) } := by
    subst hn
    rw [step_read_idle hi hp (legalAccess_byte h h'), readLocation_byte _ h]
    rfl
  have stored (h : isStorage s.maxOpts a = true) (hn : n = 1) :
      step s = .next { s.popped with resp := .data ((s.mem.read a).setWidth 32) } := by
    obtain ⟨h1, h2⟩ := isStorage_lt hmax h
    rw [byte h1 h2 hn, if_pos h]
  refine ⟨?reg, ?reservedReg, ?hdr, ?buffers, ?entry, ?reserved⟩
  case reg =>
    rintro r rfl rfl
    rw [step_read_idle hi hp (legalAccess_offset r), readLocation_offset, popped_readReg]
  case reservedReg =>
    rintro h h' h4 rfl
    rw [step_read_idle hi hp (legalAccess_reserved_reg h' h4), readLocation_reserved_reg _ h h']
  case hdr =>
    rintro k hk rfl hn
    exact stored (isStorage_iff.mpr (by omega)) hn
  case buffers =>
    intro k hk ha hn
    exact stored (isStorage_iff.mpr (by omega)) hn
  case entry =>
    rintro b i k hik hk rfl hn
    obtain ⟨h1, h2⟩ := entryAddr_bounds b hik hk
    simp only [byte h1 h2 hn, isStorage_entryAddr b hmax hik hk]
  case reserved =>
    intro h hn
    have hs : ¬ isStorage s.maxOpts a = true := by rw [isStorage_iff]; omega
    rw [byte (by omega) (by omega) hn, if_neg hs]

/-- Settles O46: away from CMD, STATUS and SRST a register write is a plain one. -/
theorem idleRegisterWriteKeepsItsBits : Obligations.IdleRegisterWriteKeepsItsBits := by
  refine ⟨fun s r v rest hi hp hcmd hstatus hsrst => ?_, fun s a v rest hi hp h h' h4 => ?_⟩
  · have hs : step s = .next { storeReg r v s.popped with resp := .ack } := by
      rw [step_write_reg hi (by rw [busy_of_none hp]; rfl), writeReg_plain _ hcmd hstatus hsrst]
    refine ⟨_, hs, ?_, fun q hq => ?_, fun _ _ => ?_, ?_, ?_, ?_⟩
    · rw [readReg_resp, readReg_storeReg, popped_readReg]
      cases r with
      | xidr | bcval | pMac0 | pGiaddr | pTgtip => exact BitVec.and_allOnes
      | _ => rfl
    · rw [readReg_resp, storeReg_other v _ (List.ne_of_not_mem_cons hq), popped_readReg]
    · simp
    · simpa using hp
    · simp
    · simpa using popped_inbox_of hi
  · rw [step_write_idle hi hp (legalAccess_reserved_reg h' h4), writeLocation_reserved_reg v _ h h']

end Sys2Proof.Machine
end

section
/-! PROOFS. The typed views of options and header (O53). -/

namespace Sys2Proof.Machine

/-! ## Big-endian bytes and integers (00_scope.md R10) -/

theorem be16_bytes16 (v : Half) : be16 (v.extractLsb' 8 8) (v.extractLsb' 0 8) = v :=
  (BitVec.extractLsb'_append_extractLsb'_eq_extractLsb' rfl).trans BitVec.extractLsb'_eq_self

theorem be32_bytes32 (v : Word) :
    be32 (v.extractLsb' 24 8) (v.extractLsb' 16 8) (v.extractLsb' 8 8) (v.extractLsb' 0 8) = v := by
  rw [be32, BitVec.extractLsb'_append_extractLsb'_eq_extractLsb' (show 24 = 16 + 8 from rfl),
    BitVec.extractLsb'_append_extractLsb'_eq_extractLsb' (show 16 = 8 + 8 from rfl),
    BitVec.extractLsb'_append_extractLsb'_eq_extractLsb' (show 8 = 0 + 8 from rfl)]
  exact BitVec.extractLsb'_eq_self

theorem bytes16_be16 (a b : Byte) : bytes16 (be16 a b) = [a, b] := by
  have ha : (be16 a b).extractLsb' 8 8 = a := BitVec.extractLsb'_append_eq_left
  have hb : (be16 a b).extractLsb' 0 8 = b := BitVec.extractLsb'_append_eq_right
  rw [bytes16, ha, hb]

theorem bytes32_be32 (a b c d : Byte) : bytes32 (be32 a b c d) = [a, b, c, d] := by
  have above {i : Nat} (h : 8 ≤ i) : (be32 a b c d).extractLsb' i 8 = (a ++ b ++ c).extractLsb' (i - 8) 8 :=
    BitVec.extractLsb'_append_eq_of_le h
  have ha : (be32 a b c d).extractLsb' 24 8 = a :=
    (above (by decide)).trans <| (BitVec.extractLsb'_append_eq_of_le (by decide)).trans
      BitVec.extractLsb'_append_eq_left
  have hb : (be32 a b c d).extractLsb' 16 8 = b :=
    (above (by decide)).trans <| (BitVec.extractLsb'_append_eq_of_le (by decide)).trans
      BitVec.extractLsb'_append_eq_right
  have hc : (be32 a b c d).extractLsb' 8 8 = c :=
    (above (by decide)).trans <| BitVec.extractLsb'_append_eq_right
  have hd : (be32 a b c d).extractLsb' 0 8 = d := BitVec.extractLsb'_append_eq_right
  rw [bytes32, ha, hb, hc, hd]

theorem wordAt_bytes32 (v : Word) (rest : List Byte) : wordAt (bytes32 v ++ rest) 0 = v := be32_bytes32 v

theorem halfAt_bytes16 (v : Half) : halfAt (bytes16 v) 0 = v := be16_bytes16 v

theorem addressesOf_flatMap (addrs : List Word) : addressesOf (addrs.flatMap bytes32) = addrs := by
  induction addrs with
  | nil => rfl
  | cons v addrs ih =>
    show be32 _ _ _ _ :: addressesOf (addrs.flatMap bytes32) = v :: addrs
    rw [be32_bytes32, ih]

theorem flatMap_bytes32_length (addrs : List Word) : (addrs.flatMap bytes32).length = 4 * addrs.length := by
  induction addrs with
  | nil => rfl
  | cons v addrs ih => simp only [List.flatMap_cons, List.length_append, bytes32_length, List.length_cons, ih]; omega

/-! ## The typed view of each code -/

theorem optionView_subnetMask (d : List Byte) :
    optionView ⟨1, d⟩ = if d.length = 4 then .subnetMask (wordAt d 0) else .raw d := rfl

theorem optionView_routers {d : List Byte} (h : d.length % 4 = 0) :
    optionView ⟨3, d⟩ = .routers (addressesOf d) := by
  have hl : lenOk 3#8 d.length = true := beq_iff_eq.mpr h
  simp [optionView, hl, supported, supportedCodes, endCode]

theorem optionView_dnsServers {d : List Byte} (h : d.length % 4 = 0) :
    optionView ⟨6, d⟩ = .dnsServers (addressesOf d) := by
  have hl : lenOk 6#8 d.length = true := beq_iff_eq.mpr h
  simp [optionView, hl, supported, supportedCodes, endCode]

theorem optionView_ipv6Only (d : List Byte) :
    optionView ⟨108, d⟩ = .ipv6Only (if 4 ≤ d.length then wordAt d 0 else 0) := rfl

theorem messageTypeOf_unknown {v : Byte} (h : v = 0 ∨ 8 ≤ v.toNat) : messageTypeOf v = .unknown := by
  have ne {n : Byte} (h1 : 1 ≤ n.toNat) (h7 : n.toNat ≤ 7) : v ≠ n := by
    rintro rfl
    rcases h with rfl | h
    · simp at h1
    · omega
  simp only [messageTypeOf]
  rw [if_neg (ne (by decide) (by decide)), if_neg (ne (by decide) (by decide)), if_neg (ne (by decide) (by decide)),
    if_neg (ne (by decide) (by decide)), if_neg (ne (by decide) (by decide)), if_neg (ne (by decide) (by decide)),
    if_neg (ne (by decide) (by decide))]

/-! ## The header view (10_state.md R40) -/

theorem byteAt_hdrBytes (s : State) {i : Nat} (h : i < 240) : byteAt s.hdrBytes i = s.hdrByte i := by
  have hl : i < s.hdrBytes.length := by rw [hdrBytes_length]; exact h
  rw [byteAt, List.getD_eq_getElem?_getD, List.getElem?_eq_getElem hl, Option.getD_some]
  exact readN_getElem ..

theorem bytes32_wordAt_hdrBytes (s : State) {i : Nat} (h : i + 4 ≤ 240) :
    bytes32 (wordAt s.hdrBytes i) = s.hdrSlice i 4 := by
  rw [wordAt, bytes32_be32, byteAt_hdrBytes s (by omega), byteAt_hdrBytes s (by omega), byteAt_hdrBytes s (by omega),
    byteAt_hdrBytes s (by omega)]
  rfl

theorem bytes16_halfAt_hdrBytes (s : State) {i : Nat} (h : i + 2 ≤ 240) :
    bytes16 (halfAt s.hdrBytes i) = s.hdrSlice i 2 := by
  rw [halfAt, bytes16_be16, byteAt_hdrBytes s (by omega), byteAt_hdrBytes s (by omega)]
  rfl

theorem header_reads (s : State) :
    s.header.op = s.hdrByte 0 ∧ s.header.htype = s.hdrByte 1 ∧ s.header.hlen = s.hdrByte 2 ∧ s.header.hops = s.hdrByte 3
      ∧ bytes32 s.header.xid = s.hdrSlice 4 4 ∧ bytes16 s.header.secs = s.hdrSlice 8 2
      ∧ bytes16 s.header.flags = s.hdrSlice 10 2 ∧ bytes32 s.header.ciaddr = s.hdrSlice 12 4
      ∧ bytes32 s.header.yiaddr = s.hdrSlice 16 4 ∧ bytes32 s.header.siaddr = s.hdrSlice 20 4
      ∧ bytes32 s.header.giaddr = s.hdrSlice 24 4 ∧ s.header.chaddr = s.hdrSlice 28 16
      ∧ s.header.sname = s.hdrSlice 44 64 ∧ s.header.file = s.hdrSlice 108 128 ∧ s.header.cookie = s.hdrSlice 236 4 := by
  have byte {i : Nat} (h : i < 240) := byteAt_hdrBytes s h
  have half {i : Nat} (h : i + 2 ≤ 240) := bytes16_halfAt_hdrBytes s h
  have word {i : Nat} (h : i + 4 ≤ 240) := bytes32_wordAt_hdrBytes s h
  have slice {i n : Nat} (h : i + n ≤ 240) := (hdrSlice_eq s i n h).symm
  exact ⟨byte (i := 0) (by decide), byte (i := 1) (by decide), byte (i := 2) (by decide), byte (i := 3) (by decide),
    word (by decide), half (by decide),
    half (by decide), word (by decide), word (by decide), word (by decide), word (by decide), slice (by decide),
    slice (by decide), slice (by decide), slice (by decide)⟩

/-- Settles O53: each payload passes its code's length rule, and its bytes are the value's. -/
theorem typedViewsReadTheirValues : Obligations.TypedViewsReadTheirValues := by
  have word (v : Word) : wordAt (bytes32 v) 0 = v := be32_bytes32 v
  refine ⟨?mask, ?rawMask, ?lists, fun d => ⟨rfl, rfl, rfl⟩, ?words, fun v => rfl,
    ⟨rfl, rfl, rfl, rfl, rfl, rfl, rfl, fun v => messageTypeOf_unknown⟩, ?size, fun h m => rfl, ?ipv6, ?ipv6Short, ?state⟩
  case mask => exact fun m => congrArg OptionView.subnetMask (word m)
  case rawMask => exact fun d hd => (optionView_subnetMask d).trans (if_neg hd)
  case lists =>
    intro addrs _
    have h4 : (addrs.flatMap bytes32).length % 4 = 0 := by rw [flatMap_bytes32_length]; omega
    rw [optionView_routers h4, optionView_dnsServers h4, addressesOf_flatMap]
    exact ⟨rfl, rfl⟩
  case words =>
    exact fun t => ⟨congrArg OptionView.requestedIp (word t), congrArg OptionView.serverId (word t),
      congrArg OptionView.leaseTime (word t), congrArg OptionView.renewal (word t), congrArg OptionView.rebinding (word t)⟩
  case size => exact fun v => congrArg OptionView.maxSize (halfAt_bytes16 v)
  case ipv6 =>
    intro t rest
    rw [optionView_ipv6Only, if_pos (by simp), wordAt_bytes32]
  case ipv6Short => exact fun d hd => by rw [optionView_ipv6Only, if_neg (by omega)]
  case state =>
    exact fun s => ⟨fun h => by simp [State.messageType, h], fun h => by simp [State.messageType, h], header_reads s⟩

end Sys2Proof.Machine
end

section
/-! PROOFS. The commands that read RXBUF depend on its valid bytes alone (O31), and a byte written while idle (O45). -/

namespace Sys2Proof.Machine

/-! ## What does not depend on the bytes -/

/-- No register is a stored byte. -/
theorem readReg_withMem (s : State) (m : Memory) (r : Reg) : readReg { s with mem := m } r = readReg s r := by
  cases r <;> rfl

/-- The common checks read no stored byte (60_exceptions.md R272). -/
theorem commonCheck_withMem (i : Instr) (s : State) (m : Memory) :
    commonCheck i { s with mem := m } = commonCheck i s := by
  cases i <;> rfl

/-- Whether an entry is replaced or appended depends on no stored byte. -/
theorem placeEntry_withMem (b : Bank) (idx : Nat) (e : Entry) (s : State) (m : Memory) :
    ∃ m', placeEntry b idx e { s with mem := m } = { placeEntry b idx e s with mem := m' } := by
  have hc : ({ s with mem := m } : State).cnt b = s.cnt b := by cases b <;> rfl
  unfold placeEntry
  rw [hc]
  split
  · cases b <;> exact ⟨_, rfl⟩
  · exact ⟨_, rfl⟩

/-- A command that reads RXBUF changes everything but the stored bytes alike in two states whose `RX[0..RXLEN)` is the
same (20_memory.md R70). -/
theorem bodyOf_withMem {i : Instr} {s : State} {m : Memory} (hi : usesRx i = true)
    (hrx : ({ s with mem := m } : State).rxBytes = s.rxBytes) :
    ∃ m', bodyOf i { s with mem := m } = { bodyOf i s with mem := m' } := by
  cases i with
  | b2u16 => exact ⟨m, by simp only [bodyOf, b2u16Body, hrx]; rfl⟩
  | b2u32 => exact ⟨m, by simp only [bodyOf, b2u32Body, hrx]; rfl⟩
  | optdec b idx c =>
    simp only [bodyOf, optdecBody, hrx]
    split
    · exact ⟨m, rfl⟩
    · cases decOpt c s.rxBytes with
      | error k => exact ⟨m, rfl⟩
      | ok e =>
        obtain ⟨m', h⟩ := placeEntry_withMem b idx e s m
        exact ⟨m', by simp only [h]; rfl⟩
  | msgdec =>
    simp only [bodyOf, msgdecBody, hrx]
    cases decodeMessage s.maxOpts s.chkCookie s.rxBytes with
    | error f => exact ⟨_, rfl⟩
    | ok p => exact ⟨_, rfl⟩
  | _ => cases hi

/-! ## What a successful decode stores, as a function of the valid bytes -/

@[simp] theorem placeEntry_mem (b : Bank) (idx : Nat) (e : Entry) (s : State) :
    (placeEntry b idx e s).mem = (s.storeEntry b idx e).mem := by
  unfold placeEntry
  split <;> simp

/-- An OPTDEC without an error stored the valid bytes under its CODE (42_optioncodec.md R186). -/
theorem optdecBody_entry {b : Bank} {idx : Nat} {c : Byte} {s : State}
    (h : (optdecBody b idx c s).errcode = .none) :
    readEntry (optdecBody b idx c s).mem b idx = ⟨c, s.rxBytes⟩ := by
  by_cases hr : 255 < s.rxlen.toNat
  · simp [optdecBody, hr] at h
  · rcases decOpt_cases c s.rxBytes with ⟨-, hd⟩ | ⟨k, hk, hd⟩
    · obtain ⟨he, -⟩ := storeEntry_reads (s := s) (b := b) (i := idx) (e := ⟨c, s.rxBytes⟩)
        (by rw [rxBytes_length]; omega)
      rw [optdecBody, if_neg hr, hd, finish_mem, placeEntry_mem, he]
    · exact absurd (by simpa [optdecBody, hr, hd] using h) hk

/-- An MSGDEC without an error stored the header and the list its decoder gives (43_messagecodec.md R227). -/
theorem msgdecBody_message {s : State} (hr : s.rxlen.toNat ≤ 4096) (hmax : s.maxOpts ≤ 64)
    (h : (msgdecBody s).errcode = .none) :
    ∃ r, decodeMessage s.maxOpts s.chkCookie s.rxBytes = .ok ((msgdecBody s).hdrBytes, r)
      ∧ (msgdecBody s).bankList .bank0 = r.opts := by
  unfold msgdecBody at h ⊢
  cases hd : decodeMessage s.maxOpts s.chkCookie s.rxBytes with
  | error f =>
    obtain ⟨hf, -⟩ := decodeMessage_error hd
    exact absurd (by simpa [hd] using h) hf
  | ok p =>
    obtain ⟨hdr, r⟩ := p
    obtain ⟨hh, -, hs⟩ := decodeMessage_ok hd
    obtain ⟨ho, hp, hstop, -, -⟩ := scanOptions_ok hs
    rw [List.length_drop, rxBytes_length] at hstop
    obtain ⟨hhdr, hlist, -⟩ := decodedAs_commit hmax hh ho hp (by omega)
    exact ⟨r, by rw [hhdr], hlist⟩

/-- Settles O31: with the same valid bytes the two bodies differ in stored bytes only, and what a successful decode
stores is a function of the valid bytes. -/
theorem rxReadersDependOnValidPrefixOnly : Obligations.RxReadersDependOnValidPrefixOnly := by
  intro s m hm i hi
  have hrx : ({ s with mem := m } : State).rxBytes = s.rxBytes := readN_congr hm
  have hreads : usesRx i = true := by rcases hi with rfl | rfl | rfl | ⟨b, idx, c, rfl⟩ <;> rfl
  rcases exec_cases i s with ⟨k, hk, hc, ht⟩ | ⟨hc, ht⟩
  · have hu : exec i { s with mem := m } = .next (fail k { s with mem := m }) := by
      rw [exec_eq, checked_of_some ((commonCheck_withMem i s m).trans hc)]
    exact ⟨_, _, ht, hu, readReg_withMem (fail k s) m, fun _ _ he => absurd he hk, fun _ _ _ _ he => absurd he hk⟩
  · have hu : exec i { s with mem := m } = .next (bodyOf i { s with mem := m }) := by
      rw [exec_eq, checked_of_none ((commonCheck_withMem i s m).trans hc)]
    obtain ⟨m', hb⟩ := bodyOf_withMem hreads hrx
    have herr : (bodyOf i { s with mem := m }).errcode = (bodyOf i s).errcode := by rw [hb]
    refine ⟨_, _, ht, hu, fun r => by rw [hb, readReg_withMem], ?message, ?entry⟩
    case message =>
      rintro rfl ⟨-, hmax⟩ he
      obtain ⟨hr, -, -⟩ := commonCheck_none_iff.mp hc
      obtain ⟨r, hd, hl⟩ := msgdecBody_message (hr rfl) hmax he
      obtain ⟨r', hd', hl'⟩ := msgdecBody_message (s := { s with mem := m }) (hr rfl) hmax (herr.trans he)
      rw [hrx] at hd'
      obtain ⟨hhdr, rfl⟩ := Prod.mk.inj (Except.ok.inj (hd'.symm.trans hd))
      exact ⟨hhdr, hl'.trans hl.symm⟩
    case entry =>
      rintro b idx c rfl he
      exact (optdecBody_entry (herr.trans he)).trans ((congrArg (Entry.mk c) hrx).trans (optdecBody_entry he).symm)

/-! ## Byte writes while idle -/

/-- A write to a byte location stores its low eight bits, or is ignored where the location is reserved
(20_memory.md R65). -/
theorem writeLocation_byte (v : Word) (s : State) {a : Nat} (h : 0x100 ≤ a) :
    writeLocation a v s = if isStorage s.maxOpts a then s.writeMem a [v.setWidth 8] else s := by
  simp [writeLocation, inRegs_byte h]

/-- Settles O45: an idle byte write is `writeLocation`, storage or reserved by the window of its address. -/
theorem idleByteWriteIsStored : Obligations.IdleByteWriteIsStored := by
  intro s a v rest hi hp ⟨_, hmax⟩
  have byte (h : 0x100 ≤ a) (h' : a < 0x20000) : step s = .next { (if isStorage s.maxOpts a = true
      then s.popped.writeMem a [v.setWidth 8] else s.popped) with resp := .ack } := by
    rw [step_write_idle hi hp (legalAccess_byte h h'), writeLocation_byte v _ h]
    rfl
  refine ⟨fun ha => ?stored, fun ha => ?reserved⟩
  case stored =>
    have hs : isStorage s.maxOpts a = true := by
      rcases ha with ⟨k, hk, rfl⟩ | ⟨k, hk, ha⟩ | ⟨b, i, k, hik, hk, rfl⟩
      · exact isStorage_iff.mpr (by omega)
      · exact isStorage_iff.mpr (by omega)
      · exact isStorage_entry b hik hk
    obtain ⟨h1, h2⟩ := isStorage_lt hmax hs
    rw [byte h1 h2, if_pos hs]
    refine ⟨_, rfl, ?_, fun x hx => ?_, fun r _ => ?_, hp, rfl, popped_inbox_of hi⟩
    · exact read_write_at (k := 0) (bs := [v.setWidth 8]) (by simp)
    · have hne : x ≠ a := by simpa using hx
      exact read_write_outside (by simp only [List.length_singleton]; omega)
    · rw [readReg_resp]
      exact (readReg_withMem s.popped _ r).trans (popped_readReg s r)
  case reserved =>
    have hr : (0x100 ≤ a ∧ a < 0x20000) ∧ ¬ isStorage s.maxOpts a = true := by
      rw [← or_assoc, ← or_assoc] at ha
      rcases ha with hgap | ⟨b, i, k, hik, hk, hout, rfl⟩
      · rw [isStorage_iff]; omega
      · refine ⟨entryAddr_bounds b hik hk, ?_⟩
        rw [isStorage_entryAddr b hmax hik hk]; omega
    obtain ⟨⟨h1, h2⟩, hs⟩ := hr
    rw [byte h1 h2, if_neg hs]

end Sys2Proof.Machine
end

section
/-! PROOFS. Decoder, encoder and opcode table agree (O1 to O4), and a word of no row in flight (O6). -/

namespace Sys2Proof

/-! ## Decoding the fields of a command, and the fields of a decoded command (30_encoding.md R92 to R95) -/

theorem decodeFields_fieldsOf {i : Instr} (h : i.wellFormed = true) : decodeFields (fieldsOf i) = .ok i := by
  cases i with
  | optenc b idx =>
    have hidx : idx < 256 := of_decide_eq_true h
    simp [decodeFields, fieldsOf, bankOfBit_bankBit, Nat.mod_eq_of_lt hidx]
  | optdec b idx c =>
    have hidx : idx < 256 := of_decide_eq_true h
    simp [decodeFields, fieldsOf, bankOfBit_bankBit, Nat.mod_eq_of_lt hidx]
  | _ => rfl

/-- A guarded answer of the decoder. -/
theorem ite_ok_eq_ok_iff {c : Prop} [Decidable c] {e : Illegal} {i j : Instr} :
    (if c then Except.ok i else Except.error e) = Except.ok j ↔ c ∧ i = j := by
  split <;> simp [*]

theorem fieldsOf_of_decodeFields {f : CmdFields} {i : Instr} (h : decodeFields f = .ok i) :
    fieldsOf i = f ∧ i.wellFormed = true := by
  obtain ⟨rsv, bank, idx, code, opc⟩ := f
  have hidx : decide (idx.toNat < 256) = true := decide_eq_true idx.isLt
  by_cases hrsv : rsv = 0#7
  case neg => simp [decodeFields, hrsv] at h
  by_cases hdec : opc = 0x11#8
  · obtain rfl : .optdec (bankOfBit bank) idx.toNat code = i := by simpa [decodeFields, hrsv, hdec] using h
    exact ⟨by simp [fieldsOf, bankBit_bankOfBit, hrsv, hdec], hidx⟩
  by_cases henc : opc = 0x10#8
  · obtain ⟨hcode, rfl⟩ : code = 0 ∧ .optenc (bankOfBit bank) idx.toNat = i := by
      simpa [decodeFields, hrsv, henc, ite_ok_eq_ok_iff] using h
    exact ⟨by simp [fieldsOf, bankBit_bankOfBit, hrsv, henc, hcode], hidx⟩
  cases hp : plainCommand opc with
  | none => simp [decodeFields, hrsv, hdec, henc, hp] at h
  | some j =>
    obtain ⟨⟨hcode, hidx0, hbank⟩, rfl⟩ : (code = 0 ∧ idx = 0 ∧ bank = 0) ∧ j = i := by
      simpa [decodeFields, hrsv, hdec, henc, hp, ite_ok_eq_ok_iff] using h
    obtain ⟨hf, hwf, -⟩ := plainCommand_some hp
    exact ⟨by rw [hf, hrsv, hbank, hidx0, hcode]; rfl, hwf⟩

/-- Settles O1: the fields of the word of a command are the command's, and those decode to it. -/
theorem decodeOfEncodeIsIdentity : Obligations.DecodeOfEncodeIsIdentity := by
  intro i h
  rw [decode, encode, cmdFields_cmdWord, decodeFields_fieldsOf h]

/-- Settles O2: the word's fields are those of the command they decode to, and a word is its fields. -/
theorem encodeOfDecodeIsIdentity : Obligations.EncodeOfDecodeIsIdentity := by
  intro w i h
  obtain ⟨hf, hwf⟩ := fieldsOf_of_decodeFields h
  exact ⟨by rw [encode, hf, cmdWord_cmdFields], hwf⟩

/-! ## The rows of the opcode table (30_encoding.md R93) -/

theorem row_of_encode {i : Instr} (h : i.wellFormed = true) : encode i &&& rowMask i = rowMatch i := by
  cases i with
  | optenc b idx => exact Laws.EncodeMatchesRow.optenc b idx h
  | optdec b idx c => exact Laws.EncodeMatchesRow.optdec b idx c h
  | _ => decide

/-- The fields of a command's word are its operands (30_encoding.md R91). -/
theorem operandsRead_encode {i : Instr} (h : i.wellFormed = true) : Machine.OperandsRead (encode i) i := by
  have hf (j : Instr) : cmdFields (encode j) = fieldsOf j := cmdFields_cmdWord _
  cases i with
  | optenc b idx =>
    have hidx : idx < 256 := of_decide_eq_true h
    show bankBit b = (cmdFields _).bank ∧ idx = (cmdFields _).idx.toNat
    rw [hf]
    exact ⟨rfl, (Nat.mod_eq_of_lt hidx).symm⟩
  | optdec b idx c =>
    have hidx : idx < 256 := of_decide_eq_true h
    show bankBit b = (cmdFields _).bank ∧ idx = (cmdFields _).idx.toNat ∧ c = (cmdFields _).code
    rw [hf]
    exact ⟨rfl, (Nat.mod_eq_of_lt hidx).symm, rfl⟩
  | _ => trivial

/-- A word of a command's row that holds the command's operands decodes to it. -/
theorem decode_of_row {w : Word} {i : Instr} (h : w &&& rowMask i = rowMatch i) (ho : Machine.OperandsRead w i) :
    decode w = .ok i := by
  cases i with
  | optenc b idx =>
    obtain ⟨hrsv, hcode, hopc⟩ := (row_optenc w).mp h
    obtain ⟨hb, hidx⟩ : bankBit b = (cmdFields w).bank ∧ idx = (cmdFields w).idx.toNat := ho
    simp [decode, decodeFields, hrsv, hcode, hopc, ← hb, bankOfBit_bankBit, ← hidx]
  | optdec b idx c =>
    obtain ⟨hrsv, hopc⟩ := (row_optdec w).mp h
    obtain ⟨hb, hidx, hc⟩ :
        bankBit b = (cmdFields w).bank ∧ idx = (cmdFields w).idx.toNat ∧ c = (cmdFields w).code := ho
    simp [decode, decodeFields, hrsv, hopc, ← hb, bankOfBit_bankBit, ← hidx, ← hc]
  | _ =>
    obtain rfl := (row_full w _).mp h
    rfl

/-- Decoding is by row and operands (30_encoding.md R95). -/
theorem decode_eq_ok_iff {w : Word} {i : Instr} :
    decode w = .ok i ↔ w &&& rowMask i = rowMatch i ∧ Machine.OperandsRead w i := by
  constructor
  · intro h
    obtain ⟨rfl, hwf⟩ := encodeOfDecodeIsIdentity w i h
    exact ⟨row_of_encode hwf, operandsRead_encode hwf⟩
  · rintro ⟨h, ho⟩
    exact decode_of_row h ho

theorem rowMatch_and_opc (i : Instr) : rowMatch i &&& 0xFF#32 = rowMatch i := by
  cases i <;> simp [rowMatch]

theorem rowMask_and_opc (i : Instr) : rowMask i &&& 0xFF#32 = 0xFF#32 := by
  cases i <;> simp [rowMask]

/-- Every row fixes OPC, and OPC alone tells the rows apart. -/
theorem rowMatch_eq_opc {w : Word} {i : Instr} (h : w &&& rowMask i = rowMatch i) : rowMatch i = w &&& 0xFF#32 :=
  calc rowMatch i = w &&& rowMask i &&& 0xFF#32 := by rw [h, rowMatch_and_opc]
    _ = w &&& 0xFF#32 := by rw [BitVec.and_assoc, rowMask_and_opc]

theorem decode_of_no_row {w : Word} (h : ∀ i : Instr, w &&& rowMask i ≠ rowMatch i) : ∃ e, decode w = .error e := by
  cases hd : decode w with
  | error e => exact ⟨e, rfl⟩
  | ok i => exact absurd (decode_eq_ok_iff.mp hd).1 (h i)

/-- Settles O3: a decoded word is its command's own, every row's words decode, and every row fixes OPC. -/
theorem decodeFollowsOpcodeTable : Obligations.DecodeFollowsOpcodeTable :=
  ⟨fun _ _ => decode_eq_ok_iff, fun _ _ _ hi hj => (rowMatch_eq_opc hi).trans (rowMatch_eq_opc hj).symm,
    fun _ => decode_of_no_row⟩

/-- Settles O4: each word is decoded by evaluation. -/
theorem sampleWordsDecode : Obligations.SampleWordsDecode := ⟨rfl, rfl, rfl, rfl, rfl, rfl, rfl, rfl, rfl⟩

end Sys2Proof

namespace Sys2Proof.Machine

/-- An untainted word that no row matches completes with ILLEGAL_CMD (30_encoding.md R94). -/
theorem engineTurn_of_no_row {s : State} {w : Word} (hp : s.pend = some w) (ht : s.taint = false)
    (h : ∀ i : Instr, w &&& rowMask i ≠ rowMatch i) : engineTurn s = .next (fail .illegalCmd s) := by
  obtain ⟨e, he⟩ := decode_of_no_row h
  simp [engineTurn, hp, runCommand, ht, he]

/-- Settles O6: the engine fails the word at once, and a failure writes STATUS alone. -/
theorem illegalWordCompletesWithIllegalCmd : Obligations.IllegalWordCompletesWithIllegalCmd := by
  intro s w hturn hp ht h
  exact ⟨fail .illegalCmd s.popped, (step_engine hturn).trans (engineTurn_of_no_row hp ht h),
    frame_fail .illegalCmd s.popped, rfl⟩

end Sys2Proof.Machine
end

section
/-! PROOFS. The bus accesses of a loadrx line (O54). -/

namespace Sys2Proof.Machine

theorem run_succ_of_next {M : Host.Core} {s t : M.State} (n : Nat) (h : M.step s = .next t) :
    M.run (n + 1) s = M.run n t := by
  rw [Host.Core.run, h]

theorem core_run_succ {s t : State} (n : Nat) (h : step s = .next t) : core.run (n + 1) s = core.run n t :=
  run_succ_of_next (M := core) n h

/-- An idle `wr8` to RXBUF stores the byte. -/
theorem step_wr8_rx {s : State} {a : Nat} {b : Byte} {rest : List Input} (hi : s.inbox = asmWr8 a b :: rest)
    (hp : s.pend = none) (h : 0x1000 ≤ a) (h' : a < 0x2000) :
    step s = .next { s with mem := s.mem.write a [b], inbox := rest, resp := .ack } := by
  have hb : (b.setWidth 32).setWidth 8 = b := by simp
  have hs : isStorage s.popped.maxOpts a = true := isStorage_iff.mpr (by omega)
  rw [step_write_idle hi hp (legalAccess_byte (by omega) (by omega)), writeLocation_byte _ _ (by omega), if_pos hs, hb,
    State.popped, hi]
  rfl

/-- An idle `wr32` to RXLEN stores the low bits of the number. -/
theorem step_wr32_rxlen {s : State} {n : Nat} {rest : List Input}
    (hi : s.inbox = asmWr32 Reg.rxlen.offset (BitVec.ofNat 32 n) :: rest) (hp : s.pend = none) :
    step s = .next { s with rxlen := BitVec.ofNat 13 n, inbox := rest, resp := .ack } := by
  have hn : (BitVec.ofNat 32 n).setWidth 13 = BitVec.ofNat 13 n := BitVec.setWidth_ofNat_of_le (by decide) n
  rw [step_write_reg (r := .rxlen) hi (by rw [busy_of_none hp]; rfl), writeReg, storeReg, hn, State.popped, hi]
  rfl

/-- Two writes on end read as one. -/
theorem read_write_cons (m : Memory) (a : Nat) (b : Byte) (bs : List Byte) (x : Nat) :
    ((m.write a [b]).write (a + 1) bs).read x = (m.write a (b :: bs)).read x := by
  have hlen : (b :: bs).length = bs.length + 1 := rfl
  by_cases hx : a + 1 ≤ x ∧ x < a + 1 + bs.length
  · obtain ⟨k, rfl⟩ := Nat.exists_eq_add_of_le hx.1
    have hk : k < bs.length := by omega
    rw [read_write_at hk, Nat.add_assoc, Nat.add_comm 1 k, read_write_at (k := k + 1) (by omega),
      List.getElem_cons_succ]
  · rw [read_write_outside (by omega)]
    by_cases ha : x = a
    · subst ha
      exact (read_write_at (k := 0) (bs := [b]) Nat.one_pos).trans
        (read_write_at (k := 0) (bs := b :: bs) (Nat.succ_pos _)).symm
    · rw [read_write_outside (by rw [List.length_singleton]; omega), read_write_outside (by omega)]

/-- The `wr8` lines of successive bytes of RXBUF, run while idle: the memory reads as after one write of the bytes, and
beside it only the list and the response have changed. -/
theorem run_asmBytes {s : State} {a : Nat} {bs : List Byte} {rest : List Input} (n : Nat)
    (hi : s.inbox = asmBytes a bs ++ rest) (hp : s.pend = none) (ha : 0x1000 ≤ a) (hl : a + bs.length ≤ 0x2000) :
    ∃ m x, (∀ y, m.read y = (s.mem.write a bs).read y)
      ∧ core.run (bs.length + n) s = core.run n { s with mem := m, inbox := rest, resp := x } := by
  induction bs generalizing s a with
  | nil =>
    have hi : s.inbox = rest := hi
    exact ⟨s.mem, s.resp, fun y => (read_write_outside (Nat.lt_or_ge y a)).symm,
      by rw [List.length_nil, Nat.zero_add, ← hi]⟩
  | cons b bs ih =>
    rw [List.length_cons] at hl
    have hstep := step_wr8_rx (b := b) (rest := asmBytes (a + 1) bs ++ rest) hi hp ha (by omega)
    obtain ⟨m, x, hm, hrun⟩ :=
      ih (s := { s with mem := s.mem.write a [b], inbox := asmBytes (a + 1) bs ++ rest, resp := .ack })
        rfl hp (Nat.le_succ_of_le ha) (by omega)
    refine ⟨m, x, fun y => (hm y).trans (read_write_cons ..), ?_⟩
    rw [List.length_cons, Nat.add_right_comm]
    exact (core_run_succ _ hstep).trans hrun

/-- Settles O54: the bytes are stored one by one, then RXLEN takes their number. -/
theorem loadRxLoadsBuffer : Obligations.LoadRxLoadsBuffer := by
  intro s bs rest hp hl hi hf
  rw [asmLoadRx, List.append_assoc] at hi
  obtain ⟨m, x, hm, hrun⟩ := run_asmBytes 1 hi hp (Nat.le_refl _) (Nat.add_le_add_left hl _)
  have hlast := core_run_succ 0 (step_wr32_rxlen (s := { s with
    mem := m, inbox := asmWr32 Reg.rxlen.offset (BitVec.ofNat 32 bs.length) :: rest, resp := x }) rfl hp)
  have hlen : (BitVec.ofNat 13 bs.length).toNat = bs.length := Nat.mod_eq_of_lt (by omega)
  refine ⟨_, hrun.trans hlast, ?bytes, hlen, hp, rfl, ?regs, hf, fun h => ⟨h, hp, hf⟩⟩
  case bytes =>
    show m.readN rxBase (BitVec.ofNat 13 bs.length).toNat = bs
    rw [hlen]
    exact (readN_congr fun k _ => hm (rxBase + k)).trans (readN_write_self s.mem rxBase bs)
  case regs =>
    intro r hr
    cases r with
    | rxlen => simp at hr
    | _ => rfl

end Sys2Proof.Machine
end

section
/-! PROOFS. The ByteCodec commands (O15 to O19) and their round trips (O20). -/

namespace Sys2Proof.Machine

theorem Answers.of_next {o : Host.Outcome State Fault Refusal} {P : State → Prop} {t : State} (h : Answers o P)
    (ht : o = .next t) : P t := by
  obtain ⟨u, hu, hp⟩ := h
  cases hu.symm.trans ht
  exact hp

/-! ## RXLEN and the common checks -/

/-- Check 2 comes first of the checks on a legal word (60_exceptions.md R272). -/
theorem commonCheck_lenRange {i : Instr} {s : State} (hi : usesRx i = true) (h : 4096 < s.rxlen.toNat) :
    commonCheck i s = some .lenRange := by
  simp [commonCheck, hi, Config.bufBytes, h]

/-- A command that reads no option bank passes its checks where RXLEN is within the buffer. -/
theorem commonCheck_none_of_rx {i : Instr} {s : State} (hb : banksOf i = []) (hx : badIndex i s = false)
    (h : s.rxlen.toNat ≤ 4096) : commonCheck i s = none :=
  commonCheck_none_iff.mpr ⟨fun _ => h, by simp [hb], hx⟩

/-! ## XIDGEN -/

/-- Settles O15: the body stores the draw in XIDR and counts it. -/
theorem xidgenWritesOneDraw : Obligations.XidgenWritesOneDraw :=
  ⟨rfl, fun s => answers_body rfl ⟨rfl, rfl, frame_drawn (frame_storeReg .xidr (Config.entropy s.draws) s)⟩⟩

/-! ## B2U16 and B2U32 -/

/-- B2U16's value by the number of bytes there are (41_bytecodec.md R142). -/
theorem u16OfBytes_readN (m : Memory) (a n : Nat) :
    u16OfBytes (m.readN a n) =
      if n = 0 then 0 else if n = 1 then (m.read a).setWidth 32 else (m.read a ++ m.read (a + 1)).setWidth 32 := by
  match n with
  | 0 | 1 => rfl
  | n + 2 =>
    rw [readN_succ, readN_succ, if_neg (by omega), if_neg (by omega)]
    rfl

/-- B2U32's value by the number of bytes there are (41_bytecodec.md R143). -/
theorem u32OfBytes_readN (m : Memory) (a n : Nat) :
    u32OfBytes (m.readN a n) =
      if n < 4 then 0 else m.read a ++ m.read (a + 1) ++ m.read (a + 2) ++ m.read (a + 3) := by
  match n with
  | 0 | 1 | 2 | 3 => rfl
  | n + 4 =>
    rw [readN_succ, readN_succ, readN_succ, readN_succ, if_neg (by omega)]
    rfl

/-- B2U16 stores the value of `RX[0..RXLEN)` in BCVAL and writes nothing else but STATUS. -/
theorem b2u16_answers {s : State} (h : s.rxlen.toNat ≤ 4096) :
    Answers (exec .b2u16 s) fun t =>
      t.bcval = u16OfBytes s.rxBytes ∧ t.mvalid = s.mvalid ∧ Frame .none [.bcval] noBytes s t :=
  answers_body (commonCheck_none_of_rx rfl rfl h) ⟨rfl, rfl, frame_storeReg .bcval (u16OfBytes s.rxBytes) s⟩

/-- B2U32 stores the value of `RX[0..RXLEN)` in BCVAL and writes nothing else but STATUS. -/
theorem b2u32_answers {s : State} (h : s.rxlen.toNat ≤ 4096) :
    Answers (exec .b2u32 s) fun t =>
      t.bcval = u32OfBytes s.rxBytes ∧ t.mvalid = s.mvalid ∧ Frame .none [.bcval] noBytes s t :=
  answers_body (commonCheck_none_of_rx rfl rfl h) ⟨rfl, rfl, frame_storeReg .bcval (u32OfBytes s.rxBytes) s⟩

/-- Settles O16: the value of the valid bytes, by their number; a longer RXLEN fails check 2. -/
theorem b2u16ReadsBigEndianPrefix : Obligations.B2u16ReadsBigEndianPrefix := by
  refine ⟨rfl, fun s => ⟨fun h => ?_, fun h => failsOnly_of_check (commonCheck_lenRange rfl h)⟩⟩
  obtain ⟨t, ht, hval, hrest⟩ := b2u16_answers h
  exact ⟨t, ht, hval.trans (u16OfBytes_readN s.mem rxBase s.rxlen.toNat), hrest⟩

/-- Settles O17: the value of the valid bytes, by their number; a longer RXLEN fails check 2. -/
theorem b2u32ReadsBigEndianPrefix : Obligations.B2u32ReadsBigEndianPrefix := by
  refine ⟨rfl, fun s => ⟨fun h => ?_, fun h => failsOnly_of_check (commonCheck_lenRange rfl h)⟩⟩
  obtain ⟨t, ht, hval, hrest⟩ := b2u32_answers h
  exact ⟨t, ht, hval.trans (u32OfBytes_readN s.mem rxBase s.rxlen.toNat), hrest⟩

/-! ## U16TB and U32TB -/

theorem u16tb_answers (s : State) :
    Answers (exec .u16tb s) (Encoded (bytes16 (s.bcval.extractLsb' 0 16)) s) :=
  answers_body rfl (encoded_emitTx (by simp))

theorem u32tb_answers (s : State) : Answers (exec .u32tb s) (Encoded (bytes32 s.bcval) s) :=
  answers_body rfl (encoded_emitTx (by simp))

theorem read_of_encoded {bs : List Byte} {s t : State} (h : Encoded bs s t) {k : Nat} (hk : k < bs.length) :
    t.mem.read (txBase + k) = bs[k] := by
  obtain ⟨hbytes, -⟩ := h
  calc t.mem.read (txBase + k) = (t.mem.readN txBase bs.length)[k]'(by rwa [readN_length]) := (readN_getElem ..).symm
    _ = bs[k] := by simp only [hbytes]

/-- The bytes of the low half of a word are bytes of the word. -/
theorem bytes16_low (v : Word) : bytes16 (v.extractLsb' 0 16) = [v.extractLsb' 8 8, v.extractLsb' 0 8] := by
  rw [bytes16, BitVec.extractLsb'_extractLsb'_of_le (by decide), BitVec.extractLsb'_extractLsb'_of_le (by decide)]

/-- Settles O18: the two bytes U16TB puts out are TX[0] and TX[1]. -/
theorem u16tbWritesTwoBytes : Obligations.U16tbWritesTwoBytes := by
  refine ⟨rfl, fun s => ?_⟩
  obtain ⟨t, ht, henc⟩ := u16tb_answers s
  rw [bytes16_low] at henc
  have ⟨_, hlen, hkeeps⟩ := henc
  exact ⟨t, ht, read_of_encoded henc (k := 0) (by simp), read_of_encoded henc (k := 1) (by simp),
    BitVec.eq_of_toNat_eq hlen, hkeeps⟩

/-- Settles O19: the four bytes U32TB puts out are TX[0] to TX[3]. -/
theorem u32tbWritesFourBytes : Obligations.U32tbWritesFourBytes := by
  refine ⟨rfl, fun s => ?_⟩
  obtain ⟨t, ht, henc⟩ := u32tb_answers s
  have ⟨_, hlen, hkeeps⟩ := henc
  exact ⟨t, ht, read_of_encoded henc (k := 0) (by simp), read_of_encoded henc (k := 1) (by simp),
    read_of_encoded henc (k := 2) (by simp), read_of_encoded henc (k := 3) (by simp), BitVec.eq_of_toNat_eq hlen, hkeeps⟩

/-! ## The round trips (41_bytecodec.md R146) -/

/-- RXBUF that holds what an encode put out, and RXLEN its length, give the encoded bytes to a command. -/
theorem rxBytes_of_encoded {bs : List Byte} {s t u : State} (h : Encoded bs s t) (hl : u.rxlen.toNat = bs.length)
    (hm : ∀ k, k < bs.length → u.mem.read (rxBase + k) = t.mem.read (txBase + k)) : u.rxBytes = bs := by
  obtain ⟨hbytes, -⟩ := h
  calc u.rxBytes = u.mem.readN rxBase bs.length := by rw [State.rxBytes, hl]
    _ = t.mem.readN txBase bs.length := readN_congr hm
    _ = bs := hbytes

theorem u16OfBytes_bytes16 (v : Half) : u16OfBytes (bytes16 v) = v.setWidth 32 :=
  congrArg (BitVec.setWidth 32) (be16_bytes16 v)

theorem u32OfBytes_bytes32 (v : Word) : u32OfBytes (bytes32 v) = v := be32_bytes32 v

/-- Settles O20: the bytes of BCVAL in RXBUF have BCVAL, or its low half, for their value. -/
theorem byteConversionsRoundTrip : Obligations.ByteConversionsRoundTrip := by
  refine fun s u => ⟨fun t ht hlen hm => ?word, fun t ht hlen hm => ?half⟩
  case word =>
    have hrx : u.rxBytes = bytes32 s.bcval := rxBytes_of_encoded ((u32tb_answers s).of_next ht) (by simp [hlen]) hm
    obtain ⟨v, hv, hval, -⟩ := b2u32_answers (s := u) (by simp [hlen])
    exact ⟨v, hv, hval.trans (by rw [hrx, u32OfBytes_bytes32])⟩
  case half =>
    have hrx := rxBytes_of_encoded ((u16tb_answers s).of_next ht) (by simp [hlen]) hm
    obtain ⟨v, hv, hval, -⟩ := b2u16_answers (s := u) (by simp [hlen])
    exact ⟨v, hv, hval.trans (by rw [hrx, u16OfBytes_bytes16])⟩

end Sys2Proof.Machine
end

section
/-! PROOFS. The OptionCodec commands (O21 to O24) and their round trip (O25). -/

namespace Sys2Proof.Machine

/-! ## The common checks of OPTENC and OPTDEC (60_exceptions.md R272) -/

theorem commonCheck_optenc_none_iff {s : State} {b : Bank} {idx : Nat} :
    commonCheck (.optenc b idx) s = none ↔ s.cnt b ≤ s.maxOpts ∧ idx < s.cnt b := by
  simp [commonCheck_none_iff, usesRx, banksOf, badIndex]

theorem commonCheck_optdec_none_iff {s : State} {b : Bank} {idx : Nat} {c : Byte} :
    commonCheck (.optdec b idx c) s = none ↔
      s.rxlen.toNat ≤ 4096 ∧ s.cnt b ≤ s.maxOpts ∧ idx ≤ s.cnt b ∧ idx < s.maxOpts := by
  simp [commonCheck_none_iff, usesRx, banksOf, badIndex]

/-! ## OPTENC -/

theorem optenc_encodes {s : State} {b : Bank} {idx : Nat} (hchk : commonCheck (.optenc b idx) s = none)
    (he : encodable (readEntry s.mem b idx) = true) :
    Answers (exec (.optenc b idx) s) (Encoded (wire (readEntry s.mem b idx)) s) := by
  have hl := wire_length_le (readEntry_payload_length s.mem b idx)
  refine answers_body hchk ?_
  rw [bodyOf, optencBody, encEntry_of_encodable he]
  exact encoded_emitTx (by omega)

theorem optenc_fails {s : State} {b : Bank} {idx : Nat} {k : ErrCode}
    (hchk : commonCheck (.optenc b idx) s = none) (he : encEntry (readEntry s.mem b idx) = .error k) :
    Answers (exec (.optenc b idx) s) (EncodeFailed k s) := by
  refine answers_body hchk ?_
  rw [bodyOf, optencBody, he]
  exact encodeFailed_encFail k s

/-- Settles O21: the encoder's answer to an entry it accepts goes to TXBUF. -/
theorem optencEncodesEntry : Obligations.OptencEncodesEntry := fun _ _ _ hcnt hidx he =>
  optenc_encodes (commonCheck_optenc_none_iff.mpr ⟨hcnt, hidx⟩) he

/-- Settles O22: the encoder refuses for the code first, and then for the length alone. -/
theorem optencRefusesBadEntry : Obligations.OptencRefusesBadEntry := by
  intro s b idx hcnt hidx
  have hchk := commonCheck_optenc_none_iff.mpr ⟨hcnt, hidx⟩
  simp only [listed_eq]
  exact ⟨fun hs => optenc_fails hchk (encEntry_of_unsupported hs),
    fun hs he => optenc_fails hchk (encEntry_of_badWidth hs he)⟩

/-! ## What the option decoder answers (42_optioncodec.md R181) -/

theorem decOpt_ok_iff {c : Byte} {p : List Byte} : decOpt c p = .ok ⟨c, p⟩ ↔
    (c = endCode ∧ p.length = 0 ∨ c ≠ endCode ∧ supported c = true ∧ lenOk c p.length = true) := by
  constructor
  · intro h
    rcases decOpt_cases c p with ⟨hc, -⟩ | ⟨k, -, hk⟩
    · exact hc
    · cases hk.symm.trans h
  · rintro (⟨rfl, hp⟩ | ⟨hne, hs, hl⟩)
    · rw [List.length_eq_zero_iff.mp hp]
      rfl
    · simp [decOpt, hs, hne, hl]

theorem decOpt_of_unsupported {c : Byte} (p : List Byte) (h : supported c = false) :
    decOpt c p = .error .decBadCode := by
  simp [decOpt, h]

theorem decOpt_of_nonempty_end {p : List Byte} (h : p.length ≠ 0) : decOpt endCode p = .error .decBadFixedLen := by
  rw [decOpt, if_neg (by decide), if_pos rfl, if_pos h]

theorem decOpt_of_badLength {c : Byte} {p : List Byte} (hs : supported c = true) (hne : c ≠ endCode)
    (hl : lenOk c p.length = false) : decOpt c p = .error (decErr c) := by
  simp [decOpt, hs, hne, hl]

/-- What the decoder accepts, the encoder accepts (42_optioncodec.md R160: one length predicate for both). -/
theorem encodable_of_decOpt {c : Byte} {p : List Byte} (h : decOpt c p = .ok ⟨c, p⟩) :
    encodable ⟨c, p⟩ = true := by
  rw [encodable_iff]
  rcases decOpt_ok_iff.mp h with ⟨hc, -⟩ | ⟨-, hs, hl⟩
  · exact ⟨by rw [hc]; rfl, .inl hc⟩
  · exact ⟨hs, .inr hl⟩

/-! ## OPTDEC that stores -/

/-- The count after a stored entry: one more exactly where the entry was appended. -/
theorem cnt_placeEntry {b : Bank} {idx : Nat} (e : Entry) {s : State} (h : s.cnt b < 255) :
    (placeEntry b idx e s).cnt b = if idx = s.cnt b then s.cnt b + 1 else s.cnt b := by
  unfold placeEntry
  split
  · rw [cnt_setCnt, BitVec.toNat_ofNat, Nat.mod_eq_of_lt (by omega)]
  · cases b <;> rfl

theorem cnt_finish (s : State) (b : Bank) : (finish s).cnt b = s.cnt b := by cases b <;> rfl

theorem optdecBody_of_ok {b : Bank} {idx : Nat} {c : Byte} {s : State} (hr : s.rxlen.toNat ≤ 255)
    (hd : decOpt c s.rxBytes = .ok ⟨c, s.rxBytes⟩) :
    optdecBody b idx c s = finish (placeEntry b idx ⟨c, s.rxBytes⟩ s) := by
  rw [optdecBody, if_neg (by omega), hd]

theorem optdec_stores {s : State} {b : Bank} {idx : Nat} {c : Byte} (hp : ParamOk s)
    (hchk : commonCheck (.optdec b idx c) s = none) (hr : s.rxlen.toNat ≤ 255)
    (hd : decOpt c s.rxBytes = .ok ⟨c, s.rxBytes⟩) :
    Answers (exec (.optdec b idx c) s) fun t =>
      readEntry t.mem b idx = ⟨c, s.rxBytes⟩ ∧ t.cnt b = (if idx = s.cnt b then s.cnt b + 1 else s.cnt b)
        ∧ t.mvalid = s.mvalid ∧ Frame .none [cntReg b] (inRange (entryAddr b idx) entrySize) s t := by
  obtain ⟨-, hmax⟩ := hp
  obtain ⟨-, hcnt, -, -⟩ := commonCheck_optdec_none_iff.mp hchk
  have hfit : (Entry.mk c s.rxBytes).payload.length ≤ 255 := by rw [rxBytes_length]; exact hr
  obtain ⟨hentry, -⟩ := storeEntry_reads (s := s) (b := b) (i := idx) hfit
  refine answers_body hchk ?_
  rw [bodyOf, optdecBody_of_ok hr hd]
  exact ⟨by rw [finish_mem, placeEntry_mem, hentry], by rw [cnt_finish, cnt_placeEntry _ (by omega)], by simp,
    frame_placeEntry b idx hfit⟩

/-- Settles O23: the payloads of R160's table are those the decoder accepts. -/
theorem optdecStoresEntry : Obligations.OptdecStoresEntry := by
  intro s b idx c hp hr hcnt hi hlt htable
  have hd : decOpt c s.rxBytes = .ok ⟨c, s.rxBytes⟩ := by
    rw [decOpt_ok_iff, rxBytes_length]
    exact (payloadTable_iff c s.rxlen.toNat).mp htable
  exact optdec_stores hp (commonCheck_optdec_none_iff.mpr ⟨by omega, hcnt, hi, hlt⟩) hr hd

/-! ## OPTDEC that fails -/

theorem optdec_fails_long {s : State} {b : Bank} {idx : Nat} {c : Byte}
    (hchk : commonCheck (.optdec b idx c) s = none) (hr : 255 < s.rxlen.toNat) :
    FailsOnly .lenRange (.optdec b idx c) s :=
  failsOnly_of_body hchk (if_pos hr)

theorem optdec_fails {s : State} {b : Bank} {idx : Nat} {c : Byte} {k : ErrCode}
    (hchk : commonCheck (.optdec b idx c) s = none) (hr : s.rxlen.toNat ≤ 255)
    (hd : decOpt c s.rxBytes = .error k) : FailsOnly k (.optdec b idx c) s :=
  failsOnly_of_body hchk (by rw [bodyOf, optdecBody, if_neg (by omega), hd])

theorem optdec_fails_badLength {s : State} {b : Bank} {idx : Nat} {c : Byte} {k : ErrCode}
    (hchk : commonCheck (.optdec b idx c) s = none) (hr : s.rxlen.toNat ≤ 255)
    (hc : supported c = true ∧ c ≠ endCode ∧ decErr c = k) (hl : lenOk c s.rxlen.toNat = false) :
    FailsOnly k (.optdec b idx c) s := by
  obtain ⟨hs, hne, rfl⟩ := hc
  exact optdec_fails hchk hr (decOpt_of_badLength hs hne (by rwa [rxBytes_length]))

/-- The codes of four payload bytes fail with the fixed-length code (42_optioncodec.md R161). -/
theorem fourByteCode_decErr {c : Byte} (h : c ∈ ([50, 51, 54, 58, 59] : List Byte)) :
    supported c = true ∧ c ≠ endCode ∧ decErr c = .decBadFixedLen := by
  revert c
  decide

theorem lenOk_fourByteCode {c : Byte} (h : c ∈ ([50, 51, 54, 58, 59] : List Byte)) (n : Nat) :
    lenOk c n = (n == 4) :=
  if_pos (List.contains_iff_mem.mpr h)

/-- Settles O24: the length of RXBUF's payload first, then the decoder's own refusals. -/
theorem optdecRefusesBadPayload : Obligations.OptdecRefusesBadPayload := by
  intro s b idx c hcnt hi hlt
  have checks (hr : s.rxlen.toNat ≤ 4096) : commonCheck (.optdec b idx c) s = none :=
    commonCheck_optdec_none_iff.mpr ⟨hr, hcnt, hi, hlt⟩
  refine ⟨fun hlong hr => optdec_fails_long (checks hr) hlong, fun hr => ?_⟩
  have hchk := checks (by omega)
  refine ⟨?unsupported, ?ending, ?four, ?one, ?two, ?chunk, ?clientId⟩
  case unsupported =>
    intro hc
    exact optdec_fails hchk hr (decOpt_of_unsupported _ (by rw [← listed_eq]; exact decide_eq_false hc))
  case ending =>
    rintro rfl hl
    exact optdec_fails hchk hr (decOpt_of_nonempty_end (by rwa [rxBytes_length]))
  case four =>
    intro hc hl
    exact optdec_fails_badLength hchk hr (fourByteCode_decErr hc) (by simpa [lenOk_fourByteCode hc] using hl)
  case one =>
    rintro rfl hl
    exact optdec_fails_badLength hchk hr (by decide) (by simpa [lenOk] using hl)
  case two =>
    rintro rfl hl
    exact optdec_fails_badLength hchk hr (by decide) (by simpa [lenOk] using hl)
  case chunk =>
    rintro (rfl | rfl) hl <;>
      exact optdec_fails_badLength hchk hr (by decide) (by simpa [lenOk] using hl)
  case clientId =>
    rintro rfl hl
    exact optdec_fails_badLength hchk hr (by decide) (by simp [lenOk, hl])

/-! ## The round trip (42_optioncodec.md R187) -/

/-- An OPTDEC without an error passed every check and decoded its payload. -/
theorem optdec_accepted {s t : State} {b : Bank} {idx : Nat} {c : Byte} (ht : exec (.optdec b idx c) s = .next t)
    (he : t.errcode = .none) :
    commonCheck (.optdec b idx c) s = none ∧ s.rxlen.toNat ≤ 255 ∧ decOpt c s.rxBytes = .ok ⟨c, s.rxBytes⟩ := by
  have not_failed {k : ErrCode} (hk : k ≠ .none) (hf : FailsOnly k (.optdec b idx c) s) : False := by
    obtain ⟨⟨⟨-, -, -, hcode, -⟩, -⟩, -⟩ := hf.of_next ht
    exact hk (hcode.symm.trans he)
  rcases exec_cases (.optdec b idx c) s with ⟨k, hk, hchk, -⟩ | ⟨hchk, -⟩
  · exact (not_failed hk (failsOnly_of_check hchk)).elim
  · by_cases hr : s.rxlen.toNat ≤ 255
    · rcases decOpt_cases c s.rxBytes with ⟨-, hd⟩ | ⟨k, hk, hd⟩
      · exact ⟨hchk, hr, hd⟩
      · exact (not_failed hk (optdec_fails hchk hr hd)).elim
    · exact (not_failed (by decide) (optdec_fails_long hchk (by omega))).elim

/-- Settles O25: OPTDEC stored an entry the encoder accepts, below the count. -/
theorem optionRoundTrip : Obligations.OptionRoundTrip := by
  intro s t b idx c hp ht he
  obtain ⟨hchk, hr, hd⟩ := optdec_accepted ht he
  obtain ⟨-, hcnt, hi, hlt⟩ := commonCheck_optdec_none_iff.mp hchk
  obtain ⟨hentry, hcnt', -, -, -, -, hmax, -⟩ := (optdec_stores hp hchk hr hd).of_next ht
  have hchk' : commonCheck (.optenc b idx) t = none := by
    rw [commonCheck_optenc_none_iff, hcnt', hmax]
    split <;> omega
  obtain ⟨u, hu, hbytes, hlen, -, ⟨-, -, -, hcode, -⟩, -⟩ :=
    optenc_encodes hchk' (by rw [hentry]; exact encodable_of_decOpt hd)
  refine ⟨u, hu, hcode, ?_⟩
  rw [hlen, hbytes, hentry, wire, Entry.image, rxBytes_length]
  rfl

end Sys2Proof.Machine
end

section
/-! PROOFS. MSGENC (O26, O27). -/

namespace Sys2Proof.Machine

/-! ## MSGENC -/

theorem commonCheck_msgenc_none_iff {s : State} : commonCheck .msgenc s = none ↔ s.cnt .bank0 ≤ s.maxOpts := by
  simp [commonCheck_none_iff, usesRx, banksOf, badIndex]

theorem encMessage_of_encodable {hdr : List Byte} {l : List Entry} (hh : hdr.length = 240)
    (he : ∀ e ∈ l, encodable e = true) (hl : 240 + (wireList l).length ≤ 4096) :
    encMessage hdr l = .ok (pad300 (hdr ++ wireList l)) := by
  rw [encMessage, hh, encEntries_ok he hl]

theorem encMessage_of_error {hdr : List Byte} {l : List Entry} {k : ErrCode} (hh : hdr.length = 240)
    (h : encEntries 240 l = .error k) : encMessage hdr l = .error k := by
  rw [encMessage, hh, h]

/-- The padded message's length (43_messagecodec.md R211, R212). -/
theorem message_length {hdr : List Byte} (l : List Entry) (hh : hdr.length = 240) :
    (pad300 (hdr ++ wireList l)).length = max 300 (240 + (wireList l).length) := by
  rw [pad300_length, List.length_append, hh]

theorem msgenc_encodes {s : State} (hcnt : s.cnt .bank0 ≤ s.maxOpts)
    (he : ∀ e ∈ s.bankList .bank0, encodable e = true) (hl : 240 + (wireList (s.bankList .bank0)).length ≤ 4096) :
    Answers (exec .msgenc s) (EncodedMessage (pad300 (s.hdrBytes ++ wireList (s.bankList .bank0))) s) := by
  refine answers_body (commonCheck_msgenc_none_iff.mpr hcnt) ?_
  rw [bodyOf, msgencBody, encMessage_of_encodable (hdrBytes_length s) he hl]
  exact encodedMessage_emit (by rw [message_length _ (hdrBytes_length s)]; omega)

theorem msgenc_fails {s : State} {k : ErrCode} (hcnt : s.cnt .bank0 ≤ s.maxOpts)
    (h : encEntries 240 (s.bankList .bank0) = .error k) : Answers (exec .msgenc s) (EncodeFailed k s) := by
  refine answers_body (commonCheck_msgenc_none_iff.mpr hcnt) ?_
  rw [bodyOf, msgencBody, encMessage_of_error (hdrBytes_length s) h]
  exact encodeFailed_encFail k s

/-- Settles O26: the padded message is the encoder's answer, and TXLEN its length. -/
theorem msgencWritesPaddedMessage : Obligations.MsgencWritesPaddedMessage := by
  intro s hcnt he hl
  have hlen := message_length (s.bankList .bank0) (hdrBytes_length s)
  have hpad : pad300 (s.hdrBytes ++ wireList (s.bankList .bank0)) = s.hdrBytes ++ wireList (s.bankList .bank0)
      ++ List.replicate (300 - (240 + (wireList (s.bankList .bank0)).length)) 0 := by
    rw [pad300, zeros, List.length_append, hdrBytes_length]
  obtain ⟨t, ht, henc⟩ := msgenc_encodes hcnt he hl
  have ⟨_, htx, _⟩ := henc
  exact ⟨t, ht, hpad ▸ henc, htx.trans hlen⟩

/-- Settles O27: the list encoder stops at the first entry that fails. -/
theorem msgencReportsFirstBadEntry : Obligations.MsgencReportsFirstBadEntry := by
  intro s pre post e hcnt hlist hpre hl
  simp only [listed_eq]
  refine ⟨fun hs => ?badCode, fun hs he => ?badWidth, fun he hover => ?overflow⟩
  case badCode =>
    exact msgenc_fails hcnt (by rw [hlist, encEntries_first_bad hpre hl (encEntry_of_unsupported hs)])
  case badWidth =>
    exact msgenc_fails hcnt (by rw [hlist, encEntries_first_bad hpre hl (encEntry_of_badWidth hs he)])
  case overflow =>
    exact msgenc_fails hcnt (by rw [hlist, encEntries_overflow hpre hl he hover])

/-- An MSGENC without an error put out its list's message, every entry of which the encoder accepts. -/
theorem msgenc_accepted {s t : State} (ht : exec .msgenc s = .next t) (he : t.errcode = .none) :
    (∀ e ∈ s.bankList .bank0, encodable e = true) ∧ t.txlen.toNat ≤ 4096
      ∧ EncodedMessage (pad300 (s.hdrBytes ++ wireList (s.bankList .bank0))) s t := by
  rcases exec_cases .msgenc s with ⟨k, hk, -, hx⟩ | ⟨-, hx⟩ <;> cases hx.symm.trans ht
  · exact absurd he hk
  · rw [bodyOf, msgencBody] at he ⊢
    rcases encMessage_cases (s.bankList .bank0) (hdrBytes_length s) with ⟨bs, henc, rfl, hl, hall⟩ | ⟨k, hk, henc⟩
    · rw [henc]
      have hout := encodedMessage_emit (s := s) hl
      have ⟨_, htx, _⟩ := hout
      exact ⟨hall, htx ▸ hl, hout⟩
    · rw [henc] at he
      exact absurd he hk

end Sys2Proof.Machine
end

section
/-! PROOFS. MSGDEC (O28 to O30). -/

namespace Sys2Proof.Machine

/-! ## MSGDEC by its decoder's answer -/

theorem commonCheck_msgdec_none {s : State} (hr : s.rxlen.toNat ≤ 4096) : commonCheck .msgdec s = none :=
  commonCheck_none_of_rx rfl rfl hr

theorem msgdec_of_decode_ok {s : State} {hdr : List Byte} {r : OptionScan} (hp : ParamOk s) (hr : s.rxlen.toNat ≤ 4096)
    (hd : decodeMessage s.maxOpts s.chkCookie s.rxBytes = .ok (hdr, r)) :
    Answers (exec .msgdec s) fun t => DecodedAs s t hdr r.opts r.stat r.ucode r.stop := by
  obtain ⟨-, hmax⟩ := hp
  obtain ⟨hh, -, hs⟩ := decodeMessage_ok hd
  obtain ⟨hroom, hfit, hstop, -, -⟩ := scanOptions_ok hs
  rw [List.length_drop, rxBytes_length] at hstop
  refine answers_body (commonCheck_msgdec_none hr) ?_
  rw [bodyOf, msgdecBody, hd]
  exact decodedAs_commit hmax hh hroom hfit (by omega)

theorem msgdec_of_decode_error {s : State} {f : DecodeFailure} (hr : s.rxlen.toNat ≤ 4096)
    (hd : decodeMessage s.maxOpts s.chkCookie s.rxBytes = .error f) :
    Answers (exec .msgdec s) fun t => DiscardedAs s t f.code f.stop := by
  obtain ⟨-, hstop⟩ := decodeMessage_error hd
  rw [rxBytes_length] at hstop
  refine answers_body (commonCheck_msgdec_none hr) ?_
  rw [bodyOf, msgdecBody, hd]
  exact discardedAs_decFail (by omega)

/-! ## The header stage (43_messagecodec.md R221, R222) -/

theorem decodeMessage_short {maxOpts : Nat} {chk : Bool} {bs : List Byte} (h : bs.length < 240) :
    decodeMessage maxOpts chk bs = .error ⟨.decShortHeader, 0⟩ := by
  rw [decodeMessage, if_pos h]

theorem decodeMessage_badCookie {maxOpts : Nat} {chk : Bool} {bs : List Byte} (hl : 240 ≤ bs.length)
    (hc : chk = true) (h : (bs.drop 236).take 4 ≠ cookie) :
    decodeMessage maxOpts chk bs = .error ⟨.decBadCookie, 236⟩ := by
  rw [decodeMessage, if_neg (Nat.not_lt.mpr hl), if_pos (by rw [hc, decide_eq_true h]; rfl)]

/-- Settles O29: the two checks of the header stage, in their order. -/
theorem msgdecDiscardsBadHeader : Obligations.MsgdecDiscardsBadHeader := by
  refine fun s hr => ⟨fun hshort => ?_, fun hl hc hcookie => ?_⟩
  · exact msgdec_of_decode_error hr (decodeMessage_short (by rwa [rxBytes_length]))
  · exact msgdec_of_decode_error hr (decodeMessage_badCookie (by rwa [rxBytes_length]) hc hcookie)

/-! ## The option stage (43_messagecodec.md R223) -/

/-- RXBUF holds a datagram that begins with a header the decoder accepts and the well-shaped options `l`, which fit
bank 0; `tail` is what follows them. -/
structure HoldsDatagram (s : State) (hdr : List Byte) (l : List Entry) (tail : List Byte) : Prop where
  rxlen  : s.rxlen.toNat ≤ 4096
  header : hdr.length = 240
  bytes  : s.rxBytes = hdr ++ wireList l ++ tail
  shaped : ∀ e ∈ l, wellShaped e = true
  room   : l.length ≤ s.maxOpts
  cookie : s.chkCookie = true → hdr.drop 236 = [0x63, 0x82, 0x53, 0x63]

/-- The option loop of such a datagram goes on at its tail, with the room the options leave. -/
def scanTail (s : State) (l : List Entry) (tail : List Byte) : Except DecodeFailure OptionScan :=
  scanOptions (s.maxOpts - l.length) (240 + (wireList l).length) tail

section
variable {s : State} {hdr tail : List Byte} {l : List Entry}

theorem HoldsDatagram.decodeMessage_ok (h : HoldsDatagram s hdr l tail) {r : OptionScan}
    (hr : scanTail s l tail = .ok r) :
    decodeMessage s.maxOpts s.chkCookie s.rxBytes = .ok (hdr, { r with opts := l ++ r.opts }) := by
  rw [scanTail] at hr
  rw [h.bytes, List.append_assoc, decodeMessage_of_header h.header h.cookie, scanOptions_wellShaped h.shaped h.room, hr]

theorem HoldsDatagram.decodeMessage_error (h : HoldsDatagram s hdr l tail) {f : DecodeFailure}
    (hr : scanTail s l tail = .error f) : decodeMessage s.maxOpts s.chkCookie s.rxBytes = .error f := by
  rw [scanTail] at hr
  rw [h.bytes, List.append_assoc, decodeMessage_of_header h.header h.cookie, scanOptions_wellShaped h.shaped h.room, hr]

/-- A tail the option loop accepts: the options before it and its own are stored. -/
theorem HoldsDatagram.accepts (h : HoldsDatagram s hdr l tail) (hp : ParamOk s) {opts : List Entry} {stat : DStat}
    {ucode : Byte} {stop : Nat} (hr : scanTail s l tail = .ok ⟨opts, stat, ucode, stop⟩) :
    Answers (exec .msgdec s) fun t => DecodedAs s t hdr (l ++ opts) stat ucode stop :=
  msgdec_of_decode_ok hp h.rxlen (h.decodeMessage_ok hr)

/-- A tail the option loop refuses: the message is discarded. -/
theorem HoldsDatagram.discards (h : HoldsDatagram s hdr l tail) {k : ErrCode} {stop : Nat}
    (hr : scanTail s l tail = .error ⟨k, stop⟩) : Answers (exec .msgdec s) fun t => DiscardedAs s t k stop :=
  msgdec_of_decode_error h.rxlen (h.decodeMessage_error hr)

/-! ### What the option loop says of a tail -/

theorem scanTail_nil : scanTail s l [] = .ok ⟨[], .eob, 0, 240 + (wireList l).length⟩ := by
  rw [scanTail, scanOptions]

theorem scanTail_end (rest : List Byte) (h : l.length < s.maxOpts) :
    scanTail s l (endCode :: rest) = .ok ⟨[endOpt], .ended, 0, 240 + (wireList l).length⟩ := by
  rw [scanTail, scanOptions_cons, if_pos rfl, if_neg (by omega), endOpt]

theorem scanTail_end_full (rest : List Byte) (h : l.length = s.maxOpts) :
    scanTail s l (endCode :: rest) = .error ⟨.decOptOverflow, 240 + (wireList l).length⟩ := by
  rw [scanTail, scanOptions_cons, if_pos rfl, if_pos (by omega)]

theorem ne_end_of_unsupported {c : Byte} (h : supported c = false) : c ≠ endCode := by
  rintro rfl
  cases h

theorem scanTail_unsupported {c : Byte} (rest : List Byte) (h : supported c = false) :
    scanTail s l (c :: rest) = .ok ⟨[], .unknown, c, 240 + (wireList l).length⟩ := by
  rw [scanTail, scanOptions_cons, if_neg (ne_end_of_unsupported h), if_pos h]

variable {c : Byte} (hs : supported c = true) (he : c ≠ endCode)
include hs he

theorem scanTail_truncLen : scanTail s l [c] = .error ⟨.decTruncLen, 240 + (wireList l).length⟩ := by
  rw [scanTail, scanOptions_cons, if_neg he, if_neg (by simp [hs])]

theorem scanTail_badLength {n : Byte} (rest : List Byte) (hn : lenOk c n.toNat = false) :
    scanTail s l (c :: n :: rest) = .error ⟨decErr c, 240 + (wireList l).length⟩ := by
  rw [scanTail, scanOptions_cons, if_neg he, if_neg (by simp [hs])]
  simp only [hn, if_true]

theorem scanTail_truncPayload {n : Byte} {rest : List Byte} (hn : lenOk c n.toNat = true)
    (hl : rest.length < n.toNat) :
    scanTail s l (c :: n :: rest) = .error ⟨.decTruncPayload, 240 + (wireList l).length⟩ := by
  rw [scanTail, scanOptions_cons, if_neg he, if_neg (by simp [hs])]
  simp only [hn, hl, Bool.true_eq_false, if_false, if_true]

theorem scanTail_full {n : Byte} {rest : List Byte} (hn : lenOk c n.toNat = true) (hl : n.toNat ≤ rest.length)
    (hfull : l.length = s.maxOpts) :
    scanTail s l (c :: n :: rest) = .error ⟨.decOptOverflow, 240 + (wireList l).length⟩ := by
  rw [scanTail, scanOptions_cons, if_neg he, if_neg (by simp [hs])]
  simp only [hn, Nat.not_lt.mpr hl, hfull, Nat.sub_self, Bool.true_eq_false, if_false, if_true]

end

/-- Settles O28: the option loop reads the options, and the tail says how it ends. -/
theorem msgdecParsesWireFormat : Obligations.MsgdecParsesWireFormat := by
  intro s hdr tail l hp hr hh hb hw hroom hc
  have hd : HoldsDatagram s hdr l tail := ⟨hr, hh, hb, hw, hroom, hc⟩
  refine ⟨?nothing, ?ended, ?unknown⟩
  case nothing =>
    rintro rfl
    simpa only [List.append_nil] using hd.accepts hp scanTail_nil
  case ended =>
    rintro rest rfl hlt
    exact hd.accepts hp (scanTail_end rest hlt)
  case unknown =>
    rintro c rest rfl hlisted
    rw [listed_eq] at hlisted
    simpa only [List.append_nil] using hd.accepts hp (scanTail_unsupported rest hlisted)

/-- The code a wrong length gives, row by row of 42_optioncodec.md R161. -/
theorem decErr_eq (c : Byte) :
    decErr c = if c = 3 ∨ c = 6 then .decBadChunk else if c = 61 then .decBadClientId else .decBadFixedLen := by
  simp [decErr]

/-- Settles O30: the checks of one option in their order, after options that passed them. -/
theorem msgdecDiscardsMalformedOption : Obligations.MsgdecDiscardsMalformedOption := by
  intro s hdr rest l c hp hr hh hb hw hroom hc hlisted
  have hd : HoldsDatagram s hdr l (c :: rest) := ⟨hr, hh, hb, hw, hroom, hc⟩
  have hs : supported c = true := by rwa [← listed_eq]
  refine ⟨?endFull, ?truncLen, fun n tail he htail => ?_⟩
  case endFull =>
    rintro rfl hfull
    exact hd.discards (scanTail_end_full rest hfull)
  case truncLen =>
    rintro he rfl
    exact hd.discards (scanTail_truncLen hs he)
  subst htail
  have table : lengthTable c n.toNat = lenOk c n.toNat := by
    rw [Bool.eq_iff_iff, lengthTable_iff]
    exact ⟨fun h => h.2.2, fun h => ⟨hs, he, h⟩⟩
  rw [table]
  refine ⟨fun hn => ?badLength, fun hn hl => ?truncPayload, fun hn hl hfull => ?full⟩
  case badLength =>
    rw [← decErr_eq]
    exact hd.discards (scanTail_badLength hs he tail hn)
  case truncPayload => exact hd.discards (scanTail_truncPayload hs he hn hl)
  case full => exact hd.discards (scanTail_full hs he hn hl hfull)

end Sys2Proof.Machine
end

section
/-! PROOFS. What a successful builder built, the cached message type (O32), and the round trip of a built message
(O40). -/

namespace Sys2Proof.Machine

/-! ## What the builders build -/

/-- The four builders (44_builders.md R245 to R256). -/
def builders : List Instr := [.blddisc, .bldreq, .blddecl, .bldrel]

/-- A message a builder puts together in `s`: a header that ends in the cookie (44_builders.md R240), and the options
before the End option, among which only an extra option can be an End (R244). -/
structure BuilderMessage (s : State) (hdr : List Byte) (opts : List Entry) : Prop where
  header       : hdr.length = 240
  endsInCookie : hdr.drop 236 = cookie
  fit          : PayloadsFit opts
  noEnd        : ∀ e ∈ opts, e ∉ s.bankList .bank1 → e.code ≠ endCode

theorem hdrBuild_cookie {xid : Word} {secs : Half} {ci mac : List Byte} {gi : Word} (hc : ci.length = 4)
    (hm : mac.length = 6) : (hdrBuild xid secs ci mac gi).drop 236 = cookie := by
  rw [hdrBuild]
  exact List.drop_left' (by simp [hc, hm])

theorem code_of_mem_firstWith {c : Byte} {l : List Entry} {e : Entry} (h : e ∈ firstWith c l) : e.code = c := by
  unfold firstWith at h
  split at h
  · rename_i x hx
    obtain rfl := List.mem_singleton.mp h
    have hcode := List.find?_some hx
    exact beq_iff_eq.mp hcode
  · cases h

/-- A builder's first options (44_builders.md R241) hold no End. -/
theorem code_of_mem_address {t : Byte} {a : List Byte} {e : Entry} (h : e ∈ [typeOpt t, prlOpt, ripOpt a]) :
    e.code ≠ endCode := by
  simp only [List.mem_cons, List.not_mem_nil, or_false] at h
  rcases h with rfl | rfl | rfl <;> simp [typeOpt, prlOpt, ripOpt, endCode]

/-- DISCOVER begins with the first two of the options the other builders begin with (44_builders.md R245). -/
theorem builderMessage_discover (s : State) :
    BuilderMessage s (s.hdrFromRegs (zeros 4)) ([typeOpt 1, prlOpt] ++ s.extras) where
  header := hdrFromRegs_length s rfl
  endsInCookie := hdrBuild_cookie rfl rfl
  fit := payloadsFit_append (by simp [PayloadsFit, typeOpt, prlOpt]) (bankList_payload s .bank1)
  noEnd _ he hx := by
    have hfirst := (List.mem_append.mp he).resolve_right hx
    exact code_of_mem_address (t := 1) (a := []) (List.mem_append_left [ripOpt []] hfirst)

theorem builderMessage_address (s : State) (t : Byte) (ip : Word) {ci : List Byte} (hc : ci.length = 4) :
    BuilderMessage s (s.hdrFromRegs ci) ([typeOpt t, prlOpt, ripOpt (bytes32 ip)] ++ s.extras) where
  header := hdrFromRegs_length s hc
  endsInCookie := hdrBuild_cookie hc rfl
  fit := payloadsFit_append (payloadsFit_address t rfl) (bankList_payload s .bank1)
  noEnd _ he hx := code_of_mem_address ((List.mem_append.mp he).resolve_right hx)

theorem builderMessage_request (s : State) :
    BuilderMessage s s.hdrFromOffer ([typeOpt 3, prlOpt, ripOpt (s.hdrSlice 16 4)] ++ s.extras
      ++ firstWith 54 (s.bankList .bank0) ++ firstWith 61 (s.bankList .bank0)) where
  header := hdrFromOffer_length s
  endsInCookie := hdrBuild_cookie rfl (readN_length ..)
  fit := by
    have hoffer := bankList_payload s .bank0
    exact payloadsFit_append (payloadsFit_append (payloadsFit_append (payloadsFit_address 3 (readN_length ..))
      (bankList_payload s .bank1)) (payloadsFit_firstWith 54 hoffer)) (payloadsFit_firstWith 61 hoffer)
  noEnd e he hx := by
    simp only [List.mem_append] at he
    rcases he with ((hfirst | hextra) | h54) | h61
    · exact code_of_mem_address hfirst
    · exact absurd hextra hx
    · rw [code_of_mem_firstWith h54]; decide
    · rw [code_of_mem_firstWith h61]; decide

/-- Every builder's body builds such a message, but for a BLDREQ without an offer (44_builders.md R251). -/
theorem builderBody_cases {i : Instr} (hi : i ∈ builders) (s : State) :
    bodyOf i s = fail .bldNoOffer s
      ∨ ∃ hdr opts, BuilderMessage s hdr opts ∧ bodyOf i s = build hdr (opts ++ [endOpt]) s := by
  simp only [builders, List.mem_cons, List.not_mem_nil, or_false] at hi
  rcases hi with rfl | rfl | rfl | rfl
  · exact .inr ⟨_, _, builderMessage_discover s, rfl⟩
  · rw [bodyOf, bldreqBody]
    split
    · exact .inl rfl
    · exact .inr ⟨_, _, builderMessage_request s, rfl⟩
  · exact .inr ⟨_, _, builderMessage_address s 4 s.pTgtip rfl, rfl⟩
  · exact .inr ⟨_, _, builderMessage_address s 7 s.pTgtip rfl, rfl⟩

/-- A builder without an error passed its checks and committed its message. -/
theorem builder_accepted {i : Instr} {s t : State} (hi : i ∈ builders) (hp : ParamOk s) (ht : exec i s = .next t)
    (he : t.errcode = .none) :
    ∃ hdr opts, BuilderMessage s hdr opts ∧ opts.length < s.maxOpts ∧ BuiltList s t (opts ++ [endOpt])
      ∧ t.hdrBytes = hdr := by
  obtain ⟨-, hmax⟩ := hp
  rcases exec_cases i s with ⟨k, hk, -, hx⟩ | ⟨-, hx⟩ <;> cases hx.symm.trans ht
  · exact absurd he hk
  · rcases builderBody_cases hi s with hb | ⟨hdr, opts, hmsg, hb⟩ <;> rw [hb] at he ⊢
    · cases he
    · rcases build_cases hmax hmsg.header (payloadsFit_append hmsg.fit payloadsFit_endOpt) with
        ⟨-, hf⟩ | ⟨hl, hbuilt, hhdr⟩
      · rw [hf] at he
        cases he
      · rw [List.length_append] at hl
        exact ⟨hdr, opts, hmsg, hl, hbuilt, hhdr⟩

/-! ## The message type (43_messagecodec.md R226) -/

/-- An MSGDEC without an error caches the type of the list it stored. -/
theorem msgdec_mtype {s t : State} (hp : ParamOk s) (ht : exec .msgdec s = .next t) (he : t.errcode = .none) :
    t.mtype = mtypeOf (t.bankList .bank0) := by
  obtain ⟨-, hmax⟩ := hp
  rcases exec_cases .msgdec s with ⟨k, hk, -, hx⟩ | ⟨hchk, hx⟩ <;> cases hx.symm.trans ht
  · exact absurd he hk
  · obtain ⟨hr, -⟩ := commonCheck_none_iff.mp hchk
    obtain ⟨r, hd, hl⟩ := msgdecBody_message (hr rfl) hmax he
    have hb : msgdecBody s = decCommit (msgdecBody s).hdrBytes r s := by
      conv => lhs; rw [msgdecBody, hd]
    calc (msgdecBody s).mtype = mtypeOf r.opts := (congrArg State.mtype hb).trans (decCommit_mtype ..)
      _ = mtypeOf ((msgdecBody s).bankList .bank0) := by rw [hl]

/-- Settles O32: MSGDEC and the builders cache the type of the list they store. -/
theorem mtypeMirrorsLastOption53 : Obligations.MtypeMirrorsLastOption53 := by
  intro i s t hp hi ht he
  have hm : t.mtype = mtypeOf (t.bankList .bank0) := by
    rcases List.mem_cons.mp hi with rfl | hi
    · exact msgdec_mtype hp ht he
    · obtain ⟨_, _, -, -, ⟨hlist, -, hm, -⟩, -⟩ := builder_accepted hi hp ht he
      rw [hm, hlist]
  rw [hm]
  exact ⟨fun pre post v hl hpost => by rw [hl, mtypeOf_last hpost], mtypeOf_none⟩

/-! ## The round trip (43_messagecodec.md R229) -/

/-- RXBUF that holds an encoded message, and RXLEN its length, give the message to a command. -/
theorem rxBytes_of_encodedMessage {bs : List Byte} {s t u : State} (h : EncodedMessage bs s t)
    (hl : u.rxlen = t.txlen) (hm : ∀ k, k < t.txlen.toNat → u.mem.read (rxBase + k) = t.mem.read (txBase + k)) :
    u.rxBytes = bs := by
  obtain ⟨hbytes, hlen, -⟩ := h
  calc u.rxBytes = t.mem.readN txBase t.txlen.toNat := by rw [State.rxBytes, hl]; exact readN_congr hm
    _ = bs := by rw [hlen, hbytes]

/-- The encoded message as the decoder meets it: the End option's one byte is followed by padding alone
(43_messagecodec.md R212). -/
theorem pad300_endOpt (hdr : List Byte) (opts : List Entry) : ∃ padding,
    pad300 (hdr ++ wireList (opts ++ [endOpt])) = hdr ++ wireList opts ++ endCode :: padding := by
  refine ⟨zeros (300 - (hdr ++ wireList (opts ++ [endOpt])).length), ?_⟩
  rw [pad300, wireList_append]
  simp [wire, endOpt]

/-- What the encoder accepts other than an End, the decoder accepts (42_optioncodec.md R160). -/
theorem wellShaped_of_encodable {e : Entry} (he : encodable e = true) (hne : e.code ≠ endCode)
    (hl : e.payload.length ≤ 255) : wellShaped e = true := by
  obtain ⟨hs, hlen⟩ := encodable_iff.mp he
  exact wellShaped_iff.mpr ⟨hs, hne, hlen.resolve_left hne, hl⟩

/-- Settles O40: the encoded message is a datagram whose options are the built ones, up to its End option. -/
theorem messageRoundTrip : Obligations.MessageRoundTrip := by
  intro i s t u v hi hp ht hterr hextra hu huerr hrxlen hvmax hbytes
  obtain ⟨hdr, opts, hmsg, hroom, ⟨hlist, -, hmtype, -⟩, rfl⟩ := builder_accepted hi hp ht hterr
  obtain ⟨henc, htx, hout⟩ := msgenc_accepted hu huerr
  rw [hlist] at henc hout
  obtain ⟨padding, hpad⟩ := pad300_endOpt t.hdrBytes opts
  have shaped (e : Entry) (he : e ∈ opts) : wellShaped e = true := by
    refine wellShaped_of_encodable (henc e (List.mem_append_left _ he)) ?_ (hmsg.fit e he)
    by_cases hx : e ∈ s.bankList .bank1
    · obtain ⟨-, hne⟩ := hextra e hx
      exact hne
    · exact hmsg.noEnd e he hx
  have hd : HoldsDatagram v t.hdrBytes opts (endCode :: padding) :=
    { rxlen := hrxlen ▸ htx
      header := hmsg.header
      bytes := (rxBytes_of_encodedMessage hout hrxlen hbytes).trans hpad
      shaped := shaped
      room := by omega
      cookie := fun _ => hmsg.endsInCookie }
  have hvp : ParamOk v := by rw [ParamOk, hvmax]; exact hp
  obtain ⟨z, hz, hhdr, hopts, -, hmt, hvalid, hstat, hucode, hstop, ⟨-, -, -, hcode, -⟩, -⟩ :=
    hd.accepts hvp (scanTail_end padding (by omega))
  refine ⟨z, hz, hcode, hvalid, hhdr, ?_, ?_, hstat, hucode, ?_⟩
  · rw [hopts, hlist]
  · rw [hmt, hmtype]
  · rw [hstop, hlist, wireList_append, List.length_append]
    rfl

end Sys2Proof.Machine
end

section
/-! PROOFS. The builders: what each builds (O33 to O36), how each refuses (O37, O38), and the relay address in every
built message and its encoding (O39). -/

namespace Sys2Proof.Machine

/-! ## The header image, row by row (44_builders.md R240) -/

/-- A part of a byte string in memory is that part of the string. -/
theorem readN_slice (m : Memory) (a : Nat) {i n len : Nat} (h : i + n ≤ len) :
    m.readN (a + i) n = ((m.readN a len).drop i).take n := by
  obtain ⟨r, rfl⟩ := Nat.exists_eq_add_of_le h
  rw [readN_add, readN_add, List.append_assoc, List.drop_left' (readN_length ..), List.take_left' (readN_length ..)]

/-- The last row of a header image, and the rows before it. -/
theorem hdrSlice_append {t : State} {front row : List Byte} (i n : Nat) (h : t.hdrSlice 0 (i + n) = front ++ row)
    (hn : row.length = n) : t.hdrSlice 0 i = front ∧ t.hdrSlice i n = row :=
  List.append_inj' ((readN_add t.mem hdrBase i n).symm.trans h) ((readN_length ..).trans hn.symm)

/-- The rows of a built header, taken off its image from the last one back. -/
theorem builtHeader_of_hdrBytes {t : State} {xid : Word} {secs : Half} {ci mac : List Byte} {gi : Word}
    (hc : ci.length = 4) (hm : mac.length = 6) (h : t.hdrBytes = hdrBuild xid secs ci mac gi) :
    BuiltHeader t xid secs ci mac gi := by
  rw [hdrBuild] at h
  obtain ⟨h, hcookie⟩ := hdrSlice_append 236 4 h rfl
  obtain ⟨h, hfile⟩ := hdrSlice_append 108 128 h (zeros_length 128)
  obtain ⟨h, hsname⟩ := hdrSlice_append 44 64 h (zeros_length 64)
  obtain ⟨h, hchaddr⟩ := hdrSlice_append 28 16 h (by simp [hm])
  obtain ⟨h, hgiaddr⟩ := hdrSlice_append 24 4 h (bytes32_length gi)
  obtain ⟨h, hsiaddr⟩ := hdrSlice_append 20 4 h (zeros_length 4)
  obtain ⟨h, hyiaddr⟩ := hdrSlice_append 16 4 h (zeros_length 4)
  obtain ⟨h, hciaddr⟩ := hdrSlice_append 12 4 h hc
  obtain ⟨h, hflags⟩ := hdrSlice_append 10 2 h (zeros_length 2)
  obtain ⟨h, hsecs⟩ := hdrSlice_append 8 2 h (bytes16_length secs)
  obtain ⟨hfixed, hxid⟩ := hdrSlice_append 4 4 h (bytes32_length xid)
  exact ⟨hfixed, hxid, hsecs, hflags, hciaddr, hyiaddr, hsiaddr, hgiaddr, hchaddr, hsname, hfile, hcookie⟩

/-! ## A builder that reaches its build -/

/-- Behind its checks the builder `i` builds, in `s`, the header of these rows with the relay address, and the option
list `l` (44_builders.md R240, R242). -/
structure Builds (i : Instr) (s : State) (xid : Word) (secs : Half) (ci mac : List Byte) (l : List Entry) : Prop where
  clientIp : ci.length = 4
  hwAddr   : mac.length = 6
  fit      : PayloadsFit l
  body     : bodyOf i s = build (hdrBuild xid secs ci mac s.pGiaddr) l s

section
variable {i : Instr} {s : State} {xid : Word} {secs : Half} {ci mac : List Byte} {l : List Entry}

/-- With room for its list the builder commits its header and its list (44_builders.md R242). -/
theorem Builds.answers (h : Builds i s xid secs ci mac l) (hp : ParamOk s) (hchk : commonCheck i s = none)
    (hl : l.length ≤ s.maxOpts) :
    Answers (exec i s) fun t => BuiltHeader t xid secs ci mac s.pGiaddr ∧ BuiltList s t l := by
  obtain ⟨-, hmax⟩ := hp
  refine answers_body hchk ?_
  rw [h.body]
  rcases build_cases hmax (hdrBuild_length h.clientIp h.hwAddr) h.fit with ⟨hover, -⟩ | ⟨-, hlist, hhdr⟩
  · exact absurd hl (Nat.not_le.mpr hover)
  · exact ⟨builtHeader_of_hdrBytes h.clientIp h.hwAddr hhdr, hlist⟩

/-- Without room for its list the builder fails (44_builders.md R243). -/
theorem Builds.overflows (h : Builds i s xid secs ci mac l) (hchk : commonCheck i s = none)
    (hl : s.maxOpts < l.length) : FailsOnly .bldOverflow i s :=
  failsOnly_of_body hchk (h.body.trans (if_pos hl))

theorem errcode_of_failsOnly {k : ErrCode} {t : State} (h : FailsOnly k i s) (ht : exec i s = .next t) :
    t.errcode = k := by
  obtain ⟨⟨⟨-, -, -, hcode, -⟩, -⟩, -⟩ := h.of_next ht
  exact hcode

/-- A builder that ended without an error committed its header. -/
theorem Builds.header_of_accepted {t : State} (h : Builds i s xid secs ci mac l) (hp : ParamOk s)
    (hchk : commonCheck i s = none) (ht : exec i s = .next t) (he : t.errcode = .none) :
    BuiltHeader t xid secs ci mac s.pGiaddr := by
  rcases Nat.lt_or_ge s.maxOpts l.length with hover | hl
  · cases (errcode_of_failsOnly (h.overflows hchk hover) ht).symm.trans he
  · obtain ⟨hhdr, -⟩ := (h.answers hp hchk hl).of_next ht
    exact hhdr

end

/-! ## What each builder builds -/

theorem builds_blddisc (s : State) :
    Builds .blddisc s s.xidr s.pSecs (zeros 4) s.macBytes (discoverList (s.bankList .bank1)) :=
  ⟨rfl, rfl, payloadsFit_discoverList (bankList_payload s .bank1), rfl⟩

theorem builds_blddecl (s : State) :
    Builds .blddecl s s.xidr s.pSecs (zeros 4) s.macBytes (addressList 4 s.pTgtip (s.bankList .bank1)) :=
  ⟨rfl, rfl, payloadsFit_addressList 4 s.pTgtip (bankList_payload s .bank1), rfl⟩

theorem builds_bldrel (s : State) :
    Builds .bldrel s s.xidr s.pSecs (bytes32 s.pTgtip) s.macBytes (addressList 7 s.pTgtip (s.bankList .bank1)) :=
  ⟨rfl, rfl, payloadsFit_addressList 7 s.pTgtip (bankList_payload s .bank1), rfl⟩

/-- The offer's first option of a code, or none (44_builders.md R252). -/
theorem firstWith_eq_toList (c : Byte) (l : List Entry) :
    firstWith c l = (l.find? fun e => e.code == c).toList := by
  unfold firstWith
  cases l.find? fun e => e.code == c <;> rfl

/-- BLDREQ's list is the one the rules give of the offer (44_builders.md R250, R252). -/
theorem requestList_eq_requestOptions (s : State) :
    requestList (s.hdrSlice 16 4) (s.bankList .bank0) s.extras = requestOptions s := by
  rw [requestList, firstWith_eq_toList, firstWith_eq_toList]
  rfl

theorem bldreqBody_of_held {s : State} (hv : s.mvalid = true) :
    bldreqBody s = build s.hdrFromOffer (requestOptions s) s := by
  rw [bldreqBody, hv, requestList_eq_requestOptions]
  rfl

theorem bldreqBody_of_not_held {s : State} (hv : s.mvalid = false) : bldreqBody s = fail .bldNoOffer s := by
  rw [bldreqBody, hv]
  rfl

theorem builds_bldreq {s : State} (hv : s.mvalid = true) :
    Builds .bldreq s (be32 (s.hdrByte 4) (s.hdrByte 5) (s.hdrByte 6) (s.hdrByte 7))
      (be16 (s.hdrByte 8) (s.hdrByte 9) + 1) (zeros 4) (s.hdrSlice 28 6) (requestOptions s) where
  clientIp := rfl
  hwAddr := readN_length ..
  fit := requestList_eq_requestOptions s ▸
    payloadsFit_requestList (readN_length ..) (bankList_payload s .bank0) (bankList_payload s .bank1)
  body := bldreqBody_of_held hv

theorem discoverList_length (s : State) : (discoverList (s.bankList .bank1)).length = s.cnt .bank1 + 3 := by
  simp [discoverList, bankList_length]

theorem addressList_length (t : Byte) (ip : Word) (s : State) :
    (addressList t ip (s.bankList .bank1)).length = s.cnt .bank1 + 4 := by
  simp [addressList, bankList_length]

/-! ## The checks of the builders: the counts of the banks they read (60_exceptions.md R272) -/

theorem commonCheck_builder_none {i : Instr} (hi : i ∈ builders) {s : State}
    (h : ∀ b ∈ banksOf i, s.cnt b ≤ s.maxOpts) : commonCheck i s = none := by
  simp only [builders, List.mem_cons, List.not_mem_nil, or_false] at hi
  rw [commonCheck_none_iff]
  rcases hi with rfl | rfl | rfl | rfl <;> exact ⟨nofun, h, rfl⟩

/-- BLDDISC, BLDDECL and BLDREL read bank 1 alone. -/
theorem commonCheck_bank1_none {i : Instr} (hi : i ∈ builders) (hb : banksOf i = [.bank1]) {s : State}
    (h : s.cnt .bank1 ≤ s.maxOpts) : commonCheck i s = none :=
  commonCheck_builder_none hi (by simpa [hb] using h)

theorem commonCheck_bldreq_none {s : State} (h0 : s.cnt .bank0 ≤ s.maxOpts) (h1 : s.cnt .bank1 ≤ s.maxOpts) :
    commonCheck .bldreq s = none :=
  commonCheck_builder_none (by decide) (by simp [banksOf, h0, h1])

/-! ## The builders' messages -/

/-- Settles O33: type 1 and the default parameter list, three entries more than bank 1 with the End option. -/
theorem blddiscBuildsDiscover : Obligations.BlddiscBuildsDiscover := fun s hp hl =>
  (builds_blddisc s).answers hp (commonCheck_bank1_none (by decide) rfl (by omega))
    (by rw [discoverList_length]; exact hl)

/-- Settles O34: type 4 and option 50 with P_TGTIP, under a header with a zero client IP. -/
theorem blddeclBuildsDecline : Obligations.BlddeclBuildsDecline := fun s hp hl =>
  (builds_blddecl s).answers hp (commonCheck_bank1_none (by decide) rfl (by omega))
    (by rw [addressList_length]; exact hl)

/-- Settles O35: type 7 and option 50 with P_TGTIP, which the client-IP field holds too. -/
theorem bldrelBuildsRelease : Obligations.BldrelBuildsRelease := fun s hp hl =>
  (builds_bldrel s).answers hp (commonCheck_bank1_none (by decide) rfl (by omega))
    (by rw [addressList_length]; exact hl)

/-- Settles O36: with a held message BLDREQ builds from the offer in the state it starts from. -/
theorem bldreqBuildsRequestFromOffer : Obligations.BldreqBuildsRequestFromOffer := fun _ hp h0 h1 hv hl =>
  (builds_bldreq hv).answers hp (commonCheck_bldreq_none h0 h1) hl

/-! ## The builders' refusals -/

/-- Settles O37: BLDREQ looks at MVALID before it writes. -/
theorem bldreqNeedsHeldMessage : Obligations.BldreqNeedsHeldMessage := fun _ h0 h1 hv =>
  failsOnly_of_body (commonCheck_bldreq_none h0 h1) (bldreqBody_of_not_held hv)

/-- Settles O38: each builder measures its list before it writes. -/
theorem buildersRefuseOverflow : Obligations.BuildersRefuseOverflow := by
  refine fun s h1 => ⟨fun hl => ?_, fun hl => ⟨?_, ?_⟩, fun h0 hv hl => ?_⟩
  · exact (builds_blddisc s).overflows (commonCheck_bank1_none (by decide) rfl h1)
      (by rw [discoverList_length]; exact hl)
  · exact (builds_blddecl s).overflows (commonCheck_bank1_none (by decide) rfl h1)
      (by rw [addressList_length]; exact hl)
  · exact (builds_bldrel s).overflows (commonCheck_bank1_none (by decide) rfl h1)
      (by rw [addressList_length]; exact hl)
  · exact (builds_bldreq hv).overflows (commonCheck_bldreq_none h0 h1) hl

/-! ## The relay address (44_builders.md R257) -/

/-- A builder fails for want of an offer, or reaches its build. -/
theorem builder_builds {i : Instr} (hi : i ∈ builders) (s : State) :
    bodyOf i s = fail .bldNoOffer s ∨ ∃ xid secs ci mac l, Builds i s xid secs ci mac l := by
  simp only [builders, List.mem_cons, List.not_mem_nil, or_false] at hi
  rcases hi with rfl | rfl | rfl | rfl
  · exact .inr ⟨_, _, _, _, _, builds_blddisc s⟩
  · cases hv : s.mvalid with
    | false => exact .inl (bldreqBody_of_not_held hv)
    | true => exact .inr ⟨_, _, _, _, _, builds_bldreq hv⟩
  · exact .inr ⟨_, _, _, _, _, builds_blddecl s⟩
  · exact .inr ⟨_, _, _, _, _, builds_bldrel s⟩

/-- A builder without an error left a header with the relay address of the state it started from. -/
theorem builder_header_of_accepted {i : Instr} {s t : State} (hi : i ∈ builders) (hp : ParamOk s)
    (ht : exec i s = .next t) (he : t.errcode = .none) :
    ∃ xid secs ci mac, BuiltHeader t xid secs ci mac s.pGiaddr := by
  rcases exec_cases i s with ⟨k, hk, hchk, -⟩ | ⟨hchk, -⟩
  · exact absurd ((errcode_of_failsOnly (failsOnly_of_check hchk) ht).symm.trans he) hk
  · rcases builder_builds hi s with hb | ⟨xid, secs, ci, mac, l, hb⟩
    · cases (errcode_of_failsOnly (failsOnly_of_body hchk hb) ht).symm.trans he
    · exact ⟨xid, secs, ci, mac, hb.header_of_accepted hp hchk ht he⟩

/-- An encoded message begins with the header it was encoded from (43_messagecodec.md R211). -/
theorem readN_tx_of_encodedMessage {s t : State} {body : List Byte}
    (h : EncodedMessage (pad300 (s.hdrBytes ++ body)) s t) {i n : Nat} (hin : i + n ≤ 240) :
    t.mem.readN (txBase + i) n = s.hdrSlice i n := by
  obtain ⟨hbytes, -⟩ := h
  have hh := hdrBytes_length s
  have hlen : 240 ≤ (pad300 (s.hdrBytes ++ body)).length := by
    rw [pad300_length, List.length_append]; omega
  have htx : t.mem.readN txBase 240 = s.hdrBytes := by
    have htake := readN_slice t.mem txBase (i := 0) (n := 240) (by omega)
    rw [hbytes, pad300, List.append_assoc, List.drop_zero, List.take_left' hh] at htake
    exact htake
  rw [readN_slice _ _ hin, htx, hdrSlice_eq s i n hin]

/-- Settles O39: the address is a row of every built header, and MSGENC puts the header out first. -/
theorem relayAddressIsPropagated : Obligations.RelayAddressIsPropagated := by
  intro i s t hi hp ht he
  obtain ⟨_, _, _, _, -, -, -, -, -, -, -, hrelay, -⟩ := builder_header_of_accepted hi hp ht he
  refine ⟨hrelay, fun u hu huerr => ?_⟩
  obtain ⟨-, -, henc⟩ := msgenc_accepted hu huerr
  exact (readN_tx_of_encodedMessage henc (by decide)).trans hrelay

end Sys2Proof.Machine
end

section
/-! PROOFS. Every step answers (O7, O12, O13), the common checks in their order (O11), rejected accesses and marks
(O43, O44), and the end of a command in flight with its interrupt (O10, O52). -/

namespace Sys2Proof.Machine

/-! ## The common checks (60_exceptions.md R272) -/

theorem lenCheck_passes {i : Instr} {s : State} (hrx : usesRx i = true → s.rxlen.toNat ≤ 4096) :
    ¬ (usesRx i && decide (Config.bufBytes < s.rxlen.toNat)) = true := by
  simpa [Config.bufBytes] using hrx

/-- Check 3 is the first to fail where RXLEN is within the buffer or is not read. -/
theorem commonCheck_cntRange {i : Instr} {s : State} {b : Bank} (hrx : usesRx i = true → s.rxlen.toNat ≤ 4096)
    (hb : b ∈ banksOf i) (h : s.maxOpts < s.cnt b) : commonCheck i s = some .cntRange := by
  have hany : ((banksOf i).any fun b => decide (s.maxOpts < s.cnt b)) = true :=
    List.any_eq_true.mpr ⟨b, hb, decide_eq_true h⟩
  rw [commonCheck, if_neg (lenCheck_passes hrx), if_pos hany]

/-- Check 4 is the first to fail where checks 2 and 3 pass. -/
theorem commonCheck_idxRange {i : Instr} {s : State} (hrx : usesRx i = true → s.rxlen.toNat ≤ 4096)
    (hb : ∀ b ∈ banksOf i, s.cnt b ≤ s.maxOpts) (h : badIndex i s = true) : commonCheck i s = some .idxRange := by
  have hany : ¬ ((banksOf i).any fun b => decide (s.maxOpts < s.cnt b)) = true := by simpa using hb
  rw [commonCheck, if_neg (lenCheck_passes hrx), if_neg hany, if_pos h]

/-- Settles O11: the first check that fails gives the code, and a failed check ends the command. -/
theorem commonChecksInOrder : Obligations.CommonChecksInOrder := by
  intro s
  have len {i : Instr} (hi : usesRx i = true) (h : 4096 < s.rxlen.toNat) : FailsOnly .lenRange i s :=
    failsOnly_of_check (commonCheck_lenRange hi h)
  have cnt {i : Instr} {b : Bank} (h : s.maxOpts < s.cnt b) (hb : b ∈ banksOf i)
      (hrx : usesRx i = true → s.rxlen.toNat ≤ 4096) : FailsOnly .cntRange i s :=
    failsOnly_of_check (commonCheck_cntRange hrx hb h)
  refine ⟨fun h => ⟨len rfl h, len rfl h, len rfl h, fun _ _ _ => len rfl h⟩,
    fun b h => ⟨fun idx => cnt h (.head _) nofun, fun hrx idx c => cnt h (.head _) fun _ => hrx, ?bldreq⟩,
    fun h => cnt h (.head _) nofun,
    fun h => ⟨cnt h (.head _) nofun, cnt h (.head _) nofun, cnt h (.head _) nofun⟩,
    fun b hb => ⟨fun idx h => ?optenc, fun hrx idx c h => ?optdec⟩⟩
  case bldreq => exact cnt h (by cases b <;> decide) nofun
  case optenc =>
    exact failsOnly_of_check (commonCheck_idxRange nofun (by simpa [banksOf] using hb) (decide_eq_true h))
  case optdec =>
    exact failsOnly_of_check
      (commonCheck_idxRange (fun _ => hrx) (by simpa [banksOf] using hb) (by simpa [badIndex] using h))

/-! ## Every step answers -/

theorem exec_answers (i : Instr) (s : State) : ∃ t, exec i s = .next t := by
  rcases exec_cases i s with ⟨k, -, -, h⟩ | ⟨-, h⟩ <;> exact ⟨_, h⟩

/-- Every command ends, and it writes nothing of the model's bookkeeping (60_exceptions.md R271, R273). -/
theorem ended_of_exec {i : Instr} {s t : State} (h : exec i s = .next t) : Ended t.errcode s t ∧ KeepsModel s t := by
  obtain ⟨⟨k, hend, -, -, hmodel⟩, -⟩ := exec_writesOutputs h
  obtain ⟨hpend, hdone, herr, rfl, hovr⟩ := hend
  exact ⟨⟨hpend, hdone, herr, rfl, hovr⟩, hmodel⟩

/-- Settles O12: a failed check or the body ends the command. -/
theorem everyCommandCompletes : Obligations.EveryCommandCompletes := fun i s =>
  let ⟨t, ht⟩ := exec_answers i s
  ⟨t, ht, ended_of_exec ht⟩

theorem engineTurn_answers (s : State) : ∃ t, engineTurn s = .next t := by
  rcases engineTurn_cases s with ⟨-, h⟩ | ⟨w, -, -, h⟩ | ⟨w, e, -, -, -, h⟩ | ⟨w, i, -, -, -, h⟩
  · exact ⟨_, h⟩
  · exact ⟨_, h⟩
  · exact ⟨_, h⟩
  · rw [h]; exact exec_answers i s

theorem serve_answers (x : Input) (s : State) : ∃ t, serve x s = .next t := by
  cases x with
  | engine => exact engineTurn_answers s
  | read | write | reset => exact ⟨_, rfl⟩

/-- Settles O13: an input is served, or the engine has its turn. -/
theorem noStepStops : Obligations.NoStepStops := by
  intro s
  cases hi : s.inbox with
  | nil => rw [step_engine (.inl hi)]; exact engineTurn_answers _
  | cons x rest => rw [step_cons hi]; exact serve_answers x _

/-! ## The engine's turn -/

theorem engineTurn_idle {s : State} (h : s.pend = none) : engineTurn s = .next s := by
  rw [engineTurn, h]

/-- Settles O7: the turn of an engine with nothing in PEND answers the state it is given. -/
theorem idleEngineDoesNothing : Obligations.IdleEngineDoesNothing := fun _ hp hturn =>
  (step_engine hturn).trans (engineTurn_idle hp)

/-- The word in flight left by completion: DONE is set; CMD, CTRL.IE, the marks and the inputs are as before. -/
structure Completed (s t : State) : Prop where
  pend   : t.pend = none
  done   : t.done = true
  ie     : t.ie = s.ie
  cmd    : t.cmd = s.cmd
  faults : t.faults = s.faults
  inbox  : t.inbox = s.inbox

theorem ie_of_readReg_ctrl {s t : State} (h : readReg t .ctrl = readReg s .ctrl) : t.ie = s.ie := by
  have h0 : t.ctrlWord.getLsbD 0 = s.ctrlWord.getLsbD 0 := congrArg (·.getLsbD 0) h
  rwa [ctrlWord_getLsbD, ctrlWord_getLsbD, if_pos rfl, if_pos rfl] at h0

/-- No command writes CTRL or CMD (10_state.md R46). -/
theorem ctrl_cmd_not_mem_outputRegs (i : Instr) :
    .ctrl ∉ Reg.status :: outputRegs i ∧ .cmd ∉ Reg.status :: outputRegs i := by
  cases i with
  | optdec b idx c => cases b <;> simp [outputRegs]
  | _ => simp [outputRegs]

theorem completed_of_exec {i : Instr} {s t : State} (h : exec i s = .next t) : Completed s t := by
  obtain ⟨⟨k, ⟨hpend, hdone, -⟩, hregs, -, -, hfaults, hinbox, -⟩, -⟩ := exec_writesOutputs h
  obtain ⟨hctrl, hcmd⟩ := ctrl_cmd_not_mem_outputRegs i
  exact ⟨hpend, hdone, ie_of_readReg_ctrl (hregs .ctrl hctrl), hregs .cmd hcmd, hfaults, hinbox⟩

theorem havocOutputs_ie_cmd (i : Instr) (s : State) :
    (havocOutputs i s).ie = s.ie ∧ (havocOutputs i s).cmd = s.cmd := by
  cases i with
  | optdec b idx c => simp only [havocOutputs, havocEntry]; split <;> simp
  | xidgen | b2u16 | b2u32 => exact ⟨rfl, rfl⟩
  | u16tb | u32tb | optenc | msgenc => simp [havocOutputs, havocTx]
  | msgdec | blddisc | bldreq | blddecl | bldrel => simp [havocOutputs, havocMessage]

/-- A word hit by a hazard completes too (log 7). -/
theorem completed_finishTainted (d : Except Illegal Instr) (s : State) : Completed s (finishTainted d s) := by
  obtain ⟨hpend, hdone, -⟩ := finishTainted_ends d s
  obtain ⟨hinbox, -, -, hfaults⟩ := finishTainted_keeps d s
  have hkeep : (finishTainted d s).ie = s.ie ∧ (finishTainted d s).cmd = s.cmd := by
    cases d with
    | error e => exact ⟨rfl, rfl⟩
    | ok i => simp [finishTainted, havocOutputs_ie_cmd i s]
  obtain ⟨hie, hcmd⟩ := hkeep
  exact ⟨hpend, hdone, hie, hcmd, hfaults, hinbox⟩

/-- The engine's turn completes the word in flight, an illegal one included. -/
theorem completed_of_engineTurn {s t : State} (hp : s.pend ≠ none) (h : engineTurn s = .next t) : Completed s t := by
  rcases engineTurn_cases s with ⟨hnone, -⟩ | ⟨w, -, -, he⟩ | ⟨w, e, -, -, -, he⟩ | ⟨w, i, -, -, -, he⟩
  · exact absurd hnone hp
  · cases he.symm.trans h; exact completed_finishTainted _ s
  · cases he.symm.trans h; exact ⟨rfl, rfl, rfl, rfl, rfl, rfl⟩
  · exact completed_of_exec (he.symm.trans h)

/-- The engine's turn leaves nothing in flight. -/
theorem pend_of_engineTurn {s t : State} (h : engineTurn s = .next t) : t.pend = none := by
  by_cases hp : s.pend = none
  · cases (engineTurn_idle hp).symm.trans h; exact hp
  · exact (completed_of_engineTurn hp h).pend

theorem Completed.irq {s t : State} (h : Completed s t) : t.irq = s.ie := by
  rw [State.irq, h.ie, h.done, Bool.and_true]

theorem irq_of_not_done {t : State} (h : t.done = false) : t.irq = false := by
  rw [State.irq, h, Bool.and_false]

/-- Settles O52: completion sets DONE and keeps IE; acknowledgement and acceptance clear DONE. -/
theorem interruptFollowsCompletion : Obligations.InterruptFollowsCompletion := by
  refine ⟨fun i s t ht => (completed_of_exec ht).irq, fun s t hp hturn ht => ?turn, fun s t v rest ht h => ?lowered⟩
  case turn =>
    have hc : Completed s.popped t := completed_of_engineTurn hp (step_engine hturn ▸ ht)
    exact ⟨hc.done, hc.irq⟩
  case lowered =>
    rcases h with ⟨hi, hv⟩ | ⟨hi, hp⟩
    · obtain ⟨hdone, -⟩ := (statusWriteClearsOnlyDoneAndCmdovr s v rest hi).of_next ht
      exact irq_of_not_done (by rw [hdone, hv, Bool.not_true, Bool.and_false])
    · obtain ⟨-, -, hdone, -⟩ := (cmdWriteIsAcceptedWhileIdle s v rest hi hp).of_next ht
      exact irq_of_not_done hdone

/-! ## Rejected accesses (20_memory.md R64, 60_exceptions.md R284) -/

theorem legalAccess_eq_false {a n : Nat}
    (h : 0x20000 ≤ a ∨ (a < 0x100 ∧ ¬ (n = 4 ∧ a % 4 = 0)) ∨ (0x100 ≤ a ∧ n ≠ 1)) : legalAccess a n = false := by
  rw [Bool.eq_false_iff]
  simp only [legalAccess, inRegs, addressSpace, ne_eq, Bool.and_eq_true, Bool.or_eq_true, decide_eq_true_eq]
  omega

theorem hostRead_rejected {a n : Nat} (s : State) (h : legalAccess a n = false) : hostRead a n s = busError s := by
  simp [hostRead, h]

theorem hostWrite_rejected {a n : Nat} (v : Word) (s : State) (h : legalAccess a n = false) :
    hostWrite a n v s = busError s := by
  simp [hostWrite, h]

/-- Settles O43: a rejected access reaches `busError` before anything else is looked at. -/
theorem rejectedAccessIsBusError : Obligations.RejectedAccessIsBusError := by
  rintro s a n rest h (hi | ⟨v, hi⟩)
  · exact (step_cons hi).trans (congrArg _ (hostRead_rejected s.popped (legalAccess_eq_false h)))
  · exact (step_cons hi).trans (congrArg _ (hostWrite_rejected v s.popped (legalAccess_eq_false h)))

/-! ## What serving an input keeps -/

/-- What a write does to its location: a register write, a stored byte, or nothing. -/
theorem writeLocation_cases (a : Nat) (v : Word) (s : State) :
    (∃ r : Reg, a = r.offset ∧ writeLocation a v s = writeReg r v s)
      ∨ (∃ bs, writeLocation a v s = s.writeMem a bs) ∨ writeLocation a v s = s := by
  unfold writeLocation
  split
  · cases hr : regAt a with
    | some r => exact .inl ⟨r, regAt_eq_some hr, rfl⟩
    | none => exact .inr (.inr rfl)
  · split
    · exact .inr (.inl ⟨_, rfl⟩)
    · exact .inr (.inr rfl)

/-- What a hazard does to its location: a free register, a free byte, or nothing. -/
theorem havocLocation_cases (a : Nat) (s : State) :
    (∃ r v, havocLocation a s = (storeReg r v s).drawn) ∨ havocLocation a s = s.havocMem a 1
      ∨ havocLocation a s = s := by
  unfold havocLocation
  split
  · cases regAt a with
    | some r => exact .inl ⟨r, _, rfl⟩
    | none => exact .inr (.inr rfl)
  · split
    · exact .inr (.inl rfl)
    · exact .inr (.inr rfl)

/-- A free location is no part of the latch, the marks or the inputs. -/
theorem havocLocation_keeps (a : Nat) (s : State) :
    (havocLocation a s).pend = s.pend ∧ (havocLocation a s).cmd = s.cmd ∧ (havocLocation a s).faults = s.faults
      ∧ (havocLocation a s).inbox = s.inbox := by
  rcases havocLocation_cases a s with ⟨r, v, h⟩ | h | h <;> simp [h]

/-- The inputs are as before, and every reason marked before is marked still (60_exceptions.md R285). -/
def KeepsMarks (s t : State) : Prop :=
  t.inbox = s.inbox ∧ ∀ f, s.faults.has f = true → t.faults.has f = true

theorem KeepsMarks.of_eq {s t : State} (hi : t.inbox = s.inbox) (hf : t.faults = s.faults) : KeepsMarks s t :=
  ⟨hi, fun _ h => hf ▸ h⟩

/-- Marking a reason unmarks none. -/
theorem has_add {fs : FaultSet} {f : Fault} (g : Fault) (h : fs.has f = true) : (fs.add g).has f = true :=
  match f, g with
  | .hostBusError, .hostBusError | .hostHazard, .hostHazard => rfl
  | .hostBusError, .hostHazard | .hostHazard, .hostBusError => h

theorem keepsMarks_busError (s : State) : KeepsMarks s (busError s) := ⟨rfl, fun _ => has_add .hostBusError⟩

theorem keepsMarks_hazard (a : Nat) (s : State) : KeepsMarks s (hazard a s) := by
  obtain ⟨-, -, hf, hi⟩ := havocLocation_keeps a s
  exact ⟨hi, fun f h => has_add .hostHazard (hf ▸ h)⟩

theorem keepsMarks_writeReg (r : Reg) (v : Word) (s : State) : KeepsMarks s (writeReg r v s) := by
  rcases writeReg_cases r v s with ⟨-, -, h⟩ | ⟨-, h⟩ | ⟨-, -, h⟩ | ⟨-, -, h⟩ | ⟨-, -, h⟩ <;> rw [h]
  · exact .of_eq rfl rfl
  · exact .of_eq rfl rfl
  · exact .of_eq rfl rfl
  · exact .of_eq rfl rfl
  · exact .of_eq (storeReg_inbox r v s) (storeReg_faults r v s)

theorem keepsMarks_writeLocation (a : Nat) (v : Word) (s : State) : KeepsMarks s (writeLocation a v s) := by
  rcases writeLocation_cases a v s with ⟨r, -, h⟩ | ⟨bs, h⟩ | h <;> rw [h]
  · exact keepsMarks_writeReg r v s
  · exact .of_eq rfl rfl
  · exact .of_eq rfl rfl

theorem keepsMarks_hostRead (a n : Nat) (s : State) : KeepsMarks s (hostRead a n s) := by
  rcases hostRead_cases a n s with ⟨-, h⟩ | ⟨-, -, x, h⟩ | ⟨-, h⟩ <;> rw [h]
  · exact keepsMarks_busError s
  · exact .of_eq rfl rfl
  · exact .of_eq rfl rfl

theorem keepsMarks_hostWrite (a n : Nat) (v : Word) (s : State) : KeepsMarks s (hostWrite a n v s) := by
  rcases hostWrite_cases a n v s with ⟨-, h⟩ | ⟨-, -, -, h⟩ | ⟨-, -, h⟩ <;> rw [h]
  · exact keepsMarks_busError s
  · exact keepsMarks_hazard a s
  · exact keepsMarks_writeLocation a v s

theorem keepsMarks_engineTurn {s t : State} (h : engineTurn s = .next t) : KeepsMarks s t := by
  by_cases hp : s.pend = none
  · cases (engineTurn_idle hp).symm.trans h; exact .of_eq rfl rfl
  · have hc := completed_of_engineTurn hp h
    exact .of_eq hc.inbox hc.faults

theorem keepsMarks_serve {x : Input} {s t : State} (h : serve x s = .next t) : KeepsMarks s t := by
  cases x with
  | read a n => cases h; exact keepsMarks_hostRead a n s
  | write a n v => cases h; exact keepsMarks_hostWrite a n v s
  | reset => cases h; exact .of_eq rfl rfl
  | engine => exact keepsMarks_engineTurn h

/-- Every step takes one input off the list and keeps the marks. -/
theorem keepsMarks_step {s t : State} (h : step s = .next t) : KeepsMarks s.popped t := by
  cases hi : s.inbox with
  | nil => exact keepsMarks_engineTurn (step_engine (.inl hi) ▸ h)
  | cons x rest => exact keepsMarks_serve (step_cons hi ▸ h)

theorem inbox_of_step {s t : State} (h : step s = .next t) : t.inbox = s.inbox.tail := (keepsMarks_step h).1

/-! ## The marks along a run (60_exceptions.md R285) -/

theorem not_faultFree_iff {s : State} : ¬ FaultFree s ↔ ∃ f, s.faults.has f = true := by
  unfold FaultFree
  obtain ⟨b, z⟩ := s.faults
  constructor
  · intro h
    cases b with
    | true => exact ⟨.hostBusError, rfl⟩
    | false =>
      cases z with
      | true => exact ⟨.hostHazard, rfl⟩
      | false => exact absurd rfl h
  · rintro ⟨f, hf⟩ h
    cases h
    cases f <;> cases hf

theorem not_faultFree_step {s t : State} (hs : ¬ FaultFree s) (h : step s = .next t) : ¬ FaultFree t := by
  obtain ⟨f, hf⟩ := not_faultFree_iff.mp hs
  exact not_faultFree_iff.mpr ⟨f, (keepsMarks_step h).2 f hf⟩

theorem not_faultFree_run {k : Nat} {s t : State} (hs : ¬ FaultFree s) (h : core.run k s = .next t) :
    ¬ FaultFree t := by
  induction k generalizing s with
  | zero => cases h; exact hs
  | succ k ih =>
    obtain ⟨u, hu⟩ := noStepStops s
    exact ih (not_faultFree_step hs hu) (core_run_succ k hu ▸ h)

/-- Settles O44: every step keeps the marks, so every run does, and a final state has none. -/
theorem faultMarksAreSticky : Obligations.FaultMarksAreSticky := by
  refine ⟨fun s t f h hf => (keepsMarks_step h).2 f hf, fun s t k hs h hfinal => ?_⟩
  obtain ⟨-, -, hfree⟩ := hfinal
  exact not_faultFree_run hs h hfree

/-! ## The end of a command in flight (70_reset_and_hazards.md R302, R310) -/

/-- The latch and CMD are as before. -/
def KeepsLatch (s t : State) : Prop := t.pend = s.pend ∧ t.cmd = s.cmd

/-- While BUSY a register write keeps the command in flight, unless it is a soft reset. -/
theorem writeReg_keepsLatch {r : Reg} {v : Word} {s : State} (hb : s.busy = true) :
    (r = .ctrl ∧ v.getLsbD 1 = true ∧ writeReg r v s = resetBlock s) ∨ KeepsLatch s (writeReg r v s) := by
  rcases writeReg_cases r v s with h | ⟨-, h⟩ | ⟨-, -, h⟩ | ⟨-, hidle, -⟩ | ⟨-, -, h⟩
  · exact .inl h
  · exact .inr (h ▸ ⟨rfl, rfl⟩)
  · exact .inr (h ▸ ⟨rfl, rfl⟩)
  · cases hb.symm.trans hidle
  · exact .inr (h ▸ ⟨storeReg_pend r v s, storeReg_cmd r v s⟩)

/-- A legal access in REGS is of four bytes (20_memory.md R64). -/
theorem width_of_legalAccess_offset {r : Reg} {n : Nat} (h : legalAccess r.offset n = true) : n = 4 := by
  obtain ⟨hlt, -⟩ := offset_lt r
  refine Decidable.byContradiction fun hn => ?_
  cases h.symm.trans (legalAccess_eq_false (.inr (.inl ⟨Nat.lt_succ_of_le hlt, fun ⟨h4, _⟩ => hn h4⟩)))

theorem hostWrite_keepsLatch {a n : Nat} {v : Word} {s : State} (hb : s.busy = true) :
    (resetsBlock (.write a n v) ∧ (hostWrite a n v s).pend = none) ∨ KeepsLatch s (hostWrite a n v s) := by
  rcases hostWrite_cases a n v s with ⟨-, h⟩ | ⟨-, -, -, h⟩ | ⟨hlegal, -, h⟩ <;> rw [h]
  · exact .inr ⟨rfl, rfl⟩
  · obtain ⟨hpend, hcmd, -⟩ := havocLocation_keeps a s
    exact .inr ⟨hpend, hcmd⟩
  · rcases writeLocation_cases a v s with ⟨r, rfl, hw⟩ | ⟨bs, hw⟩ | hw <;> rw [hw]
    · rcases writeReg_keepsLatch (r := r) (v := v) hb with ⟨rfl, hv, hreset⟩ | hk
      · obtain rfl := width_of_legalAccess_offset hlegal
        exact .inl ⟨.inr ⟨v, rfl, hv⟩, by rw [hreset]; rfl⟩
      · exact .inr hk
    · exact .inr ⟨rfl, rfl⟩
    · exact .inr ⟨rfl, rfl⟩

theorem hostRead_keepsLatch (a n : Nat) (s : State) : KeepsLatch s (hostRead a n s) := by
  rcases hostRead_cases a n s with ⟨-, h⟩ | ⟨-, -, x, h⟩ | ⟨-, h⟩ <;> rw [h] <;> exact ⟨rfl, rfl⟩

/-- What an input does to a word in flight: the engine completes it, a reset abandons it, anything else keeps it. -/
theorem serve_inFlight {x : Input} {s t : State} {w : Word} (hp : s.pend = some w) (h : serve x s = .next t) :
    Completed s t ∨ (resetsBlock x ∧ t.pend = none) ∨ KeepsLatch s t := by
  cases x with
  | read a n => cases h; exact .inr (.inr (hostRead_keepsLatch a n s))
  | write a n v => cases h; exact .inr (hostWrite_keepsLatch (busy_of_some hp))
  | reset => cases h; exact .inr (.inl ⟨.inl rfl, rfl⟩)
  | engine => exact .inl (completed_of_engineTurn (by simp [hp]) h)

/-- Some step, at the latest the one after the last input, takes the word out of flight: it completes it, or serves a
reset. -/
theorem inFlight_leaves {s : State} {w : Word} (hp : s.pend = some w) :
    ∃ (k : Nat) (u t : State), k ≤ s.inbox.length ∧ core.run k s = .next u ∧ u.pend = some w ∧ step u = .next t
      ∧ t.pend = none ∧ ((∀ x ∈ s.inbox.take (k + 1), ¬ resetsBlock x) → t.done = true ∧ t.cmd = s.cmd) := by
  induction hi : s.inbox generalizing s with
  | nil =>
    obtain ⟨t, ht⟩ := noStepStops s
    have hc : Completed s.popped t := completed_of_engineTurn (by simp [hp]) (step_engine (.inl hi) ▸ ht)
    exact ⟨0, s, t, Nat.le_refl _, rfl, hp, ht, hc.pend, fun _ => ⟨hc.done, hc.cmd⟩⟩
  | cons x rest ih =>
    obtain ⟨t, ht⟩ := noStepStops s
    rcases serve_inFlight (s := s.popped) hp (step_cons hi ▸ ht) with hc | ⟨hx, hnone⟩ | ⟨hpend, hcmd⟩
    · exact ⟨0, s, t, Nat.zero_le _, rfl, hp, ht, hc.pend, fun _ => ⟨hc.done, hc.cmd⟩⟩
    · exact ⟨0, s, t, Nat.zero_le _, rfl, hp, ht, hnone, fun h => absurd hx (h x (.head _))⟩
    · have hrest : t.inbox = rest := by rw [inbox_of_step ht, hi, List.tail_cons]
      obtain ⟨k, u, t', hk, hrun, hu, hstep, hnone, hend⟩ := ih (hpend.trans hp) hrest
      refine ⟨k + 1, u, t', Nat.succ_le_succ hk, (core_run_succ k ht).trans hrun, hu, hstep, hnone, fun h => ?_⟩
      obtain ⟨hdone, hcmd'⟩ := hend fun y hy => h y (.tail _ hy)
      exact ⟨hdone, hcmd'.trans hcmd⟩

/-- One step more than there are inputs serves every input and leaves nothing in flight. -/
theorem run_inbox_ends (s : State) :
    ∃ f : State, core.run (s.inbox.length + 1) s = .next f ∧ f.inbox = [] ∧ f.pend = none := by
  induction hi : s.inbox generalizing s with
  | nil =>
    obtain ⟨t, ht⟩ := noStepStops s
    exact ⟨t, core_run_succ 0 ht, by rw [inbox_of_step ht, hi, List.tail_nil],
      pend_of_engineTurn (step_engine (.inl hi) ▸ ht)⟩
  | cons x rest ih =>
    obtain ⟨t, ht⟩ := noStepStops s
    obtain ⟨f, hrun, hf⟩ := ih t (by rw [inbox_of_step ht, hi, List.tail_cons])
    exact ⟨f, (core_run_succ _ ht).trans hrun, hf⟩

/-- Settles O10: by induction on the inputs, each of which completes, abandons or keeps the word in flight. -/
theorem everyAcceptedCommandCompletes : Obligations.EveryAcceptedCommandCompletes := by
  refine ⟨fun s => ?_, fun _ _ _ hp _ _ => inFlight_leaves hp⟩
  obtain ⟨f, hrun, hinbox, hpend⟩ := run_inbox_ends s
  exact ⟨f, hrun, fun hfree => ⟨hinbox, hpend, hfree⟩⟩

end Sys2Proof.Machine
end

section
/-! PROOFS. The state after power-up and after a reset (O48, O49, O56). -/

namespace Sys2Proof.Machine

/-- A byte of the address space made UNSPEC as a whole is the free byte of that draw (70_reset_and_hazards.md R300). -/
theorem read_allUnspec {a : Nat} (draw : Nat) (h : a < 0x20000) :
    (Memory.allUnspec draw).read a = Config.unspecByte draw a := by
  have hr : inRange 0 0x20000 a = true := inRange_iff.mpr ⟨Nat.zero_le a, by omega⟩
  simp [Memory.allUnspec, Memory.read, Memory.written, Memory.unlisted, Memory.drawAt, hr]

/-- Settles O49: register by register. -/
theorem resetStateHoldsResetValues : Obligations.ResetStateHoldsResetValues := by
  refine ⟨rfl, rfl, rfl, fun r => ?_, fun a ha => read_allUnspec 0 ha⟩
  cases r <;> rfl

/-- Settles O56: the status fields are at their reset values, and the storage is the one UNSPEC range of draw 0. -/
theorem resetSatisfiesInvariant : Obligations.ResetSatisfiesInvariant where
  param := ⟨by decide, by decide⟩
  memWf := allUnspec_wf 0
  stored := fun c hc => by cases hc
  fresh := fun r hr => by
    obtain rfl : r = ⟨0, 0x20000, 0⟩ := List.mem_singleton.mp hr
    exact Nat.one_pos
  busy := fun _ => rfl
  latch := fun _ hp => by cases hp
  taint := fun ht => by cases ht
  err := fun _ => rfl
  txlen := fun _ => Nat.zero_le _
  doff := fun _ => Nat.zero_le _
  mtype := fun _ _ => rfl
  ucode := fun _ _ => rfl

/-- The reset event gives every register but PARAM, which shows MAX_OPTS, the value it has after power-up. -/
theorem readReg_resetBlock (s : State) {r : Reg} (h : r ≠ .param) : readReg (resetBlock s) r = readReg State.reset r := by
  cases r with
  | param => exact absurd rfl h
  | _ => rfl

/-- The reset input and a soft reset reach `resetBlock`, BUSY or not; they differ in the response alone
(70_reset_and_hazards.md R301, R302). -/
theorem step_resetsBlock {s : State} {x : Input} {rest : List Input} (hi : s.inbox = x :: rest) (hx : resetsBlock x) :
    ∃ y, step s = .next { resetBlock s.popped with resp := y } := by
  rcases hx with rfl | ⟨v, rfl, hv⟩
  · exact ⟨s.resp, step_cons hi⟩
  · have hsafe : (s.busy && hazardReg s v .ctrl) = false := by
      rw [hazardReg, hv, Bool.not_true, Bool.false_and, Bool.and_false]
    have hw : writeReg .ctrl v s.popped = resetBlock s.popped := if_pos hv
    exact ⟨.ack, by rw [step_write_reg (r := .ctrl) hi hsafe, hw]⟩

/-- Settles O48: both kinds of reset reach `resetBlock`, whose registers are those after power-up. -/
theorem resetLeavesResetValues : Obligations.ResetLeavesResetValues := by
  intro s x rest hi hx
  obtain ⟨y, hs⟩ := step_resetsBlock hi hx
  obtain ⟨-, -, -, hregs, -⟩ := resetStateHoldsResetValues
  refine ⟨_, hs, rfl, rfl, fun r => ?_, fun a ha => read_allUnspec s.draws ha, rfl, rfl, popped_inbox_of hi⟩
  rw [readReg_resp]
  by_cases hr : r = .param
  · subst hr; rfl
  · rw [readReg_resetBlock _ hr, hregs r]
    cases r with
    | param => exact absurd rfl hr
    | _ => rfl

end Sys2Proof.Machine
end

section
/-! PROOFS. A command in flight: its run (O5), and the host's accesses while BUSY (O9, O42, O50, O51). -/

namespace Sys2Proof.Machine

/-! ## The engine's turn with a word in flight -/

theorem engineTurn_legal {s : State} {w : Word} {i : Instr} (hp : s.pend = some w) (ht : s.taint = false)
    (hd : decode w = .ok i) : engineTurn s = exec i s := by
  simp only [engineTurn, hp, runCommand, ht, hd, Bool.false_eq_true, if_false]

theorem engineTurn_tainted {s : State} {w : Word} (hp : s.pend = some w) (ht : s.taint = true) :
    engineTurn s = .next (finishTainted (decode w) s) := by
  simp only [engineTurn, hp, runCommand, ht, if_true]

/-- Settles O5: the step is the engine's, which runs the untainted word it finds in PEND. -/
theorem stepRunsLatchedCommand : Obligations.StepRunsLatchedCommand := fun _ _ _ hturn hp ht hd =>
  (step_engine hturn).trans (engineTurn_legal hp ht hd)

/-! ## CMDOVR (70_reset_and_hazards.md R311) -/

theorem engineTurn_cmdovr {s t : State} (h : engineTurn s = .next t) : t.cmdovr = s.cmdovr := by
  rcases engineTurn_cases s with ⟨-, he⟩ | ⟨w, -, -, he⟩ | ⟨w, e, -, -, -, he⟩ | ⟨w, i, -, -, -, he⟩
  · cases he.symm.trans h; rfl
  · cases he.symm.trans h
    obtain ⟨-, hovr, -⟩ := finishTainted_keeps (decode w) s
    exact hovr
  · cases he.symm.trans h; rfl
  · obtain ⟨⟨-, -, -, -, hovr⟩, -⟩ := ended_of_exec (he.symm.trans h)
    exact hovr

theorem hostRead_cmdovr (a n : Nat) (s : State) : (hostRead a n s).cmdovr = s.cmdovr := by
  rcases hostRead_cases a n s with ⟨-, h⟩ | ⟨-, -, x, h⟩ | ⟨-, h⟩ <;> rw [h] <;> rfl

theorem havocLocation_cmdovr (a : Nat) (s : State) : (havocLocation a s).cmdovr = s.cmdovr := by
  rcases havocLocation_cases a s with ⟨r, v, h⟩ | h | h <;> simp [h]

/-- A register write keeps CMDOVR at 1, unless it is a soft reset or writes 1 to it. -/
theorem writeReg_cmdovr {r : Reg} {v : Word} {s : State} (hovr : s.cmdovr = true)
    (h : ¬ clearsCmdOvr (.write r.offset 4 v)) : (writeReg r v s).cmdovr = true := by
  rcases writeReg_cases r v s with ⟨rfl, hv, -⟩ | ⟨rfl, hw⟩ | ⟨-, -, hw⟩ | ⟨-, -, hw⟩ | ⟨-, -, hw⟩
  · exact absurd (.inr (.inr ⟨v, rfl, hv⟩)) h
  · have hv : v.getLsbD 3 = false := Bool.eq_false_iff.mpr fun hv => h (.inr (.inl ⟨v, rfl, hv⟩))
    rw [hw, writeStatus, hovr, hv]; rfl
  · rw [hw]
  · rw [hw]; exact hovr
  · rw [hw, storeReg_cmdovr]; exact hovr

/-- A write of the host, a forbidden one included, keeps CMDOVR at 1 unless it clears it. -/
theorem hostWrite_cmdovr {a n : Nat} {v : Word} {s : State} (hovr : s.cmdovr = true)
    (h : ¬ clearsCmdOvr (.write a n v)) : (hostWrite a n v s).cmdovr = true := by
  rcases hostWrite_cases a n v s with ⟨-, hw⟩ | ⟨-, -, -, hw⟩ | ⟨hlegal, -, hw⟩ <;> rw [hw]
  · exact hovr
  · exact (havocLocation_cmdovr a s).trans hovr
  · rcases writeLocation_cases a v s with ⟨r, rfl, hl⟩ | ⟨bs, hl⟩ | hl <;> rw [hl]
    · obtain rfl := width_of_legalAccess_offset hlegal
      exact writeReg_cmdovr hovr h
    · exact hovr
    · exact hovr

theorem serve_cmdovr {x : Input} {s t : State} (hovr : s.cmdovr = true) (hx : ¬ clearsCmdOvr x)
    (h : serve x s = .next t) : t.cmdovr = true := by
  cases x with
  | read a n => cases h; exact (hostRead_cmdovr a n s).trans hovr
  | write a n v => cases h; exact hostWrite_cmdovr hovr hx
  | reset => exact absurd (.inl rfl) hx
  | engine => exact (engineTurn_cmdovr h).trans hovr

theorem readReg_setCmdovr (s : State) (b : Bool) {r : Reg} (h : r ≠ .status) :
    readReg { s with cmdovr := b } r = readReg s r := by
  cases r with
  | status => exact absurd rfl h
  | _ => rfl

/-- Settles O9: the dropped write reaches CMDOVR alone, and only a STATUS write or a reset takes CMDOVR back. -/
theorem cmdWriteWhileBusyIsDropped : Obligations.CmdWriteWhileBusyIsDropped := by
  refine ⟨fun s v w rest hi hp => ?dropped, fun s t hovr ht hx => ?sticky⟩
  case dropped =>
    have hw : writeReg .cmd v s.popped = { s.popped with cmdovr := true } := if_pos (busy_of_some (s := s.popped) hp)
    have hs : step s = .next { s.popped with cmdovr := true, resp := .ack } := by
      rw [step_write_reg (r := .cmd) hi (Bool.and_false _), hw]
    refine ⟨_, hs, hp, rfl, rfl, rfl, rfl, rfl, rfl, fun r hr => ?_, fun _ _ => rfl, rfl, rfl, popped_inbox_of hi⟩
    rw [readReg_resp { s.popped with cmdovr := true }, readReg_setCmdovr _ _ (List.ne_of_not_mem_cons hr), popped_readReg]
  case sticky =>
    cases hi : s.inbox with
    | nil =>
      have hturn : engineTurn s.popped = .next t := (step_engine (.inl hi)).symm.trans ht
      exact (engineTurn_cmdovr hturn).trans hovr
    | cons x rest => exact serve_cmdovr (s := s.popped) hovr (hx x (by rw [hi]; rfl)) ((step_cons hi).symm.trans ht)

/-! ## Reads (70_reset_and_hazards.md R313) -/

/-- Settles O42: a stable register is read by value, any other location by a free one. -/
theorem busyReadsAreHarmless : Obligations.BusyReadsAreHarmless := by
  intro s a n w rest hi hp
  have hs : step s = .next (hostRead a n s.popped) := step_cons hi
  refine ⟨?stable, fun hlegal => ?harmless⟩
  case stable =>
    rintro r hr rfl rfl
    have hstable : ∀ q ∈ [Reg.id, .ctrl, .status, .cmd, .param], stableReg q = true := by decide
    rw [hs, hostRead_reg (by rw [hstable r hr, Bool.not_true, Bool.and_false]), popped_readReg]
  case harmless =>
    rcases hostRead_cases a n s.popped with ⟨hillegal, -⟩ | ⟨-, -, x, h⟩ | ⟨-, h⟩
    · cases hlegal.symm.trans hillegal
    · exact ⟨x, s.draws + 1, hs.trans (congrArg _ h)⟩
    · exact ⟨readLocation s.popped a, s.draws, hs.trans (congrArg _ h)⟩

/-! ## Allowed writes (70_reset_and_hazards.md R312) -/

/-- A write to a read-only register is acknowledged and ignored, BUSY or not. -/
theorem step_write_readOnly {s : State} {r : Reg} {v : Word} {rest : List Input}
    (hi : s.inbox = .write r.offset 4 v :: rest) (hr : r ∈ [Reg.id, .txlen, .mtype, .dinfo, .param]) :
    step s = .next { s.popped with resp := .ack } := by
  have hro : hazardReg s v r = false ∧ writeReg r v s.popped = s.popped := by
    simp only [List.mem_cons, List.not_mem_nil, or_false] at hr
    rcases hr with rfl | rfl | rfl | rfl | rfl <;> exact ⟨rfl, rfl⟩
  obtain ⟨hsafe, hw⟩ := hro
  rw [step_write_reg hi (by rw [hsafe, Bool.and_false]), hw]

/-- A write to a reserved register offset is acknowledged and ignored, BUSY or not (10_state.md R38). -/
theorem hostWrite_reserved_reg {a : Nat} (v : Word) (s : State) (h : 0x048 ≤ a) (h' : a < 0x100) (h4 : a % 4 = 0) :
    hostWrite a 4 v s = { s with resp := .ack } := by
  have hsafe : hazardWrite s a v = false := by simp [hazardWrite, inRegs_of_lt h', regAt_reserved h]
  simp only [hostWrite, legalAccess_reserved_reg h' h4, hsafe, writeLocation_reserved_reg v s h h', Bool.and_false,
    Bool.not_true, Bool.false_eq_true, if_false]

/-- The byte addresses that hold no byte: the gaps between the windows, the entries from `MAX_OPTS` on, and the bytes
of an entry above its 257 (20_memory.md R61, R65, R66). -/
theorem reserved_byte_not_storage {maxOpts a : Nat} (hmax : maxOpts ≤ 64)
    (h : 0x1F0 ≤ a ∧ a < 0x1000 ∨ 0x3000 ≤ a ∧ a < 0x8000 ∨ 0x18000 ≤ a ∧ a < 0x20000
      ∨ ∃ b i k, i < 64 ∧ k < 0x200 ∧ (maxOpts ≤ i ∨ 257 ≤ k) ∧ a = entryAddr b i + k) :
    0x100 ≤ a ∧ a < 0x20000 ∧ isStorage maxOpts a = false := by
  rw [Bool.eq_false_iff, Ne, ← and_assoc]
  rcases h with h | h | h | ⟨b, i, k, hi, hk, hout, rfl⟩
  · rw [isStorage_iff]; omega
  · rw [isStorage_iff]; omega
  · rw [isStorage_iff]; omega
  · refine ⟨entryAddr_bounds b hi hk, ?_⟩
    rw [isStorage_entryAddr b hmax hi hk]; omega

/-- Settles O51: CTRL by its stored bits, the read-only registers, the reserved offsets and the reserved bytes. -/
theorem busyAllowedWritesAreDefined : Obligations.BusyAllowedWritesAreDefined := by
  intro s a n v w rest hi _
  refine ⟨?ctrl, ?ignored, ?reserved⟩
  case ctrl =>
    rintro rfl rfl hsrst hkeep
    have hsafe : hazardReg s v .ctrl = false := by rw [hazardReg, hkeep, bne_self_eq_false, Bool.and_false]
    rw [step_write_reg (r := .ctrl) hi (by rw [hsafe, Bool.and_false]),
      writeReg_plain (r := .ctrl) _ (by decide) (by decide) (fun _ => hsrst), storeReg, hkeep]
    rfl
  case ignored =>
    rintro rfl (ha | ⟨h, h', h4⟩)
    · obtain ⟨r, hr, rfl⟩ : ∃ r ∈ [Reg.id, .txlen, .mtype, .dinfo, .param], r.offset = a := List.mem_map.mp ha
      exact step_write_readOnly hi hr
    · exact (step_cons hi).trans (congrArg _ (hostWrite_reserved_reg v s.popped h h' h4))
  case reserved =>
    rintro rfl hmax ha
    obtain ⟨h, h', hs⟩ := reserved_byte_not_storage hmax ha
    exact (step_cons hi).trans (congrArg _ (hostWrite_reserved (s := s.popped) v h h' hs))

/-! ## Forbidden writes (70_reset_and_hazards.md R312) -/

/-- A forbidden write is marked, keeps the word in flight, and taints it (log 7). -/
theorem hazard_keeps (a : Nat) (s : State) :
    (hazard a s).pend = s.pend ∧ (hazard a s).cmd = s.cmd ∧ (hazard a s).inbox = s.inbox
      ∧ (hazard a s).faults.hostHazard = true ∧ (hazard a s).taint = true := by
  obtain ⟨hpend, hcmd, -, hinbox⟩ := havocLocation_keeps a s
  exact ⟨hpend, hcmd, hinbox, rfl, rfl⟩

/-- The mark and the taint are no register. -/
theorem readReg_hazard (a : Nat) (s : State) (r : Reg) : readReg (hazard a s) r = readReg (havocLocation a s) r := by
  cases r <;> rfl

theorem havocLocation_offset (r : Reg) (s : State) : havocLocation r.offset s = (storeReg r s.freeWord s).drawn := by
  simp only [havocLocation, inRegs_offset, regAt_offset, if_true]

theorem havocLocation_byte {s : State} {a : Nat} (h : 0x100 ≤ a) (hs : isStorage s.maxOpts a = true) :
    havocLocation a s = s.havocMem a 1 := by
  simp only [havocLocation, inRegs_byte h, hs, Bool.false_eq_true, if_false, if_true]

/-- What a forbidden write does to registers and bytes: location `a`, if it is a register, holds the bits of a free word
that the register stores; if it is a byte, a free byte; every other register and byte is kept. -/
structure FreesLocation (a : Nat) (s t : State) : Prop where
  reg       : ∀ r : Reg, a = r.offset →
    writableBits r ≠ 0 ∧ readReg t r = Config.unspecWord s.draws &&& writableBits r
  byte      : 0x100 ≤ a → t.mem.read a = Config.unspecByte s.draws a
  keepsRegs : ∀ r : Reg, a ≠ r.offset → readReg t r = readReg s r
  keepsMem  : KeepsBytes (fun x => decide (x = a)) s t

theorem freesLocation_hazard_reg {r : Reg} (s : State) (h : writableBits r ≠ 0) :
    FreesLocation r.offset s (hazard r.offset s) where
  reg q hq := by
    obtain rfl : r = q := Option.some.inj ((regAt_offset r).symm.trans ((congrArg regAt hq).trans (regAt_offset q)))
    refine ⟨h, ?_⟩
    rw [readReg_hazard, havocLocation_offset, readReg_drawn, readReg_storeReg, if_neg h]; rfl
  byte hb := absurd (offset_lt r).1 (by omega)
  keepsRegs q hq := by
    have hne : q ≠ r := fun hqr => hq (congrArg Reg.offset hqr).symm
    rw [readReg_hazard, havocLocation_offset, readReg_drawn, storeReg_other _ _ hne]
  keepsMem x _ := by
    show (havocLocation r.offset s).mem.read x = _
    rw [havocLocation_offset, drawn_mem, storeReg_mem]

theorem freesLocation_hazard_byte {a : Nat} {s : State} (h : 0x100 ≤ a) (hs : isStorage s.maxOpts a = true) :
    FreesLocation a s (hazard a s) where
  reg q hq := absurd (offset_lt q).1 (by omega)
  byte _ := by
    show (havocLocation a s).mem.read a = _
    rw [havocLocation_byte h hs]
    exact read_havoc_inside (inRange_iff.mpr ⟨Nat.le_refl a, Nat.lt_succ_self a⟩)
  keepsRegs q _ := by
    rw [readReg_hazard, havocLocation_byte h hs]
    cases q <;> rfl
  keepsMem x hx := by
    have hne : x ≠ a := of_decide_eq_false hx
    show (havocLocation a s).mem.read x = _
    rw [havocLocation_byte h hs]
    exact read_havoc_outside (inRange_false_iff.mpr (by omega))

/-- The engine completes a tainted word with ERR, ERRCODE and every output free, and the mark stays (log 7). -/
theorem tainted_completes {s : State} {w : Word} (hp : s.pend = some w) (ht : s.taint = true)
    (hz : s.faults.hostHazard = true) :
    Answers (engineTurn s) fun u =>
      u.pend = none ∧ u.done = true ∧ u.faults.hostHazard = true
        ∧ Freed s.draws (u.err, u.errcode) (fun x => (x.getLsbD 8, ErrCode.ofFree (x.setWidth 8)))
        ∧ ∀ i, decode w = .ok i → FreedOutputs s.draws i u := by
  obtain ⟨hpend, hdone, -⟩ := finishTainted_ends (decode w) s
  obtain ⟨-, -, -, hfaults⟩ := finishTainted_keeps (decode w) s
  refine ⟨_, engineTurn_tainted hp ht, hpend, hdone, (congrArg FaultSet.hostHazard hfaults).trans hz, ?_⟩
  cases decode w with
  | error e => exact ⟨⟨s.draws, Nat.le_refl _, rfl⟩, fun i hi => by cases hi⟩
  | ok i =>
    obtain ⟨houtputs, hcode⟩ := finishTainted_frees i s
    exact ⟨hcode, fun j hj => by cases hj; exact houtputs⟩

/-- A write that R312 forbids while BUSY: four bytes to a register that stores some, one that is an operand or a CTRL
whose CHKCOOKIE would change, or one byte to storage. -/
def Forbidden (s : State) (a n : Nat) (v : Word) : Prop :=
  (n = 4 ∧ ∃ r : Reg, a = r.offset ∧ writableBits r ≠ 0 ∧ hazardReg s v r = true)
    ∨ (n = 1 ∧ 0x100 ≤ a ∧ a < 0x20000 ∧ isStorage s.maxOpts a = true)

/-- The registers the engine may read as operands or write as outputs and the host may write. -/
def operandRegs : List Reg := [.rxlen, .xidr, .bcval, .pMac0, .pMac1, .pSecs, .pGiaddr, .pTgtip, .optcnt0, .optcnt1]

theorem operandRegs_hazard {s : State} {r : Reg} (v : Word) (h : r ∈ operandRegs) :
    writableBits r ≠ 0 ∧ hazardReg s v r = true := by
  cases r with
  | id | ctrl | status | cmd | txlen | mtype | dinfo | param => exact absurd h (by decide)
  | _ => exact ⟨by decide, rfl⟩

/-- The writes named in R312, kind by kind. -/
theorem forbidden_of_target {s : State} {a n : Nat} {v : Word}
    (h : (n = 4 ∧ ∃ r ∈ operandRegs, a = r.offset)
      ∨ (n = 4 ∧ a = 0x004 ∧ v.getLsbD 1 = false ∧ v.getLsbD 2 ≠ s.chkCookie)
      ∨ (n = 1 ∧ ∃ k, k < 240 ∧ a = 0x100 + k)
      ∨ (n = 1 ∧ ∃ k, k < 4096 ∧ (a = 0x1000 + k ∨ a = 0x2000 + k))
      ∨ (n = 1 ∧ ∃ b i k, i < s.maxOpts ∧ s.maxOpts ≤ 64 ∧ k < 257 ∧ a = entryAddr b i + k)) : Forbidden s a n v := by
  rcases h with ⟨rfl, r, hr, rfl⟩ | ⟨rfl, rfl, hsrst, hflip⟩ | ⟨rfl, k, hk, rfl⟩ | ⟨rfl, k, hk, ha⟩
    | ⟨rfl, b, i, k, hb, hmax, hk, rfl⟩
  · exact .inl ⟨rfl, r, rfl, operandRegs_hazard v hr⟩
  · refine .inl ⟨rfl, .ctrl, rfl, by decide, ?_⟩
    rw [hazardReg, hsrst, bne_iff_ne.mpr hflip]; rfl
  · exact .inr ⟨rfl, by omega, by omega, isStorage_iff.mpr (by omega)⟩
  · exact .inr ⟨rfl, by omega, by omega, isStorage_iff.mpr (by omega)⟩
  · have hs := isStorage_entry b hb hk
    obtain ⟨h, h'⟩ := isStorage_lt hmax hs
    exact .inr ⟨rfl, h, h', hs⟩

/-- The step that serves a forbidden write. -/
theorem step_hazard {s : State} {a n : Nat} {v w : Word} {rest : List Input} (hi : s.inbox = .write a n v :: rest)
    (hp : s.pend = some w) (hlegal : legalAccess a n = true) (hz : hazardWrite s.popped a v = true) :
    step s = .next { hazard a s.popped with resp := .ack } := by
  refine (step_cons hi).trans (congrArg Host.Outcome.next ?_)
  simp only [hostWrite, hlegal, popped_busy, busy_of_some hp, hz, Bool.not_true, Bool.and_true, Bool.false_eq_true,
    if_false, if_true]

theorem step_forbidden {s : State} {a n : Nat} {v w : Word} {rest : List Input} (hi : s.inbox = .write a n v :: rest)
    (hp : s.pend = some w) (h : Forbidden s a n v) :
    step s = .next { hazard a s.popped with resp := .ack } ∧ FreesLocation a s.popped (hazard a s.popped)
      ∧ (n = 1 → 0x100 ≤ a) := by
  rcases h with ⟨rfl, r, rfl, hbits, hr⟩ | ⟨rfl, h, h', hstored⟩
  · have hz : hazardWrite s.popped r.offset v = true := by
      simp only [hazardWrite, inRegs_offset, regAt_offset, if_true]; exact hr
    exact ⟨step_hazard hi hp (legalAccess_offset r) hz, freesLocation_hazard_reg _ hbits, fun h => by cases h⟩
  · have hz : hazardWrite s.popped a v = true := (hazardWrite_byte v h).trans hstored
    exact ⟨step_hazard hi hp (legalAccess_byte h h') hz, freesLocation_hazard_byte h hstored, fun _ => h⟩

/-- Settles O50: the write reaches `hazard`, which frees its location and taints the word in flight. -/
theorem busyOperandWriteIsMarked : Obligations.BusyOperandWriteIsMarked := by
  intro s a n v w rest hi hp ha
  obtain ⟨hs, hfree, hbyte⟩ := step_forbidden hi hp (forbidden_of_target ha)
  obtain ⟨hpend, hcmd, hinbox, hmark, htaint⟩ := hazard_keeps a s.popped
  refine ⟨_, hs, hmark, hpend.trans hp, hcmd, hinbox.trans (popped_inbox_of hi), fun r hr => ?_,
    fun hn => hfree.byte (hbyte hn), fun r hr => ?_, hfree.keepsMem,
    tainted_completes (s := { hazard a s.popped with resp := .ack, inbox := [] }) (hpend.trans hp) htaint hmark⟩
  · obtain ⟨hbits, hread⟩ := hfree.reg r hr
    rw [readReg_resp, hread]
    cases r with
    | id | status | cmd | txlen | mtype | dinfo | param => exact absurd rfl hbits
    | _ => rfl
  · rw [readReg_resp, hfree.keepsRegs r hr, popped_readReg]

end Sys2Proof.Machine
end
